-- ==== Sys2Proof/Word.lean ====
section
/-! DEFINITION. The word types of the controller (spec/00_scope.md R8, R10): every value is unsigned. -/

namespace Sys2Proof

/-- A command word, a Single32 counter value, a time or a frequency: 32 bits (R8, R100). -/
abbrev Word := BitVec 32

/-- A counter register: 16 bits (R8). -/
abbrev Reg16 := BitVec 16

/-- A data-bus sample, a delay value or a field of a command word: 8 bits (R8, R101). -/
abbrev Byte := BitVec 8

end Sys2Proof
end

