-- ==== Sys2Proof/Config.lean ====
section
/-! DEFINITION. The implementation parameters (spec/00_scope.md R7), the environment's moves (R274) and the
free values, which nothing constrains. -/

namespace Sys2Proof

/-- READ32_ORDER: which half READ32 reads first (R7, R139). -/
inductive ReadOrder where
  | ba
  | ab
deriving DecidableEq, Repr, Inhabited

/-- The read-only configuration of one counter device (R32): CTRCFG, FREQA, FREQB, DBUS. -/
structure CtrParams where
  /-- CTRCFG[d], layout R33. -/
  cfg : BitVec 16
  /-- FREQA[d] in hertz, 0 when none is configured (R34). -/
  freqA : Word
  /-- FREQB[d]. -/
  freqB : Word
  /-- DBUS[d]: devices with equal values share one data bus (R7). -/
  dbus : Nat
deriving DecidableEq, Repr, Inhabited

/-- The parameters of R7; NCTR and NBUS are the lengths of the lists. -/
structure Params where
  ctrs : List CtrParams
  /-- NCH[b] for each serial bus b. -/
  nch : List Nat
  readOrder : ReadOrder
  /-- T_HOLD in microseconds. -/
  tHold : Nat
  /-- T_SER in microseconds. -/
  tSer : Nat
deriving DecidableEq, Repr, Inhabited

/-- DESIGN CHOICE (unsafe; log entry 1): the parameters of State.reset are configuration K-D16 of
spec/95_test_vectors.md. Every statement of the package holds for every parameter set. -/
def Params.default : Params :=
  { ctrs := [{ cfg := 0x00FF#16, freqA := 0#32, freqB := 0#32, dbus := 0 }]
    nch := [2], readOrder := .ba, tHold := 2, tSer := 2 }

/-- What the environment may do between two events of the block (R86, R274, R276). -/
inductive EnvMove where
  /-- One rising edge of the experiment's signal on counter A's clock input of device d. -/
  | pulseA (d : Nat)
  /-- The same on counter B's clock input. -/
  | pulseB (d : Nat)
  /-- n microseconds of real time pass. -/
  | elapse (n : Nat)
deriving DecidableEq, Repr, Inhabited

/-- The environment's scripted part in one event of the history: its moves before the event, and its answer
if the event (or the attached device) draws one. -/
structure EnvInput where
  moves : List EnvMove
  /-- `none` leaves the answer free. -/
  draw : Option Word
deriving DecidableEq, Repr, Inhabited

/-- FREE VALUE: the environment's answer at event n of a run (R15), where no script gives one (log entry 4). -/
opaque Config.freeDraw : Nat → Word

/-- FREE VALUE: the environment's moves before event n of a run (R86), where no script gives them
(log entry 4). -/
opaque Config.freeMoves : Nat → List EnvMove

/-- FREE VALUE: the four 16-bit values liveA, liveB, storeA, storeB of the IC of device d after the power-on at
event n (R269, R281; log entry 7). -/
opaque Config.freeIC : Nat → Nat → BitVec 64

/-- FREE VALUE: the shift register of delay chip (b, c) after the power-on at event n (R273; log entry 7). -/
opaque Config.freeShift : Nat → Nat → Nat → Byte

/-- FREE VALUE: the time source after the power-on at event n (R261; log entry 7). -/
opaque Config.freeTime : Nat → Nat

end Sys2Proof
end

