-- ==== Sys2Proof/Syntax.lean ====
section
/-! DEFINITION. The commands: one constructor per row of spec/opcode_table.json (spec/30_encoding.md R104). -/

namespace Sys2Proof

/-- A register half of a counter device; also the name of a self-test channel (spec/00_scope.md, glossary). -/
inductive Half where
  | A
  | B
deriving DecidableEq, Repr, Inhabited

/-- A byte of a register half (spec/20_memory.md R70). -/
inductive BytePart where
  | upper
  | lower
deriving DecidableEq, Repr, Inhabited

/-- The fourteen commands. d, b and c are the zero-extended index fields and v, delta the IMM byte (R102). -/
inductive Instr where
  /-- initialize(), R230. -/
  | init
  /-- latch(), R131. -/
  | latch (d : Nat)
  /-- readLatched(half), R136. -/
  | readl (d : Nat) (h : Half)
  /-- readRegister(half), R137. -/
  | readr (d : Nat) (h : Half)
  /-- readCounter32(), R138. -/
  | read32 (d : Nat)
  /-- The "read" token, R140. -/
  | read (d : Nat) (h : Half)
  /-- clear(), R160. -/
  | clear (d : Nat)
  /-- toggleCounterBEnable(), R162. -/
  | togb (d : Nat)
  /-- overflowed(), R164. -/
  | ovf (d : Nat)
  /-- tick(), R183. -/
  | tick
  /-- DelayLine.write(value), R202. -/
  | dlwr (b c : Nat) (v : Byte)
  /-- increment(delta), R205. -/
  | dlinc (b c : Nat) (delta : Byte)
  /-- decrement(delta), R206. -/
  | dldec (b c : Nat) (delta : Byte)
  /-- read() of a delay line, R207. -/
  | dlget (b c : Nat)
deriving DecidableEq, Repr, Inhabited

end Sys2Proof
end

