-- ==== Sys2Proof/WellFormed.lean ====
section
/-! DEFINITION. Well-formed commands: every index fits its 8-bit field (spec/30_encoding.md R101). That an index
names an existing device is a check of the running command and not of the encoding (R103). -/

namespace Sys2Proof

/-- An index that fits the X or Y field. -/
abbrev FitsField (n : Nat) : Prop := n < 256

/-- Every index operand of the command fits its field. -/
def Instr.WellFormed : Instr → Prop
  | .init => True
  | .latch d => FitsField d
  | .readl d _ => FitsField d
  | .readr d _ => FitsField d
  | .read32 d => FitsField d
  | .read d _ => FitsField d
  | .clear d => FitsField d
  | .togb d => FitsField d
  | .ovf d => FitsField d
  | .tick => True
  | .dlwr b c _ => FitsField b ∧ FitsField c
  | .dlinc b c _ => FitsField b ∧ FitsField c
  | .dldec b c _ => FitsField b ∧ FitsField c
  | .dlget b c => FitsField b ∧ FitsField c

/-- The same as a Boolean check. -/
def Instr.wellFormed : Instr → Bool
  | .init => true
  | .latch d => decide (FitsField d)
  | .readl d _ => decide (FitsField d)
  | .readr d _ => decide (FitsField d)
  | .read32 d => decide (FitsField d)
  | .read d _ => decide (FitsField d)
  | .clear d => decide (FitsField d)
  | .togb d => decide (FitsField d)
  | .ovf d => decide (FitsField d)
  | .tick => true
  | .dlwr b c _ => decide (FitsField b) && decide (FitsField c)
  | .dlinc b c _ => decide (FitsField b) && decide (FitsField c)
  | .dldec b c _ => decide (FitsField b) && decide (FitsField c)
  | .dlget b c => decide (FitsField b) && decide (FitsField c)

/-- The Boolean check decides well-formedness. -/
theorem Instr.wellFormed_iff (i : Instr) : i.wellFormed = true ↔ i.WellFormed := by
  cases i <;> simp [Instr.wellFormed, Instr.WellFormed]

end Sys2Proof
end

