-- ==== Sys2Proof/Decode.lean ====
section
/-! DEFINITION. The decoder, total on every 32-bit word, and the encoder (spec/30_encoding.md R100 to R107). The
host hands over whole words, and no command lies in a memory (spec/20_memory.md R90, R111), so a word has no byte
order to fix. -/

namespace Sys2Proof

/-- Why a word is illegal (R106). -/
inductive DecodeError where
  /-- No row has this OP value. -/
  | reservedOp (op : Byte)
  /-- The named row has this OP, and the word has a 1 in a field that row requires to be 0. -/
  | mustBeZero (mnemonic : String)
deriving DecidableEq, Repr

/-- OP, bits [31:24] (R101). -/
def fieldOp (w : Word) : Byte := w.extractLsb' 24 8
/-- X, bits [23:16]. -/
def fieldX (w : Word) : Byte := w.extractLsb' 16 8
/-- Y, bits [15:8]. -/
def fieldY (w : Word) : Byte := w.extractLsb' 8 8
/-- IMM, bits [7:0]. -/
def fieldImm (w : Word) : Byte := w.extractLsb' 0 8

/-- d = b = zext(X) (R102). -/
def operandX (w : Word) : Nat := (fieldX w).toNat
/-- c = zext(Y). -/
def operandY (w : Word) : Nat := (fieldY w).toNat
/-- h = (Y[0] = 0 ? A : B). -/
def operandHalf (w : Word) : Half := if (fieldY w).getLsbD 0 then .B else .A

/-- One row of the opcode map. -/
structure OpRow where
  mnemonic : String
  pattern : Word
  mask : Word
  build : Word → Instr

/-- The opcode map of R104, row by row. -/
def opcodeTable : List OpRow :=
  [ ⟨"INIT",   0x01000000#32, 0xFFFFFFFF#32, fun _ => .init⟩,
    ⟨"LATCH",  0x02000000#32, 0xFF00FFFF#32, fun w => .latch (operandX w)⟩,
    ⟨"READL",  0x03000000#32, 0xFF00FEFF#32, fun w => .readl (operandX w) (operandHalf w)⟩,
    ⟨"READR",  0x04000000#32, 0xFF00FEFF#32, fun w => .readr (operandX w) (operandHalf w)⟩,
    ⟨"READ32", 0x05000000#32, 0xFF00FFFF#32, fun w => .read32 (operandX w)⟩,
    ⟨"READ",   0x06000000#32, 0xFF00FEFF#32, fun w => .read (operandX w) (operandHalf w)⟩,
    ⟨"CLEAR",  0x07000000#32, 0xFF00FFFF#32, fun w => .clear (operandX w)⟩,
    ⟨"TOGB",   0x08000000#32, 0xFF00FFFF#32, fun w => .togb (operandX w)⟩,
    ⟨"OVF",    0x09000000#32, 0xFF00FFFF#32, fun w => .ovf (operandX w)⟩,
    ⟨"TICK",   0x0A000000#32, 0xFFFFFFFF#32, fun _ => .tick⟩,
    ⟨"DLWR",   0x10000000#32, 0xFF000000#32, fun w => .dlwr (operandX w) (operandY w) (fieldImm w)⟩,
    ⟨"DLINC",  0x11000000#32, 0xFF000000#32, fun w => .dlinc (operandX w) (operandY w) (fieldImm w)⟩,
    ⟨"DLDEC",  0x12000000#32, 0xFF000000#32, fun w => .dldec (operandX w) (operandY w) (fieldImm w)⟩,
    ⟨"DLGET",  0x13000000#32, 0xFF0000FF#32, fun w => .dlget (operandX w) (operandY w)⟩ ]

/-- A word selects a row if and only if (w & mask) = match (R104). -/
def OpRow.selects (r : OpRow) (w : Word) : Bool := w &&& r.mask == r.pattern

/-- The row's OP value is the word's. -/
def OpRow.hasOpOf (r : OpRow) (w : Word) : Bool := fieldOp r.pattern == fieldOp w

/-- Why a word that selects no row is illegal (R106). -/
def decodeError (w : Word) : DecodeError :=
  match opcodeTable.find? (fun r => r.hasOpOf w) with
  | some r => .mustBeZero r.mnemonic
  | none => .reservedOp (fieldOp w)

/-- The decoder (R105): the selected row's command, or the reason the word is illegal. -/
def decode (w : Word) : Except DecodeError Instr :=
  match opcodeTable.find? (fun r => r.selects w) with
  | some r => .ok (r.build w)
  | none => .error (decodeError w)

/-- The decoder on an opcode-table word of nbits bits, every bit above them 0. -/
def decodeTableWord (nbits w : Nat) : Option Instr :=
  match decode (BitVec.ofNat 32 (w % 2 ^ nbits)) with
  | .ok i => some i
  | .error _ => none

/-- The mnemonic of a command's row (R104). -/
def Instr.mnemonic : Instr → String
  | .init => "INIT"
  | .latch _ => "LATCH"
  | .readl _ _ => "READL"
  | .readr _ _ => "READR"
  | .read32 _ => "READ32"
  | .read _ _ => "READ"
  | .clear _ => "CLEAR"
  | .togb _ => "TOGB"
  | .ovf _ => "OVF"
  | .tick => "TICK"
  | .dlwr _ _ _ => "DLWR"
  | .dlinc _ _ _ => "DLINC"
  | .dldec _ _ _ => "DLDEC"
  | .dlget _ _ => "DLGET"

/-- The command word with the given fields (R101). -/
def assemble (op x y imm : Byte) : Word := op ++ x ++ y ++ imm

/-- An index in an 8-bit field. -/
def indexField (n : Nat) : Byte := BitVec.ofNat 8 n

/-- The half selector in Y (R101). -/
def halfField : Half → Byte
  | .A => 0#8
  | .B => 1#8

/-- The encoder, from the field columns of R104. -/
def encode : Instr → Word
  | .init => assemble 0x01#8 0#8 0#8 0#8
  | .latch d => assemble 0x02#8 (indexField d) 0#8 0#8
  | .readl d h => assemble 0x03#8 (indexField d) (halfField h) 0#8
  | .readr d h => assemble 0x04#8 (indexField d) (halfField h) 0#8
  | .read32 d => assemble 0x05#8 (indexField d) 0#8 0#8
  | .read d h => assemble 0x06#8 (indexField d) (halfField h) 0#8
  | .clear d => assemble 0x07#8 (indexField d) 0#8 0#8
  | .togb d => assemble 0x08#8 (indexField d) 0#8 0#8
  | .ovf d => assemble 0x09#8 (indexField d) 0#8 0#8
  | .tick => assemble 0x0A#8 0#8 0#8 0#8
  | .dlwr b c v => assemble 0x10#8 (indexField b) (indexField c) v
  | .dlinc b c delta => assemble 0x11#8 (indexField b) (indexField c) delta
  | .dldec b c delta => assemble 0x12#8 (indexField b) (indexField c) delta
  | .dlget b c => assemble 0x13#8 (indexField b) (indexField c) 0#8

end Sys2Proof
end

