-- ==== Sys2Proof/Machine/State.lean ====
section
/-! DEFINITION. The state (spec/10_state.md), the events and outcomes a run shows (spec/00_scope.md R12 to R14),
the environment's data (spec/60_exceptions.md R268 to R276), and the state after reset (R48). -/

namespace Sys2Proof.Machine

/-! ### Pins and events -/

/-- A pin level (R11). -/
inductive Level where
  /-- Logic 0, low. -/
  | L
  /-- Logic 1, high. -/
  | H
  /-- Not driven by the controller. -/
  | Z
deriving DecidableEq, Repr, Inhabited

/-- The output pins (R30). Inputs (DB, OVF) hold no level of the block. -/
inductive Pin where
  /-- GAL, GAU, GBL or GBU of device d, named by the byte it selects (R36). -/
  | gate (d : Nat) (h : Half) (k : BytePart)
  | rclk (d : Nat)
  | clr (d : Nat)
  | cben (d : Nat)
  /-- TCLKA or TCLKB. -/
  | tclk (d : Nat) (x : Half)
  | sclk (b : Nat)
  | sdata (b : Nat)
  | latch (b c : Nat)
deriving DecidableEq, Repr, Inhabited

/-- One event of the history (R12, R14). -/
inductive Event where
  | drive (p : Pin) (lv : Level)
  /-- A hold of at least t microseconds (R297). -/
  | hold (t : Nat)
  /-- The data-bus sample of device d and the value it gave. -/
  | sampleDB (d : Nat) (v : Byte)
  /-- The sample of the OVF pin of device d. -/
  | sampleOVF (d : Nat) (v : Bool)
  | now (t : Word)
  /-- A power cycle: every output pin becomes Z, the "Z at reset only" of R12 (log entry 5). -/
  | powerOn
deriving DecidableEq, Repr, Inhabited

/-! ### Outcomes -/

/-- The error codes of R250. -/
inductive ErrCode where
  | illegal
  | config
  | notInit
  | reinit
  | noDevice
  | mode
  | noCben
  | noOvf
  | bDisabled
  | selftest
deriving DecidableEq, Repr, Inhabited

/-- The value of an ok outcome, in the width its rule states (R13). -/
inductive Value where
  | none
  | bit (v : Bool)
  | byte (v : Byte)
  | reg (v : Reg16)
  | word (v : Word)
deriving DecidableEq, Repr, Inhabited

/-- A command's outcome (R13); called Reply, since the host's interface has an Outcome of its own. -/
inductive Reply where
  | ok (v : Value)
  | err (c : ErrCode) (info : Option Nat)
deriving DecidableEq, Repr, Inhabited

/-! ### Counter devices, serial buses, delay lines -/

/-- CTRSTAT.LIFE (R38, R39). -/
inductive Life where
  | uninit
  | ready
  | halted
deriving DecidableEq, Repr, Inhabited

/-- One self-test channel (R42): RUNx and LVLx of CTRSTAT, HALFx, LASTx, and the level of TCLKx. -/
structure Channel where
  run : Bool
  lvl : Bool
  half : Word
  last : Word
  pin : Level
deriving DecidableEq, Repr, Inhabited

/-- The levels of the four gate pins (R30). -/
structure Gates where
  gal : Level
  gau : Level
  gbl : Level
  gbu : Level
deriving DecidableEq, Repr, Inhabited

/-- One counter device (R32): its read-only configuration, its status and its output pin levels. -/
structure CounterDev where
  cfg : CtrParams
  life : Life
  ben : Bool
  ticked : Bool
  chA : Channel
  chB : Channel
  gates : Gates
  rclk : Level
  clr : Level
  cben : Level
deriving DecidableEq, Repr, Inhabited

/-- One delay line (R45): its latch pin and DLCUR. -/
structure DelayLine where
  latch : Level
  cur : Byte
deriving DecidableEq, Repr, Inhabited

/-- One serial bus (R44) with its delay lines; NCH is the number of them. -/
structure SerialBus where
  sclk : Level
  sdata : Level
  lines : List DelayLine
deriving DecidableEq, Repr, Inhabited

/-! ### The environment -/

/-- What counter A's clock input is wired to (R191, R274). -/
inductive ClkA where
  /-- The self-test output TCLKA. -/
  | selfTest
  /-- The experiment's signal. -/
  | signal
deriving DecidableEq, Repr, Inhabited

/-- What counter B's clock input is wired to. -/
inductive ClkB where
  | selfTest
  | signal
  /-- B's clock or enable is driven by A's overflow output (R274). -/
  | chained
deriving DecidableEq, Repr, Inhabited

/-- The environment model of a counter IC (R269), with its board wiring. -/
structure CounterIC where
  liveA : Reg16
  liveB : Reg16
  storeA : Reg16
  storeB : Reg16
  clkA : ClkA
  clkB : ClkB
deriving DecidableEq, Repr, Inhabited

/-- The environment model of a delay chip (R273); `out` is none while unknown. -/
structure DelayChip where
  sr : Byte
  out : Option Byte
  /-- The chip clocks LSB-first, against the protocol (R204, R291). -/
  lsbFirst : Bool
deriving DecidableEq, Repr, Inhabited

/-- The environment. A device with no entry (or `none`) has no model attached, and its answers are draws (R15,
R268). -/
structure Env where
  /-- Real time T of R276 where that assumption is made; `none` leaves now() a draw. -/
  time : Option Nat
  ics : List (Option CounterIC)
  chips : List (List (Option DelayChip))
  /-- The MODEL's field, not the spec's (log entry 4): the environment's part in each event, by event number. -/
  script : List EnvInput
deriving DecidableEq, Repr, Inhabited

/-- What the host may do between commands (R266). -/
inductive HostAction where
  /-- Issue one command word (R111). -/
  | issue (w : Word)
  /-- Power-cycle the block, with the parameters it starts with (R281). -/
  | powerCycle (p : Params)
deriving DecidableEq, Repr, Inhabited

/-! ### The state -/

/-- The whole machine. The parameters of R7 stand in it (ctrs[d].cfg, the lengths of the lists, readOrder, tHold,
tSer), so that every statement holds for every configuration. -/
structure State where
  /-- INIT_DONE (R31). -/
  initDone : Bool
  /-- READ32_ORDER (R7, R139). -/
  readOrder : ReadOrder
  /-- T_HOLD (R7). -/
  tHold : Nat
  /-- T_SER (R7). -/
  tSer : Nat
  /-- The counter devices; NCTR is their number. -/
  ctrs : List CounterDev
  /-- The serial buses; NBUS is their number. -/
  buses : List SerialBus
  env : Env
  /-- The event history, oldest first (R14). -/
  hist : List Event
  /-- The outcomes the host has got, oldest first (R13, R14). -/
  outcomes : List Reply
  /-- The host's program (R52). -/
  program : List HostAction
  /-- The host's command index (R52). -/
  pc : Nat
deriving DecidableEq, Repr, Inhabited

/-! ### Stops -/

/-- The spec gives the block no trap, no hardware error and no way to stop (R251, R255, R300), so there is no
fault: no constructor, raised by nobody, safe. -/
inductive Fault where
deriving DecidableEq, Repr

/-- Why a step is refused. -/
inductive Refusal where
  /-- An instruction with no meaning yet: raised by exec's refused arms only (none is left); safe. -/
  | notModelled (mnemonic : String)
  /-- The parameters are not a legal configuration, which the spec has the model refuse (R33, U9): raised by step,
  before any command; safe. -/
  | illegalParameters
deriving DecidableEq, Repr

/-- The type of a meaning's answer. -/
abbrev Answer := Host.Outcome State Fault Refusal

/-! ### Reset (R48, R280) -/

/-- A self-test channel at reset. -/
def Channel.reset : Channel := { run := false, lvl := false, half := 0#32, last := 0#32, pin := .Z }

/-- A counter device at reset. -/
def CounterDev.reset (p : CtrParams) : CounterDev :=
  { cfg := p, life := .uninit, ben := false, ticked := false, chA := Channel.reset, chB := Channel.reset
    gates := { gal := .Z, gau := .Z, gbl := .Z, gbu := .Z }, rclk := .Z, clr := .Z, cben := .Z }

/-- A delay line at reset. -/
def DelayLine.reset : DelayLine := { latch := .Z, cur := 0#8 }

/-- A serial bus with n delay lines at reset. -/
def SerialBus.reset (n : Nat) : SerialBus :=
  { sclk := .Z, sdata := .Z, lines := List.replicate n DelayLine.reset }

/-- What an index beyond the last device finds: an undriven device with no pin assigned. No command reaches one
(R103). -/
def CounterDev.absent : CounterDev := CounterDev.reset { cfg := 0#16, freqA := 0#32, freqB := 0#32, dbus := 0 }

/-- What an index beyond the last serial bus finds. -/
def SerialBus.absent : SerialBus := SerialBus.reset 0

/-- No attached model and no script: every answer is a draw (R15). -/
def Env.bare : Env := { time := none, ics := [], chips := [], script := [] }

/-- The machine after power-on reset with parameters p (R48, R280), before the host's first command. -/
def State.ofParams (p : Params) : State :=
  { initDone := false, readOrder := p.readOrder, tHold := p.tHold, tSer := p.tSer
    ctrs := p.ctrs.map CounterDev.reset, buses := p.nch.map SerialBus.reset
    env := Env.bare, hist := [], outcomes := [], program := [], pc := 0 }

/-- The machine right after reset; the parameters are log entry 1's. -/
def State.reset : State := State.ofParams Params.default

end Sys2Proof.Machine
end

