-- ==== Sys2Proof/Machine/Operands.lean ====
section
/-! DEFINITION. Fields of the configuration word (spec/10_state.md R33), legal parameters (R7), and the value
computations of the commands: word assembly (spec/20_memory.md R72 to R74), half-periods and elapsed time
(spec/42_selftest.md R181, R184), delay arithmetic (spec/43_delay_line.md R205, R206). -/

namespace Sys2Proof

/-! ### CTRCFG -/

/-- MODE = 1: Dual16; MODE = 0: Single32 (R33). -/
def CtrParams.dual16 (p : CtrParams) : Bool := p.cfg.getLsbD 0
def CtrParams.hasGal (p : CtrParams) : Bool := p.cfg.getLsbD 1
def CtrParams.hasGau (p : CtrParams) : Bool := p.cfg.getLsbD 2
def CtrParams.hasGbl (p : CtrParams) : Bool := p.cfg.getLsbD 3
def CtrParams.hasGbu (p : CtrParams) : Bool := p.cfg.getLsbD 4
def CtrParams.hasRclk (p : CtrParams) : Bool := p.cfg.getLsbD 5
def CtrParams.hasClr (p : CtrParams) : Bool := p.cfg.getLsbD 6
def CtrParams.hasDb (p : CtrParams) : Bool := p.cfg.getLsbD 7
def CtrParams.hasOvf (p : CtrParams) : Bool := p.cfg.getLsbD 8
def CtrParams.hasCben (p : CtrParams) : Bool := p.cfg.getLsbD 9
/-- HAS_TCLKA or HAS_TCLKB. -/
def CtrParams.hasTclk (p : CtrParams) : Half → Bool
  | .A => p.cfg.getLsbD 10
  | .B => p.cfg.getLsbD 11
/-- Bits [15:12] (R33, U9). -/
def CtrParams.reserved (p : CtrParams) : BitVec 4 := p.cfg.extractLsb' 12 4

/-- FREQA or FREQB. -/
def CtrParams.freq (p : CtrParams) : Half → Word
  | .A => p.freqA
  | .B => p.freqB

/-- A channel is configured exactly when its clock pin is assigned and its frequency is nonzero (R34). -/
def CtrParams.configured (p : CtrParams) (x : Half) : Bool := p.hasTclk x && p.freq x != 0#32

/-- valid(d), the configuration check of INIT (R232). -/
def CtrParams.valid (p : CtrParams) : Bool :=
  p.hasGal && p.hasGau && p.hasGbl && p.hasGbu && p.hasRclk && p.hasClr && p.hasDb
    && !(!p.dual16 && p.hasOvf && p.hasCben)

/-- A device's parameters are legal among n devices (R7, R33). -/
def CtrParams.legal (n : Nat) (p : CtrParams) : Bool := p.reserved == 0#4 && decide (p.dbus < n)

/-- The parameters are in the ranges of R7. -/
def Params.legal (p : Params) : Bool :=
  decide (1 ≤ p.ctrs.length) && decide (p.ctrs.length ≤ 256) && p.ctrs.all (CtrParams.legal p.ctrs.length)
    && decide (1 ≤ p.nch.length) && decide (p.nch.length ≤ 256) && p.nch.all (fun n => decide (1 ≤ n) && decide (n ≤ 256))

namespace Machine

/-- The parameters the state holds (R7): no command changes them (R32). -/
def State.params (s : State) : Params :=
  { ctrs := s.ctrs.map (fun c => c.cfg), nch := s.buses.map (fun b => b.lines.length)
    readOrder := s.readOrder, tHold := s.tHold, tSer := s.tSer }

/-! ### Values -/

/-- value16 = (upperByte << 8) | lowerByte (R73, R135). -/
def word16 (upper lower : Byte) : Reg16 := (upper.setWidth 16 <<< 8) ||| lower.setWidth 16

/-- value32 = (readRegister(B) << 16) | readRegister(A) (R74, R138). -/
def word32 (b a : Reg16) : Word := (b.setWidth 32 <<< 16) ||| a.setWidth 32

/-- The byte of a 16-bit register (R36, R71). -/
def byteOf (r : Reg16) : BytePart → Byte
  | .upper => r.extractLsb' 8 8
  | .lower => r.extractLsb' 0 8

/-- halfPeriod(f) = (1000000 + f) div (2 f), for f at least 1 (R181). -/
def halfPeriod (f : Word) : Word := BitVec.ofNat 32 ((1000000 + f.toNat) / (2 * f.toNat))

/-- elapsed(t, last) = (t - last) mod 2^32 (R184). -/
def elapsed (t last : Word) : Nat := (t - last).toNat

/-- DLINC's sum, modulo 256 (R205). -/
def delayPlus (cur delta : Byte) : Byte := cur + delta

/-- DLDEC's difference, modulo 256 (R206). -/
def delayMinus (cur delta : Byte) : Byte := cur - delta

/-- A level used as a bit (R11). -/
def levelOfBit (v : Bool) : Level := if v then .H else .L

end Machine

end Sys2Proof
end

