-- ==== Sys2Proof/Machine/Environment.lean ====
section
/-! DEFINITION. The spec's environment model of the attached devices (spec/60_exceptions.md R268 to R276). It acts
only where the state's Env holds a model of the device; a device without one answers by draws (R15). -/

namespace Sys2Proof.Machine

/-! ### The counter IC -/

/-- A register-clock rising edge copies both live counts into both storage registers (R270). -/
def CounterIC.latchBoth (ic : CounterIC) : CounterIC := { ic with storeA := ic.liveA, storeB := ic.liveB }

/-- CLR at L zeroes both live counts; each storage register keeps its value or becomes 0, which one is the draw's
bit 0 (A) and bit 1 (B) (R272). -/
def CounterIC.clearBoth (ic : CounterIC) (draw : Word) : CounterIC :=
  { ic with liveA := 0#16, liveB := 0#16
            storeA := if draw.getLsbD 0 then 0#16 else ic.storeA
            storeB := if draw.getLsbD 1 then 0#16 else ic.storeB }

/-- The storage register of half h. -/
def CounterIC.store (ic : CounterIC) : Half → Reg16
  | .A => ic.storeA
  | .B => ic.storeB

/-- The live count of half h. -/
def CounterIC.live (ic : CounterIC) : Half → Reg16
  | .A => ic.liveA
  | .B => ic.liveB

/-- The byte a gate selects (R36, R271). -/
def CounterIC.byte (ic : CounterIC) (h : Half) (k : BytePart) : Byte := byteOf (ic.store h) k

/-- One count of A, and of B where A's overflow is chained to it and B is enabled (R274). -/
def CounterIC.countA (ic : CounterIC) (bEnabled : Bool) : CounterIC :=
  { ic with liveA := ic.liveA + 1#16
            liveB := if ic.clkB = .chained ∧ bEnabled = true ∧ ic.liveA = 0xFFFF#16 then ic.liveB + 1#16 else ic.liveB }

/-- One count of B, if enabled (R274). -/
def CounterIC.countB (ic : CounterIC) (bEnabled : Bool) : CounterIC :=
  if bEnabled then { ic with liveB := ic.liveB + 1#16 } else ic

/-- Counter B is enabled: CBEN at L, or no CBEN pin (R274). -/
def CounterDev.bCounts (c : CounterDev) : Bool := !c.cfg.hasCben || c.cben == .L

/-- No count is taken while CLR is L (R272). -/
def CounterDev.mayCount (c : CounterDev) : Bool := c.clr != .L

/-- A rising edge of the experiment's signal on counter A's input. -/
def CounterIC.pulseA (c : CounterDev) (ic : CounterIC) : CounterIC :=
  if c.mayCount = true ∧ ic.clkA = .signal then ic.countA c.bCounts else ic

/-- The same on counter B's input. -/
def CounterIC.pulseB (c : CounterDev) (ic : CounterIC) : CounterIC :=
  if c.mayCount = true ∧ ic.clkB = .signal then ic.countB c.bCounts else ic

/-- A rising edge of TCLKx (R191, R274). -/
def CounterIC.tclkRise (c : CounterDev) (x : Half) (ic : CounterIC) : CounterIC :=
  match x with
  | .A => if c.mayCount = true ∧ ic.clkA = .selfTest then ic.countA c.bCounts else ic
  | .B => if c.mayCount = true ∧ ic.clkB = .selfTest then ic.countB c.bCounts else ic

/-! ### The delay chip -/

/-- One shift on a rising SCLK edge while the latch is high (R273; LSB-first chips R291). -/
def DelayChip.shiftIn (chip : DelayChip) (v : Bool) : DelayChip :=
  { chip with sr := if chip.lsbFirst then (chip.sr >>> 1) ||| ((BitVec.ofBool v).setWidth 8 <<< 7)
                    else (chip.sr <<< 1) ||| (BitVec.ofBool v).setWidth 8 }

/-- The falling latch edge commits the shift register (R273). -/
def DelayChip.commit (chip : DelayChip) : DelayChip := { chip with out := some chip.sr }

/-! ### The environment as a whole -/

/-- Changes the modelled IC of device d, if there is one. -/
def Env.modIC (e : Env) (d : Nat) (f : CounterIC → CounterIC) : Env :=
  { e with ics := e.ics.modify d (Option.map f) }

/-- The modelled IC of device d. -/
def Env.ic? (e : Env) (d : Nat) : Option CounterIC := e.ics[d]?.join

/-- The modelled chip of delay line (b, c). -/
def Env.chip? (e : Env) (b c : Nat) : Option DelayChip := (e.chips[b]?.bind (fun row => row[c]?)).join

/-- The environment's answer at event n: the script's, or else a free value (R15; log entry 4). -/
def Env.draw (e : Env) (n : Nat) : Word :=
  match e.script[n]? with
  | some i => i.draw.getD (Config.freeDraw n)
  | none => Config.freeDraw n

/-- The environment's moves before event n: the script's, or else free ones (R86; log entry 4). -/
def Env.movesBefore (e : Env) (n : Nat) : List EnvMove :=
  match e.script[n]? with
  | some i => i.moves
  | none => Config.freeMoves n

/-- One move of the environment (R274, R276). -/
def Env.move (ctrs : List CounterDev) (e : Env) : EnvMove → Env
  | .pulseA d => e.modIC d (CounterIC.pulseA (ctrs.getD d CounterDev.absent))
  | .pulseB d => e.modIC d (CounterIC.pulseB (ctrs.getD d CounterDev.absent))
  | .elapse n => { e with time := e.time.map (fun t => t + n) }

/-- The environment after its moves before event n. -/
def Env.advance (ctrs : List CounterDev) (e : Env) (n : Nat) : Env := (e.movesBefore n).foldl (Env.move ctrs) e

/-- A rising edge: from driven low to driven high (log entry 6). -/
def isRise (old new : Level) : Bool := old == .L && new == .H

/-- A falling edge: from driven high to driven low (log entry 6). -/
def isFall (old new : Level) : Bool := old == .H && new == .L

/-- The bit a chip shifts in; an undriven SDATA gives the draw's bit 0. -/
def sdataBit (lv : Level) (draw : Word) : Bool :=
  match lv with
  | .L => false
  | .H => true
  | .Z => draw.getLsbD 0

/-- The chips of bus b with the latch high shift one bit in (R273). -/
def Env.clockChips (buses : List SerialBus) (b : Nat) (draw : Word) (e : Env) : Env :=
  let bus := buses.getD b SerialBus.absent
  { e with chips := e.chips.modify b (fun row => row.mapIdx (fun c chip =>
      if (bus.lines.getD c DelayLine.reset).latch = .H then chip.map (fun k => k.shiftIn (sdataBit bus.sdata draw)) else chip)) }

/-- Chip (b, c) commits (R273). -/
def Env.commitChip (b c : Nat) (e : Env) : Env :=
  { e with chips := e.chips.modify b (fun row => row.modify c (Option.map DelayChip.commit)) }

/-- What the attached devices do when the block drives pin p from level old to new; ctrs and buses are the devices
after the drive. -/
def Env.onDrive (ctrs : List CounterDev) (buses : List SerialBus) (p : Pin) (old new : Level) (draw : Word)
    (e : Env) : Env :=
  match p with
  | .rclk d => if isRise old new then e.modIC d CounterIC.latchBoth else e
  | .clr d => if new = .L then e.modIC d (fun ic => ic.clearBoth draw) else e
  | .tclk d x => if isRise old new then e.modIC d (CounterIC.tclkRise (ctrs.getD d CounterDev.absent) x) else e
  | .sclk b => if isRise old new then e.clockChips buses b draw else e
  | .latch b c => if isFall old new then e.commitChip b c else e
  | .gate _ _ _ => e
  | .cben _ => e
  | .sdata _ => e

/-- A hold of at least t microseconds lets real time pass by t; more is the environment's move (R297). -/
def Env.onHold (t : Nat) (e : Env) : Env := { e with time := e.time.map (fun n => n + t) }

/-! ### What an input pin answers -/

/-- The four gate levels with the half and byte each selects (R36). -/
def Gates.all (g : Gates) : List (Level × Half × BytePart) :=
  [(g.gau, .A, .upper), (g.gal, .A, .lower), (g.gbu, .B, .upper), (g.gbl, .B, .lower)]

/-- The byte selected when exactly one gate is at L (R271). -/
def Gates.selected (g : Gates) : Option (Half × BytePart) :=
  match g.all.filter (fun x => x.1 == .L) with
  | [x] => some x.2
  | _ => none

/-- All four gates are released, driven high. -/
def Gates.released (g : Gates) : Bool := g.all.all (fun x => x.1 == .H)

/-- Every other device on device d's data bus has its gates driven high, so that only d's IC can drive the bus
(R271); an undriven gate of a Halted device leaves the bus unknown (R293). -/
def busQuiet (ctrs : List CounterDev) (d : Nat) : Bool :=
  (List.range ctrs.length).all (fun i =>
    i == d || (ctrs.getD i CounterDev.absent).cfg.dbus != (ctrs.getD d CounterDev.absent).cfg.dbus || (ctrs.getD i CounterDev.absent).gates.released)

/-- sample(DB[d]): the selected byte of the modelled IC (R271), or the draw's low byte (R15). Bit i is the level of
dataBusPins[i] (R72). -/
def Env.busByte (ctrs : List CounterDev) (d : Nat) (draw : Word) (e : Env) : Byte :=
  match e.ic? d, (ctrs.getD d CounterDev.absent).gates.selected, busQuiet ctrs d with
  | some ic, some hk, true => ic.byte hk.1 hk.2
  | _, _, _ => draw.setWidth 8

/-- now(): T mod 2^32 where real time is modelled (R276), or the draw (R261). -/
def Env.timeRead (draw : Word) (e : Env) : Word :=
  match e.time with
  | some t => BitVec.ofNat 32 t
  | none => draw

/-- sample(OVF[d]): always a draw (R275). -/
def overflowLevel (draw : Word) : Bool := draw.getLsbD 0

/-! ### Power -/

/-- An IC after a power cycle at event n: every value unspecified, the wiring kept (R269, R281). -/
def CounterIC.powerUp (n d : Nat) (ic : CounterIC) : CounterIC :=
  { ic with liveA := (Config.freeIC n d).extractLsb' 0 16, liveB := (Config.freeIC n d).extractLsb' 16 16
            storeA := (Config.freeIC n d).extractLsb' 32 16, storeB := (Config.freeIC n d).extractLsb' 48 16 }

/-- A delay chip after a power cycle at event n: its setting unknown (R273). -/
def DelayChip.powerUp (n b c : Nat) (chip : DelayChip) : DelayChip :=
  { chip with sr := Config.freeShift n b c, out := none }

/-- The environment after a power cycle of the system at event n (R261, R269, R273, R281). -/
def Env.powerUp (n : Nat) (e : Env) : Env :=
  { e with time := e.time.map (fun _ => Config.freeTime n)
           ics := e.ics.mapIdx (fun d o => o.map (CounterIC.powerUp n d))
           chips := e.chips.mapIdx (fun b row => row.mapIdx (fun c o => o.map (DelayChip.powerUp n b c))) }

end Sys2Proof.Machine
end

