-- ==== Sys2Proof/Machine/Flags.lean ====
section
/-! DEFINITION. The block has no condition codes (spec/10_state.md R47). This file holds what a reader looks for in
their place: the CTRSTAT word (R38), the status codes (spec/60_exceptions.md R250), and BEN as a function of the
CBEN level (spec/41_counter_control.md R163). -/

namespace Sys2Proof.Machine

/-- LIFE as CTRSTAT codes it; 3 never occurs (R38). -/
def Life.code : Life → BitVec 2
  | .uninit => 0#2
  | .ready => 1#2
  | .halted => 2#2

/-- CTRSTAT[d] as a word (R38): LVLB, LVLA, RUNB, RUNA, TICKED, BEN, LIFE from bit 7 down. No command reads it as
a whole. -/
def CounterDev.ctrstat (c : CounterDev) : BitVec 8 :=
  BitVec.ofBool c.chB.lvl ++ BitVec.ofBool c.chA.lvl ++ BitVec.ofBool c.chB.run ++ BitVec.ofBool c.chA.run
    ++ BitVec.ofBool c.ticked ++ BitVec.ofBool c.ben ++ c.life.code

/-- The tiers of R250. -/
inductive Tier where
  | encoding
  | configuration
  | usage
deriving DecidableEq, Repr

/-- The code numbers of R250. -/
def ErrCode.code : ErrCode → Byte
  | .illegal => 0x01#8
  | .config => 0x02#8
  | .notInit => 0x10#8
  | .reinit => 0x11#8
  | .noDevice => 0x12#8
  | .mode => 0x13#8
  | .noCben => 0x14#8
  | .noOvf => 0x15#8
  | .bDisabled => 0x16#8
  | .selftest => 0x17#8

/-- The tier of each error (R250). -/
def ErrCode.tier : ErrCode → Tier
  | .illegal => .encoding
  | .config => .configuration
  | .notInit => .usage
  | .reinit => .usage
  | .noDevice => .usage
  | .mode => .usage
  | .noCben => .usage
  | .noOvf => .usage
  | .bDisabled => .usage
  | .selftest => .usage

/-- The status code an outcome carries; OK is 0x00 (R250). -/
def Reply.status : Reply → Byte
  | .ok _ => 0x00#8
  | .err c _ => c.code

/-- The value an outcome hands over, zero-extended to the 32 bits that R111 allows at most.
DESIGN CHOICE (unsafe; log entry 15): an outcome with no value is written as the word 0, the same word as ok(0). R13
gives ok(none) no value and R111 no word for it. Value itself keeps the two apart, and no step uses this function. -/
def Value.toWord : Value → Word
  | .none => 0#32
  | .bit v => (BitVec.ofBool v).setWidth 32
  | .byte v => v.setWidth 32
  | .reg v => v.setWidth 32
  | .word v => v

/-- BEN is the inverse of the CBEN level (R163). -/
def benOfLevel (lv : Level) : Bool := lv == .L

/-- The level TOGB drives: (level(CBEN[d]) = L) ? H : L (R162). -/
def flipLevel (lv : Level) : Level := if lv = .L then .H else .L

end Sys2Proof.Machine
end

