-- ==== Sys2Proof/Machine/Ops.lean ====
section
/-! DEFINITION. The named operations over pins, devices and the history: the primitives of spec/00_scope.md R12, the
pin levels (spec/10_state.md R43), the outcome handed to the host (R13, R52), a command that ends in an error
(spec/60_exceptions.md R251: this block's form of taking an exception; R259: there is no return from one), and the
host's side of a step (R52, R266). -/

namespace Sys2Proof.Machine

/-! ### Looking up and changing one device, bus or line -/

/-- Counter device d; every use stands behind check 3. -/
def State.ctr (s : State) (d : Nat) : CounterDev := s.ctrs.getD d CounterDev.absent

/-- Serial bus b. -/
def State.bus (s : State) (b : Nat) : SerialBus := s.buses.getD b SerialBus.absent

/-- Delay line (b, c). -/
def State.line (s : State) (b c : Nat) : DelayLine := (s.bus b).lines.getD c DelayLine.reset

/-- Changes counter device d only. -/
def State.modCtr (s : State) (d : Nat) (f : CounterDev → CounterDev) : State := { s with ctrs := s.ctrs.modify d f }

/-- Changes serial bus b only. -/
def State.modBus (s : State) (b : Nat) (f : SerialBus → SerialBus) : State := { s with buses := s.buses.modify b f }

/-- Changes one delay line of a bus only. -/
def SerialBus.modLine (bus : SerialBus) (c : Nat) (f : DelayLine → DelayLine) : SerialBus :=
  { bus with lines := bus.lines.modify c f }

/-- Channel x of a device. -/
def CounterDev.chan (c : CounterDev) : Half → Channel
  | .A => c.chA
  | .B => c.chB

/-- Changes channel x of a device only. -/
def CounterDev.modChan (c : CounterDev) (x : Half) (f : Channel → Channel) : CounterDev :=
  match x with
  | .A => { c with chA := f c.chA }
  | .B => { c with chB := f c.chB }

/-! ### Pin levels (R30, R36, R43) -/

/-- The level of the gate that selects byte k of half h (R36). -/
def Gates.get (g : Gates) : Half → BytePart → Level
  | .A, .lower => g.gal
  | .A, .upper => g.gau
  | .B, .lower => g.gbl
  | .B, .upper => g.gbu

/-- Sets that gate's level. -/
def Gates.set (g : Gates) (h : Half) (k : BytePart) (lv : Level) : Gates :=
  match h, k with
  | .A, .lower => { g with gal := lv }
  | .A, .upper => { g with gau := lv }
  | .B, .lower => { g with gbl := lv }
  | .B, .upper => { g with gbu := lv }

/-- level(p): the level pin p was last driven to. -/
def State.level (s : State) : Pin → Level
  | .gate d h k => (s.ctr d).gates.get h k
  | .rclk d => (s.ctr d).rclk
  | .clr d => (s.ctr d).clr
  | .cben d => (s.ctr d).cben
  | .tclk d x => ((s.ctr d).chan x).pin
  | .sclk b => (s.bus b).sclk
  | .sdata b => (s.bus b).sdata
  | .latch b c => (s.line b c).latch

/-- The counter devices after pin p is driven to lv. -/
def setCtrPin (ctrs : List CounterDev) (p : Pin) (lv : Level) : List CounterDev :=
  match p with
  | .gate d h k => ctrs.modify d (fun c => { c with gates := c.gates.set h k lv })
  | .rclk d => ctrs.modify d (fun c => { c with rclk := lv })
  | .clr d => ctrs.modify d (fun c => { c with clr := lv })
  | .cben d => ctrs.modify d (fun c => { c with cben := lv })
  | .tclk d x => ctrs.modify d (fun c => c.modChan x (fun ch => { ch with pin := lv }))
  | .sclk _ => ctrs
  | .sdata _ => ctrs
  | .latch _ _ => ctrs

/-- The serial buses after pin p is driven to lv. -/
def setBusPin (buses : List SerialBus) (p : Pin) (lv : Level) : List SerialBus :=
  match p with
  | .gate _ _ _ => buses
  | .rclk _ => buses
  | .clr _ => buses
  | .cben _ => buses
  | .tclk _ _ => buses
  | .sclk b => buses.modify b (fun bus => { bus with sclk := lv })
  | .sdata b => buses.modify b (fun bus => { bus with sdata := lv })
  | .latch b c => buses.modify b (fun bus => bus.modLine c (fun l => { l with latch := lv }))

/-! ### The primitives of R12: each adds one event, after the environment's moves (R86) -/

/-- The environment just before the next event. -/
def State.envNow (s : State) : Env := s.env.advance s.ctrs s.hist.length

/-- The environment's answer in the next event. -/
def State.drawNow (s : State) : Word := s.env.draw s.hist.length

/-- drive(p, lv). -/
def State.drive (s : State) (p : Pin) (lv : Level) : State :=
  { s with ctrs := setCtrPin s.ctrs p lv
           buses := setBusPin s.buses p lv
           env := s.envNow.onDrive (setCtrPin s.ctrs p lv) (setBusPin s.buses p lv) p (s.level p) lv s.drawNow
           hist := s.hist ++ [.drive p lv] }

/-- hold(t). -/
def State.hold (s : State) (t : Nat) : State :=
  { s with env := s.envNow.onHold t, hist := s.hist ++ [.hold t] }

/-- The value sample(DB[d]) gives in state s. -/
def State.busSample (s : State) (d : Nat) : Byte := s.envNow.busByte s.ctrs d s.drawNow

/-- The event of sample(DB[d]). -/
def State.sampleDB (s : State) (d : Nat) : State :=
  { s with env := s.envNow, hist := s.hist ++ [.sampleDB d (s.busSample d)] }

/-- The value sample(OVF[d]) gives in state s: a draw (R275). -/
def State.ovfSample (s : State) : Bool := overflowLevel s.drawNow

/-- The event of sample(OVF[d]). -/
def State.sampleOVF (s : State) (d : Nat) : State :=
  { s with env := s.envNow, hist := s.hist ++ [.sampleOVF d s.ovfSample] }

/-- The value now() gives in state s (R261, R276). -/
def State.timeNow (s : State) : Word := s.envNow.timeRead s.drawNow

/-- The event of now(). -/
def State.readTime (s : State) : State :=
  { s with env := s.envNow, hist := s.hist ++ [.now s.timeNow] }

/-! ### Ending a command -/

/-- The outcome goes to the host, whose command index moves on whatever it is (R13, R52, R111). -/
def State.answer (s : State) (r : Reply) : State := { s with outcomes := s.outcomes ++ [r], pc := s.pc + 1 }

/-- return v (R12). -/
def State.ret (s : State) (v : Value) : State := s.answer (.ok v)

/-- raise E(code) (R12, R251): the command ends at once, nothing else changes. -/
def State.raise (s : State) (c : ErrCode) : State := s.answer (.err c none)

/-- A word that selects no row (R105): E_ILLEGAL before any other check. -/
def State.illegalWord (s : State) : Answer := .next (s.raise .illegal)

/-! ### The host's side of a step (R52, R266, R281) -/

/-- The host's next action, if its program has one left. -/
def State.nextAction (s : State) : Option HostAction := s.program[s.pc]?

/-- A power cycle between commands: reset with parameters p (R281); the host's own data and the history go on, and
the attached devices power up with unspecified values (log entries 5 and 7). -/
def State.powerCycle (s : State) (p : Params) : State :=
  { State.ofParams p with env := s.env.powerUp s.hist.length, hist := s.hist ++ [.powerOn]
                          outcomes := s.outcomes, program := s.program, pc := s.pc + 1 }

/-- The host's power cycle as a step: parameters outside R7's ranges are refused (R33, U9). -/
def State.hostPowerCycle (s : State) (p : Params) : Answer :=
  if p.legal then .next (s.powerCycle p) else .refused .illegalParameters

/-- With no command issued the block waits (R280). -/
def State.idle (s : State) : Answer := .next s

/-- Puts a host action at index n of a program, padding a shorter one with the illegal word 0. -/
def placeAction (a : HostAction) : List HostAction → Nat → List HostAction
  | [], 0 => [a]
  | _ :: l, 0 => a :: l
  | [], n + 1 => .issue 0#32 :: placeAction a [] n
  | x :: l, n + 1 => x :: placeAction a l n

/-- The word the host's program issues next is replaced by w. -/
def State.issueNext (s : State) (w : Word) : State := { s with program := placeAction (.issue w) s.program s.pc }

end Sys2Proof.Machine
end

