-- ==== Sys2Proof/Machine/Checks.lean ====
section
/-! DEFINITION. The checks of a command, in the order of spec/60_exceptions.md R252. Check 1 is the decoder's. -/

namespace Sys2Proof.Machine

/-- Check 2 for INIT: E_REINIT (R240). -/
def State.checkReinit (s : State) : Option ErrCode := if s.initDone then some .reinit else none

/-- Check 2 for every other command: E_NOT_INIT (R241). -/
def State.checkInit (s : State) : Option ErrCode := if s.initDone then none else some .notInit

/-- Check 3 for counter commands: d < NCTR (R103). -/
def State.checkCtr (s : State) (d : Nat) : Option ErrCode := if d < s.ctrs.length then none else some .noDevice

/-- Check 3 for delay-line commands: b < NBUS and c < NCH[b] (R103). -/
def State.checkLine (s : State) (b c : Nat) : Option ErrCode :=
  if b < s.buses.length ∧ c < (s.bus b).lines.length then none else some .noDevice

/-- Check 4: E_CONFIG on a Halted device (R235). -/
def State.checkHalted (s : State) (d : Nat) : Option ErrCode :=
  if (s.ctr d).life = .halted then some .config else none

/-- Check 5 of READ32: E_MODE in Dual16 (R138). -/
def State.checkSingle32 (s : State) (d : Nat) : Option ErrCode := if (s.ctr d).cfg.dual16 then some .mode else none

/-- Check 5 of TOGB: E_NO_CBEN (R162). -/
def State.checkCben (s : State) (d : Nat) : Option ErrCode := if (s.ctr d).cfg.hasCben then none else some .noCben

/-- Check 5 of OVF: E_NO_OVF (R164). -/
def State.checkOvf (s : State) (d : Nat) : Option ErrCode := if (s.ctr d).cfg.hasOvf then none else some .noOvf

/-- Check 6 of a command that reads half B: E_B_DISABLED (R141). -/
def State.checkBEnabled (s : State) (d : Nat) : Option ErrCode := if (s.ctr d).ben then none else some .bDisabled

/-- Check 6 of a command that reads half h: it applies to half B only (R141). -/
def State.checkHalf (s : State) (d : Nat) : Half → Option ErrCode
  | .A => none
  | .B => s.checkBEnabled d

/-- Check 7 of a read: E_SELFTEST while a channel of the device runs and no TICK has come (R187). -/
def State.checkSelfTest (s : State) (d : Nat) : Option ErrCode :=
  if ((s.ctr d).chA.run || (s.ctr d).chB.run) && !(s.ctr d).ticked then some .selftest else none

/-- Checks 2, 3 and 4 of a counter command. -/
def State.checksCounter (s : State) (d : Nat) : List (Option ErrCode) :=
  [s.checkInit, s.checkCtr d, s.checkHalted d]

/-- Checks 2 to 7 of READL and READR. -/
def State.checksRead16 (s : State) (d : Nat) (h : Half) : List (Option ErrCode) :=
  s.checksCounter d ++ [s.checkHalf d h, s.checkSelfTest d]

/-- Checks 2 to 7 of READ32. -/
def State.checksRead32 (s : State) (d : Nat) : List (Option ErrCode) :=
  s.checksCounter d ++ [s.checkSingle32 d, s.checkBEnabled d, s.checkSelfTest d]

/-- Checks 2 to 7 of READ, which never gives E_MODE (R140): in Single32 half B is read, in Dual16 half h. -/
def State.checksRead (s : State) (d : Nat) (h : Half) : List (Option ErrCode) :=
  s.checksCounter d ++ [if (s.ctr d).cfg.dual16 then s.checkHalf d h else s.checkBEnabled d, s.checkSelfTest d]

/-- Checks 2 and 3 of a delay-line command. -/
def State.checksLine (s : State) (b c : Nat) : List (Option ErrCode) := [s.checkInit, s.checkLine b c]

/-- The first check that fails decides (R252). -/
def firstFailed : List (Option ErrCode) → Option ErrCode
  | [] => none
  | some c :: _ => some c
  | none :: rest => firstFailed rest

/-- A command: its checks, all made before the first event, and then its pseudocode (R252, R253). -/
def State.command (s : State) (checks : List (Option ErrCode)) (body : State → State) : Answer :=
  match firstFailed checks with
  | some c => .next (s.raise c)
  | none => .next (body s)

end Sys2Proof.Machine
end

