-- ==== Sys2Proof/Machine/CounterControl.lean ====
section
/-! DEFINITION. The counter control commands (spec/41_counter_control.md): CLEAR, TOGB, OVF. -/

namespace Sys2Proof.Machine

/-- CLEAR's sequence (R160). -/
def State.bodyClear (d : Nat) (s : State) : State :=
  (((s.drive (.clr d) .L).hold s.tHold).drive (.clr d) .H).ret .none

/-- The level TOGB drives on CBEN[d] (R162). -/
def State.togbLevel (s : State) (d : Nat) : Level := flipLevel (s.level (.cben d))

/-- TOGB's sequence: the pin flips and BEN follows it (R162, R163). -/
def State.bodyTogb (d : Nat) (s : State) : State :=
  ((s.drive (.cben d) (s.togbLevel d)).modCtr d (fun c => { c with ben := benOfLevel (s.togbLevel d) })).ret
    (.bit (benOfLevel (s.togbLevel d)))

/-- OVF's sequence: one sample, passed through (R164, R165). -/
def State.bodyOvf (d : Nat) (s : State) : State := (s.sampleOVF d).ret (.bit s.ovfSample)

/-- CLEAR (R160). -/
def execClear (d : Nat) (s : State) : Answer := s.command (s.checksCounter d) (State.bodyClear d)

/-- TOGB (R162). -/
def execTogb (d : Nat) (s : State) : Answer :=
  s.command (s.checksCounter d ++ [s.checkCben d]) (State.bodyTogb d)

/-- OVF (R164). -/
def execOvf (d : Nat) (s : State) : Answer :=
  s.command (s.checksCounter d ++ [s.checkOvf d]) (State.bodyOvf d)

end Sys2Proof.Machine
end

