-- ==== Sys2Proof/Machine/CounterRead.lean ====
section
/-! DEFINITION. The counter latch-and-read commands (spec/40_counter_read.md): LATCH, READL, READR, READ32, READ. -/

namespace Sys2Proof.Machine

/-- pulseLatch(d) (R130). -/
def State.pulseLatch (s : State) (d : Nat) : State :=
  ((s.drive (.rclk d) .H).hold s.tHold).drive (.rclk d) .L

/-- The state in which MemRead samples the bus: its gate asserted and held (R134). -/
def State.gateOpen (s : State) (d : Nat) (h : Half) (k : BytePart) : State :=
  (s.drive (.gate d h k) .L).hold s.tHold

/-- The byte MemRead gives (R134). -/
def State.memReadByte (s : State) (d : Nat) (h : Half) (k : BytePart) : Byte := (s.gateOpen d h k).busSample d

/-- MemRead's effect: the gate low, held, the sample, the gate high (R134). -/
def State.memRead (s : State) (d : Nat) (h : Half) (k : BytePart) : State :=
  ((s.gateOpen d h k).sampleDB d).drive (.gate d h k) .H

/-- The 16-bit value readLatchedHalf(d, h) gives: upper byte first (R135). -/
def State.halfValue (s : State) (d : Nat) (h : Half) : Reg16 :=
  word16 (s.memReadByte d h .upper) ((s.memRead d h .upper).memReadByte d h .lower)

/-- readLatchedHalf's effect (R135). -/
def State.readHalf (s : State) (d : Nat) (h : Half) : State := (s.memRead d h .upper).memRead d h .lower

/-- readRegister's value: a latch pulse, then the half (R137). -/
def State.regValue (s : State) (d : Nat) (h : Half) : Reg16 := (s.pulseLatch d).halfValue d h

/-- readRegister's effect (R137). -/
def State.readReg (s : State) (d : Nat) (h : Half) : State := (s.pulseLatch d).readHalf d h

/-- LATCH's sequence (R131). -/
def State.bodyLatch (d : Nat) (s : State) : State := (s.pulseLatch d).ret .none

/-- The READL sequence from its first event (R136). -/
def State.bodyReadl (d : Nat) (h : Half) (s : State) : State := (s.readHalf d h).ret (.reg (s.halfValue d h))

/-- The READR sequence from its first event (R137). -/
def State.bodyReadr (d : Nat) (h : Half) (s : State) : State := (s.readReg d h).ret (.reg (s.regValue d h))

/-- The READ32 sequence from its first event, in READ32_ORDER (R138, R139). -/
def State.bodyRead32 (d : Nat) (s : State) : State :=
  match s.readOrder with
  | .ba => ((s.readReg d .B).readReg d .A).ret (.word (word32 (s.regValue d .B) ((s.readReg d .B).regValue d .A)))
  | .ab => ((s.readReg d .A).readReg d .B).ret (.word (word32 ((s.readReg d .A).regValue d .B) (s.regValue d .A)))

/-- The READ sequence from its first event: READ32 in Single32, READR in Dual16 (R140). -/
def State.bodyRead (d : Nat) (h : Half) (s : State) : State :=
  if (s.ctr d).cfg.dual16 then s.bodyReadr d h else s.bodyRead32 d

/-- LATCH (R131). -/
def execLatch (d : Nat) (s : State) : Answer :=
  s.command (s.checksCounter d) (State.bodyLatch d)

/-- READL (R136). -/
def execReadl (d : Nat) (h : Half) (s : State) : Answer := s.command (s.checksRead16 d h) (State.bodyReadl d h)

/-- READR (R137). -/
def execReadr (d : Nat) (h : Half) (s : State) : Answer := s.command (s.checksRead16 d h) (State.bodyReadr d h)

/-- READ32 (R138). -/
def execRead32 (d : Nat) (s : State) : Answer := s.command (s.checksRead32 d) (State.bodyRead32 d)

/-- READ (R140). -/
def execRead (d : Nat) (h : Half) (s : State) : Answer := s.command (s.checksRead d h) (State.bodyRead d h)

end Sys2Proof.Machine
end

