-- ==== Sys2Proof/Machine/DelayLine.lean ====
section
/-! DEFINITION. The bit-serial delay-line commands (spec/43_delay_line.md): DLWR, DLINC, DLDEC, DLGET. -/

namespace Sys2Proof.Machine

/-- One bit cycle of stream(b, v) (R200). -/
def State.streamBit (b : Nat) (s : State) (v : Bool) : State :=
  ((((((s.drive (.sdata b) (levelOfBit v)).hold s.tSer).drive (.sclk b) .H).hold s.tSer).drive (.sclk b) .L).hold s.tSer)

/-- The bits of a byte in the order they are streamed: bit 7 down to bit 0 (R75, R200). -/
def msbFirst (v : Byte) : List Bool :=
  [v.getLsbD 7, v.getLsbD 6, v.getLsbD 5, v.getLsbD 4, v.getLsbD 3, v.getLsbD 2, v.getLsbD 1, v.getLsbD 0]

/-- stream(b, v) (R200). -/
def State.stream (s : State) (b : Nat) (v : Byte) : State := (msbFirst v).foldl (State.streamBit b) s

/-- MemWrite(<b, c>, 1, v) (R201). -/
def State.memWrite (s : State) (b c : Nat) (v : Byte) : State :=
  ((s.drive (.latch b c) .H).stream b v).drive (.latch b c) .L

/-- DLCUR[b][c] <- v (R45). -/
def State.setCur (s : State) (b c : Nat) (v : Byte) : State :=
  s.modBus b (fun bus => bus.modLine c (fun l => { l with cur := v }))

/-- DelayLine.write(value): cache, stream, return the value (R202). -/
def State.writeLine (b c : Nat) (v : Byte) (s : State) : State := ((s.setCur b c v).memWrite b c v).ret (.byte v)

/-- DLGET's sequence: the cached value, and no event (R207). -/
def State.bodyDlget (b c : Nat) (s : State) : State := s.ret (.byte (s.line b c).cur)

/-- DLWR (R202). -/
def execDlwr (b c : Nat) (v : Byte) (s : State) : Answer := s.command (s.checksLine b c) (State.writeLine b c v)

/-- DLINC (R205). -/
def execDlinc (b c : Nat) (delta : Byte) (s : State) : Answer :=
  s.command (s.checksLine b c) (State.writeLine b c (delayPlus (s.line b c).cur delta))

/-- DLDEC (R206). -/
def execDldec (b c : Nat) (delta : Byte) (s : State) : Answer :=
  s.command (s.checksLine b c) (State.writeLine b c (delayMinus (s.line b c).cur delta))

/-- DLGET (R207). -/
def execDlget (b c : Nat) (s : State) : Answer :=
  s.command (s.checksLine b c) (State.bodyDlget b c)

end Sys2Proof.Machine
end

