-- ==== Sys2Proof/Machine/Lifecycle.lean ====
section
/-! DEFINITION. Initialization (spec/44_lifecycle.md): INIT. -/

namespace Sys2Proof.Machine

/-- Sets LIFE of device d. -/
def State.setLife (s : State) (d : Nat) (l : Life) : State := s.modCtr d (fun c => { c with life := l })

/-- All four gates released (R234). -/
def State.initGates (s : State) (d : Nat) : State :=
  (((s.drive (.gate d .A .lower) .H).drive (.gate d .A .upper) .H).drive (.gate d .B .lower) .H).drive
    (.gate d .B .upper) .H

/-- CBEN low where there is one (R234). -/
def State.initCben (s : State) (d : Nat) : State :=
  if (s.ctr d).cfg.hasCben then s.drive (.cben d) .L else s

/-- The gates, the register clock low, the clear high, CBEN (R234). -/
def State.initPins (s : State) (d : Nat) : State :=
  (((s.initGates d).drive (.rclk d) .L).drive (.clr d) .H).initCben d

/-- Arms channel x of device d at time t (R234). -/
def State.armChannel (t : Word) (d : Nat) (s : State) (x : Half) : State :=
  ((s.modCtr d (fun c => c.modChan x (fun ch =>
      { ch with half := halfPeriod (c.cfg.freq x), last := t, lvl := false }))).drive (.tclk d x) .L).modCtr d
    (fun c => c.modChan x (fun ch => { ch with run := true }))

/-- One self-test channel at INIT: armed if configured, Idle if not (R234). -/
def State.initChannel (t : Word) (d : Nat) (s : State) (x : Half) : State :=
  if (s.ctr d).cfg.configured x then s.armChannel t d x
  else s.modCtr d (fun c => c.modChan x (fun ch => { ch with run := false }))

/-- initDevice(d, t) (R234). -/
def State.initDevice (t : Word) (s : State) (d : Nat) : State :=
  [Half.A, Half.B].foldl (State.initChannel t d)
    ((s.initPins d).modCtr d (fun c => { c with ben := true, ticked := false }))

/-- One device of INIT's first loop: Ready or Halted (R230, R235). -/
def State.initCounter (t : Word) (s : State) (d : Nat) : State :=
  if (s.ctr d).cfg.valid then (s.initDevice t d).setLife d .ready else s.setLife d .halted

/-- Every latch pin of bus b low, in ascending order (R237). -/
def State.initLatches (s : State) (b : Nat) : State :=
  (List.range (s.bus b).lines.length).foldl (fun s c => s.drive (.latch b c) .L) s

/-- initBus(b): every latch low, then the clock and the data pin (R237). -/
def State.initBus (s : State) (b : Nat) : State := ((s.initLatches b).drive (.sclk b) .L).drive (.sdata b) .L

/-- The lowest index of a device that fails valid(d) (R230, R236). -/
def State.firstBad (s : State) : Option Nat :=
  (List.range s.ctrs.length).find? (fun d => !(s.ctr d).cfg.valid)

/-- INIT's outcome (R236). -/
def initReply : Option Nat → Reply
  | none => .ok .none
  | some d => .err .config (some d)

/-- INIT's first loop: every counter device in ascending order (R230). -/
def State.initCounters (t : Word) (s : State) : State :=
  (List.range s.ctrs.length).foldl (State.initCounter t) s

/-- INIT's second loop: every serial bus in ascending order (R230). -/
def State.initBuses (s : State) : State := (List.range s.buses.length).foldl State.initBus s

/-- INIT_DONE <- 1 (R233). -/
def State.setInitDone (s : State) : State := { s with initDone := true }

/-- INIT's sequence: one time read, the devices, the buses, INIT_DONE, the outcome (R230). -/
def State.bodyInit (s : State) : State :=
  ((s.readTime.initCounters s.timeNow).initBuses.setInitDone).answer (initReply s.firstBad)

/-- INIT (R230, R240). -/
def execInit (s : State) : Answer := s.command [s.checkReinit] State.bodyInit

end Sys2Proof.Machine
end

