-- ==== Sys2Proof/Machine/SelfTest.lean ====
section
/-! DEFINITION. The self-test square-wave generator (spec/42_selftest.md): TICK. -/

namespace Sys2Proof.Machine

/-- A running channel toggles when its half-period has elapsed (R182, R184). -/
def Channel.due (ch : Channel) (t : Word) : Bool := ch.run && decide (ch.half.toNat ≤ elapsed t ch.last)

/-- The toggle: LVLx inverted, the pin driven to it, the timer reloaded from t (R182, R185). -/
def State.toggle (t : Word) (d : Nat) (s : State) (x : Half) : State :=
  ((s.modCtr d (fun c => c.modChan x (fun ch => { ch with lvl := !ch.lvl }))).drive (.tclk d x)
    (levelOfBit (!((s.ctr d).chan x).lvl))).modCtr d (fun c => c.modChan x (fun ch => { ch with last := t }))

/-- tickChannel(d, x, t): at most one toggle (R182, R185). -/
def State.tickChannel (t : Word) (d : Nat) (s : State) (x : Half) : State :=
  if ((s.ctr d).chan x).due t then s.toggle t d x else s

/-- One device within a TICK: only a Ready one, channel A before B (R183, R189). -/
def State.tickDevice (t : Word) (s : State) (d : Nat) : State :=
  if (s.ctr d).life = .ready then
    (([Half.A, Half.B].foldl (State.tickChannel t d) s)).modCtr d (fun c => { c with ticked := true })
  else s

/-- TICK's sequence: one time read, then the devices in ascending order (R183). -/
def State.bodyTick (s : State) : State :=
  ((List.range s.ctrs.length).foldl (State.tickDevice s.timeNow) s.readTime).ret .none

/-- TICK (R183). -/
def execTick (s : State) : Answer := s.command [s.checkInit] State.bodyTick

end Sys2Proof.Machine
end

