-- ==== Sys2Proof/Machine/Dispatch.lean ====
section
/-! DEFINITION. One command (spec/30_encoding.md R104): one arm per constructor. -/

namespace Sys2Proof.Machine

def exec (i : Instr) (s : State) : Host.Outcome State Fault Refusal :=
  match i with
  | .init => Sys2Proof.Machine.execInit s
  | .latch d => Sys2Proof.Machine.execLatch d s
  | .readl d h => Sys2Proof.Machine.execReadl d h s
  | .readr d h => Sys2Proof.Machine.execReadr d h s
  | .read32 d => Sys2Proof.Machine.execRead32 d s
  | .read d h => Sys2Proof.Machine.execRead d h s
  | .clear d => Sys2Proof.Machine.execClear d s
  | .togb d => Sys2Proof.Machine.execTogb d s
  | .ovf d => Sys2Proof.Machine.execOvf d s
  | .tick => Sys2Proof.Machine.execTick s
  | .dlwr b c v => Sys2Proof.Machine.execDlwr b c v s
  | .dlinc b c delta => Sys2Proof.Machine.execDlinc b c delta s
  | .dldec b c delta => Sys2Proof.Machine.execDldec b c delta s
  | .dlget b c => Sys2Proof.Machine.execDlget b c s

end Sys2Proof.Machine
end

