-- ==== Sys2Proof/Machine/Fetch.lean ====
section
/-! DEFINITION. Taking the host's next action (spec/10_state.md R52, spec/60_exceptions.md R266): a word is decoded
and run (spec/30_encoding.md R105, R111), a power cycle resets (spec/70_reset_and_hazards.md R281). -/

namespace Sys2Proof.Machine

/-- The block handles one word: a decoded command runs, any other word is illegal (R105). -/
def runWord (w : Word) (s : State) : Answer :=
  match decode w with
  | .ok i => exec i s
  | .error _ => s.illegalWord

/-- The host's next action; with none left the block waits (R52, R280). -/
def State.hostStep (s : State) : Answer :=
  match s.nextAction with
  | some (.issue w) => runWord w s
  | some (.powerCycle p) => s.hostPowerCycle p
  | none => s.idle

/-- A state whose parameters are no legal configuration is refused (R33, U9). -/
def State.legalStep (s : State) : Answer :=
  if s.params.legal then s.hostStep else .refused .illegalParameters

/-- s with the opcode-table word w of nbits bits, every bit above them 0, as the word the host issues next. -/
def State.placeFetchWord (s : State) (nbits w : Nat) : State := s.issueNext (BitVec.ofNat 32 (w % 2 ^ nbits))

end Sys2Proof.Machine
end

