-- ==== Sys2Proof/Safety.lean ====
section
/-! DEFINITION. The terms claims use: the pin sequences the spec writes out for each command (spec/95_test_vectors.md
gives them for concrete values), what a settled state is (spec/10_state.md R43, R53), and what the devices become. -/

namespace Sys2Proof.Machine

/-! ### Event sequences -/

/-- One register-clock pulse (R130). -/
def latchEvents (d tHold : Nat) : List Event := [.drive (.rclk d) .H, .hold tHold, .drive (.rclk d) .L]

/-- One gated byte read that samples v (R134). -/
def byteEvents (d : Nat) (h : Half) (k : BytePart) (tHold : Nat) (v : Byte) : List Event :=
  [.drive (.gate d h k) .L, .hold tHold, .sampleDB d v, .drive (.gate d h k) .H]

/-- The two byte reads of a half: upper byte u, then lower byte l (R135). -/
def halfEvents (d : Nat) (h : Half) (tHold : Nat) (u l : Byte) : List Event :=
  byteEvents d h .upper tHold u ++ byteEvents d h .lower tHold l

/-- The latch pulse and the two byte reads of READR (R137). -/
def regEvents (d : Nat) (h : Half) (tHold : Nat) (u l : Byte) : List Event :=
  latchEvents d tHold ++ halfEvents d h tHold u l

/-- The clear pulse (R160). -/
def clearEvents (d tHold : Nat) : List Event := [.drive (.clr d) .L, .hold tHold, .drive (.clr d) .H]

/-- One bit cycle on serial bus b (R200). -/
def bitEvents (b tSer : Nat) (v : Bool) : List Event :=
  [.drive (.sdata b) (if v then .H else .L), .hold tSer, .drive (.sclk b) .H, .hold tSer, .drive (.sclk b) .L,
      .hold tSer]

/-- The serial write of v: latch high, bit 7 down to bit 0, latch low (R200, R201). -/
def writeEvents (b c tSer : Nat) (v : Byte) : List Event :=
  [.drive (.latch b c) .H] ++ [7, 6, 5, 4, 3, 2, 1, 0].flatMap (fun i => bitEvents b tSer (v.getLsbD i))
    ++ [.drive (.latch b c) .L]

/-- INIT's events for device d with parameters p: none if it is not valid (R234, R235). -/
def initDeviceEvents (d : Nat) (p : CtrParams) : List Event :=
  if p.valid then
    [.drive (.gate d .A .lower) .H, .drive (.gate d .A .upper) .H, .drive (.gate d .B .lower) .H,
      .drive (.gate d .B .upper) .H, .drive (.rclk d) .L, .drive (.clr d) .H]
    ++ (if p.hasCben then [.drive (.cben d) .L] else [])
    ++ (if p.configured .A then [.drive (.tclk d .A) .L] else [])
    ++ (if p.configured .B then [.drive (.tclk d .B) .L] else [])
  else []

/-- INIT's events for serial bus b with n delay lines (R237). -/
def initBusEvents (b n : Nat) : List Event :=
  (List.range n).map (fun c => Event.drive (.latch b c) .L) ++ [.drive (.sclk b) .L, .drive (.sdata b) .L]

/-- The toggle of channel x of device d at time t, if it is due (R182). -/
def toggleEvents (d : Nat) (x : Half) (ch : Channel) (t : Word) : List Event :=
  if ch.due t then [.drive (.tclk d x) (if ch.lvl then .L else .H)] else []

/-- TICK's events for device d (R183, R189). -/
def tickDeviceEvents (t : Word) (d : Nat) (c : CounterDev) : List Event :=
  if c.life = .ready then toggleEvents d .A c.chA t ++ toggleEvents d .B c.chB t else []

/-! ### What the devices become -/

/-- A channel after INIT at time t (R234). -/
def Channel.afterInit (p : CtrParams) (x : Half) (t : Word) (ch : Channel) : Channel :=
  if p.configured x then { run := true, lvl := false, half := halfPeriod (p.freq x), last := t, pin := .L }
  else { ch with run := false }

/-- A device after INIT at time t (R230, R234, R235). -/
def CounterDev.afterInit (t : Word) (c : CounterDev) : CounterDev :=
  if c.cfg.valid then
    { cfg := c.cfg, life := .ready, ben := true, ticked := false
      chA := c.chA.afterInit c.cfg .A t, chB := c.chB.afterInit c.cfg .B t
      gates := { gal := .H, gau := .H, gbl := .H, gbu := .H }, rclk := .L, clr := .H
      cben := if c.cfg.hasCben then .L else c.cben }
  else { c with life := .halted }

/-- A serial bus after INIT (R237). -/
def SerialBus.afterInit (bus : SerialBus) : SerialBus :=
  { sclk := .L, sdata := .L, lines := bus.lines.map (fun l => { l with latch := .L }) }

/-- A channel after a TICK at time t (R182). -/
def Channel.afterTick (t : Word) (ch : Channel) : Channel :=
  if ch.due t then { ch with lvl := !ch.lvl, pin := if ch.lvl then .L else .H, last := t } else ch

/-- A device after a TICK at time t (R183). -/
def CounterDev.afterTick (t : Word) (c : CounterDev) : CounterDev :=
  if c.life = .ready then { c with chA := c.chA.afterTick t, chB := c.chB.afterTick t, ticked := true } else c

/-- A serial bus after v is written to its delay line c (R202, R203). -/
def SerialBus.afterWrite (c : Nat) (v : Byte) (bus : SerialBus) : SerialBus :=
  { sclk := .L, sdata := if v.getLsbD 0 then .H else .L
    lines := bus.lines.modify c (fun _ => { latch := .L, cur := v }) }

/-! ### Settled states: what holds between commands (R40, R43, R53) -/

/-- Every output pin of the device is Z (R43, R235). -/
def CounterDev.PinsUndriven (c : CounterDev) : Prop :=
  c.gates = { gal := .Z, gau := .Z, gbl := .Z, gbu := .Z } ∧ c.rclk = .Z ∧ c.clr = .Z ∧ c.cben = .Z
    ∧ c.chA.pin = .Z ∧ c.chB.pin = .Z

/-- Gates H, RCLK L, CLR H (R43). -/
def CounterDev.PinsIdle (c : CounterDev) : Prop :=
  c.gates = { gal := .H, gau := .H, gbl := .H, gbu := .H } ∧ c.rclk = .L ∧ c.clr = .H

/-- A Ready device's channel runs exactly if configured; its pin shows its level, an idle one's stays Z (R43, R180). -/
def Channel.Settled (p : CtrParams) (x : Half) (ch : Channel) : Prop :=
  if p.configured x then ch.run = true ∧ ch.half = halfPeriod (p.freq x) ∧ ch.pin = levelOfBit ch.lvl
  else ch.run = false ∧ ch.pin = .Z

/-- BEN is the inverse of CBEN's level; a device with no CBEN has B enabled always (R40). -/
def CounterDev.BenSettled (c : CounterDev) : Prop :=
  if c.cfg.hasCben then c.cben ≠ .Z ∧ (c.ben = true ↔ c.cben = .L) else c.cben = .Z ∧ c.ben = true

/-- A device between commands, by its LIFE (R39, R43). -/
def CounterDev.Settled (initDone : Bool) (c : CounterDev) : Prop :=
  match c.life with
  | .uninit => initDone = false ∧ c.PinsUndriven ∧ c.ben = false ∧ c.ticked = false ∧ c.chA.run = false
      ∧ c.chB.run = false
  | .ready => initDone = true ∧ c.cfg.valid = true ∧ c.PinsIdle ∧ c.BenSettled ∧ c.chA.Settled c.cfg .A
      ∧ c.chB.Settled c.cfg .B
  | .halted => initDone = true ∧ c.cfg.valid = false ∧ c.PinsUndriven ∧ c.chA.run = false ∧ c.chB.run = false

/-- A serial bus between commands (R43, R203). -/
def SerialBus.Settled (initDone : Bool) (bus : SerialBus) : Prop :=
  if initDone then bus.sclk = .L ∧ bus.sdata ≠ .Z ∧ ∀ l ∈ bus.lines, l.latch = .L
  else bus.sclk = .Z ∧ bus.sdata = .Z ∧ ∀ l ∈ bus.lines, l = DelayLine.reset

/-- The invariant between commands: no gate is at L and no latch at H, every pin is at its idle level or undriven
(R43, R53 c), BEN follows CBEN (R40), LIFE agrees with INIT_DONE and valid (R233). -/
def State.Settled (s : State) : Prop :=
  (∀ c ∈ s.ctrs, c.Settled s.initDone) ∧ (∀ bus ∈ s.buses, bus.Settled s.initDone)

/-! ### Levels during a run (R53 a, b) -/

/-- The level of pin p after one event. -/
def levelAfter (p : Pin) (lv : Level) : Event → Level
  | .drive q new => if q = p then new else lv
  | .hold _ => lv
  | .sampleDB _ _ => lv
  | .sampleOVF _ _ => lv
  | .now _ => lv
  | .powerOn => .Z

/-- The level of pin p once the given events have followed state s. -/
def State.levelDuring (s : State) (evs : List Event) (p : Pin) : Level := evs.foldl (levelAfter p) (s.level p)

/-- At most one gate at L among the counter devices of one data bus, and at most one latch at H per serial bus, for a
given assignment of levels (R53 a, b). -/
def Exclusive (dbus : Nat → Nat) (level : Pin → Level) : Prop :=
  (∀ d h k d' h' k', dbus d = dbus d' → level (.gate d h k) = .L → level (.gate d' h' k') = .L →
      d = d' ∧ h = h' ∧ k = k')
    ∧ (∀ b c c', level (.latch b c) = .H → level (.latch b c') = .H → c = c')

/-! ### Which device a command addresses -/

/-- The counter device a counter command addresses. -/
def ctrIndex : Instr → Option Nat
  | .latch d => some d
  | .readl d _ => some d
  | .readr d _ => some d
  | .read32 d => some d
  | .read d _ => some d
  | .clear d => some d
  | .togb d => some d
  | .ovf d => some d
  | .init => none
  | .tick => none
  | .dlwr _ _ _ => none
  | .dlinc _ _ _ => none
  | .dldec _ _ _ => none
  | .dlget _ _ => none

/-- The delay line a delay-line command addresses. -/
def lineIndex : Instr → Option (Nat × Nat)
  | .dlwr b c _ => some (b, c)
  | .dlinc b c _ => some (b, c)
  | .dldec b c _ => some (b, c)
  | .dlget b c => some (b, c)
  | .init => none
  | .latch _ => none
  | .readl _ _ => none
  | .readr _ _ => none
  | .read32 _ => none
  | .read _ _ => none
  | .clear _ => none
  | .togb _ => none
  | .ovf _ => none
  | .tick => none

/-- Checks 1 to 4 of a counter command pass for device d (R252). -/
def State.CounterReady (s : State) (d : Nat) : Prop :=
  s.initDone = true ∧ d < s.ctrs.length ∧ (s.ctr d).life ≠ .halted

/-- Check 6 passes for a read of half h (R141). -/
def State.HalfEnabled (s : State) (d : Nat) (h : Half) : Prop := h = .B → (s.ctr d).ben = true

/-- Check 7 passes (R187). -/
def State.SelfTestOk (s : State) (d : Nat) : Prop :=
  (s.ctr d).chA.run = true ∨ (s.ctr d).chB.run = true → (s.ctr d).ticked = true

/-- Checks 1 to 3 of a delay-line command pass (R252). -/
def State.LineReady (s : State) (b c : Nat) : Prop :=
  s.initDone = true ∧ b < s.buses.length ∧ c < (s.bus b).lines.length

/-- The state after a command that only hands outcome r to the host (R13, R52, R253). -/
def State.onlyAnswered (s : State) (r : Reply) : State := { s with outcomes := s.outcomes ++ [r], pc := s.pc + 1 }

/-- The total of the minimum holds in a list of events (R299). -/
def holdTotal : List Event → Nat
  | [] => 0
  | .hold n :: l => n + holdTotal l
  | .drive _ _ :: l => holdTotal l
  | .sampleDB _ _ :: l => holdTotal l
  | .sampleOVF _ _ :: l => holdTotal l
  | .now _ :: l => holdTotal l
  | .powerOn :: l => holdTotal l

/-- The environment makes no move before the next n events of state s. -/
def State.QuietFor (s : State) (n : Nat) : Prop := ∀ i, i < n → s.env.movesBefore (s.hist.length + i) = []

end Sys2Proof.Machine
end

