-- ==== Sys2Proof/Certificates/Slice0/Obligations.lean ====
section
/-! DEFINITION. The statements for the provers, from the numbered rules of spec/. Where a statement says that a
command answers `{ s with ... }`, every field it does not name is as it was: the equation is the command's result and
its frame in one. The environment's part `e` of a next state is left open there (spec/00_scope.md R15); the statements
of the last section say what the attached devices do. -/

open Sys2Proof Sys2Proof.Machine

/-! ### Encoding and decoding (spec/30_encoding.md) -/

/-- Every well-formed command is read back from its word, with every operand (R102, R104). -/
def Obligations.DecodeOfEncode : Prop := ∀ i : Instr, i.WellFormed → decode (encode i) = .ok i

/-- A word that decodes is the word of its command, so no bit of it is ignored, and the command is well formed. -/
def Obligations.EncodeOfDecode : Prop := ∀ w i, decode w = .ok i → encode i = w ∧ i.WellFormed

/-- The opcode map: its match and mask columns row by row, and a word that selects a row is that row's command; a word
that selects none is no command (R104). -/
def Obligations.DecodeFollowsOpcodeMap : Prop :=
  opcodeTable.map (fun r => (r.mnemonic, r.pattern, r.mask)) =
      [("INIT", 0x01000000#32, 0xFFFFFFFF#32), ("LATCH", 0x02000000#32, 0xFF00FFFF#32),
        ("READL", 0x03000000#32, 0xFF00FEFF#32), ("READR", 0x04000000#32, 0xFF00FEFF#32),
        ("READ32", 0x05000000#32, 0xFF00FFFF#32), ("READ", 0x06000000#32, 0xFF00FEFF#32),
        ("CLEAR", 0x07000000#32, 0xFF00FFFF#32), ("TOGB", 0x08000000#32, 0xFF00FFFF#32),
        ("OVF", 0x09000000#32, 0xFF00FFFF#32), ("TICK", 0x0A000000#32, 0xFFFFFFFF#32),
        ("DLWR", 0x10000000#32, 0xFF000000#32), ("DLINC", 0x11000000#32, 0xFF000000#32),
        ("DLDEC", 0x12000000#32, 0xFF000000#32), ("DLGET", 0x13000000#32, 0xFF0000FF#32)]
    ∧ ∀ w : Word,
      (∀ r ∈ opcodeTable, w &&& r.mask = r.pattern → ∃ i, decode w = .ok i ∧ i.mnemonic = r.mnemonic)
        ∧ ((∀ r ∈ opcodeTable, w &&& r.mask ≠ r.pattern) → ∃ err, decode w = .error err)

/-- The operands of a decoded word are its fields: d = b = zext(X), c = zext(Y), h by Y[0], v = delta = IMM (R102). -/
def Obligations.OperandsFromFields : Prop :=
  ∀ (w : Word) (i : Instr), decode w = .ok i →
    let x := (w.extractLsb' 16 8).toNat
    let y := (w.extractLsb' 8 8).toNat
    let h := if w.getLsbD 8 = false then Half.A else Half.B
    let v := w.extractLsb' 0 8
    match i with
    | .init => True
    | .latch d => d = x
    | .readl d k => d = x ∧ k = h
    | .readr d k => d = x ∧ k = h
    | .read32 d => d = x
    | .read d k => d = x ∧ k = h
    | .clear d => d = x
    | .togb d => d = x
    | .ovf d => d = x
    | .tick => True
    | .dlwr b c imm => b = x ∧ c = y ∧ imm = v
    | .dlinc b c imm => b = x ∧ c = y ∧ imm = v
    | .dldec b c imm => b = x ∧ c = y ∧ imm = v
    | .dlget b c => b = x ∧ c = y

/-- Exactly which words are illegal: a reserved OP, a nonzero must-be-zero field, or Y[7:1] nonzero in a word of READL,
READR or READ; and each of them ends with E_ILLEGAL (R106). -/
def Obligations.IllegalWordsListed : Prop :=
  ∀ w : Word,
    ((∃ err, decode w = .error err) ↔
      let op := w.extractLsb' 24 8
      let x := w.extractLsb' 16 8
      let y := w.extractLsb' 8 8
      let imm := w.extractLsb' 0 8
      (op = 0x00#8 ∨ (0x0B#8 ≤ op ∧ op ≤ 0x0F#8) ∨ 0x14#8 ≤ op)
        ∨ ((op = 0x01#8 ∨ op = 0x0A#8) ∧ (x ≠ 0#8 ∨ y ≠ 0#8 ∨ imm ≠ 0#8))
        ∨ ((op = 0x02#8 ∨ op = 0x05#8 ∨ op = 0x07#8 ∨ op = 0x08#8 ∨ op = 0x09#8) ∧ (y ≠ 0#8 ∨ imm ≠ 0#8))
        ∨ ((op = 0x03#8 ∨ op = 0x04#8 ∨ op = 0x06#8) ∧ (y.extractLsb' 1 7 ≠ 0#7 ∨ imm ≠ 0#8))
        ∨ (op = 0x13#8 ∧ imm ≠ 0#8))
      ∧ ∀ (err : DecodeError) (s : State), decode w = .error err →
        runWord w s = .next { s with outcomes := s.outcomes ++ [.err .illegal none], pc := s.pc + 1 }

/-- The words of the spec's encoding examples (spec/30_encoding.md, section 5). -/
def Obligations.ExampleWordsDecode : Prop :=
  decode 0x01000000#32 = .ok .init ∧ decode 0x02000000#32 = .ok (.latch 0) ∧ decode 0x03000100#32 = .ok (.readl 0 .B)
    ∧ decode 0x04010000#32 = .ok (.readr 1 .A) ∧ decode 0x05000000#32 = .ok (.read32 0)
    ∧ decode 0x06000100#32 = .ok (.read 0 .B) ∧ decode 0x07000000#32 = .ok (.clear 0)
    ∧ decode 0x08000000#32 = .ok (.togb 0) ∧ decode 0x09020000#32 = .ok (.ovf 2) ∧ decode 0x0A000000#32 = .ok .tick
    ∧ decode 0x100102C8#32 = .ok (.dlwr 1 2 200#8) ∧ decode 0x1100000A#32 = .ok (.dlinc 0 0 10#8)
    ∧ decode 0x1200012C#32 = .ok (.dldec 0 1 44#8) ∧ decode 0x13000000#32 = .ok (.dlget 0 0)
    ∧ decode 0x03000200#32 = .error (.mustBeZero "READL") ∧ decode 0x0B000000#32 = .error (.reservedOp 0x0B#8)

/-! ### Steps, reset and the host (spec/10_state.md R48, R52, spec/60_exceptions.md R266) -/

/-- When the host's next action is a word that decodes to i, a step is exec of i at that state (R52, R111); exec
itself hands over the outcome and moves the host's pc. -/
def Obligations.StepRunsDecoded : Prop :=
  ∀ (s : State) (w : Word) (i : Instr), s.params.legal = true → s.program[s.pc]? = some (.issue w) → decode w = .ok i →
    step s = exec i s

/-- No two rows of the opcode map share an OP value, so at most one row matches any word; a word that matches no row
ends with E_ILLEGAL, whatever the state, and changes nothing (R105). -/
def Obligations.IllegalWordAnswered : Prop :=
  (∀ r ∈ opcodeTable, ∀ r' ∈ opcodeTable,
      r.pattern.extractLsb' 24 8 = r'.pattern.extractLsb' 24 8 → r.mnemonic = r'.mnemonic)
    ∧ (∀ (w : Word), ∀ r ∈ opcodeTable, ∀ r' ∈ opcodeTable,
      w &&& r.mask = r.pattern → w &&& r'.mask = r'.pattern → r.mnemonic = r'.mnemonic)
    ∧ ∀ (s : State) (w : Word), s.params.legal = true → s.program[s.pc]? = some (.issue w) →
      (∀ r ∈ opcodeTable, w &&& r.mask ≠ r.pattern) →
      step s = .next { s with outcomes := s.outcomes ++ [.err .illegal none], pc := s.pc + 1 }

/-- With no host action left the block waits, unchanged (R280; the model's reading, log entry 2). -/
def Obligations.WaitsWithoutAction : Prop :=
  ∀ s : State, s.params.legal = true → s.program[s.pc]? = none → step s = .next s

/-- Which parameters are legal, bound by bound: 1 to 256 counter devices, each with CTRCFG[15:12] = 0 and
DBUS < NCTR, and 1 to 256 serial buses of 1 to 256 delay lines each (R7, R33). And when a step is refused, in every
state: exactly when the state's parameters are not legal, or the host's next action is a power cycle to parameters
that are not; always under the one name. R33 has the model refuse a nonzero reserved bit; that the ranges of R7 are
refused the same way is the model's choice (log entry 9). -/
def Obligations.IllegalParametersRefused : Prop :=
  (∀ p : Params, p.legal = true ↔
      (1 ≤ p.ctrs.length ∧ p.ctrs.length ≤ 256)
        ∧ (∀ c ∈ p.ctrs, c.cfg &&& 0xF000#16 = 0#16 ∧ c.dbus < p.ctrs.length)
        ∧ (1 ≤ p.nch.length ∧ p.nch.length ≤ 256) ∧ ∀ n ∈ p.nch, 1 ≤ n ∧ n ≤ 256)
    ∧ ∀ (s : State) (r : Refusal), step s = .refused r ↔
        r = .illegalParameters ∧
          (s.params.legal = false ∨ ∃ p, s.program[s.pc]? = some (.powerCycle p) ∧ p.legal = false)

/-- The reset value of every piece of the block's state, for every parameter set (R48). -/
def Obligations.ResetLeavesSpecValues : Prop :=
  ∀ p : Params,
    (State.ofParams p).initDone = false
      ∧ (∀ c ∈ (State.ofParams p).ctrs, c.ctrstat = 0x00#8 ∧ c.life = .uninit ∧ c.ben = false ∧ c.ticked = false
          ∧ c.chA.half = 0#32 ∧ c.chB.half = 0#32 ∧ c.chA.last = 0#32 ∧ c.chB.last = 0#32)
      ∧ (∀ pin : Pin, (State.ofParams p).level pin = .Z)
      ∧ (∀ bus ∈ (State.ofParams p).buses, ∀ l ∈ bus.lines, l.cur = 0#8)
      ∧ (State.ofParams p).params = p

/-- A power cycle between commands is a reset with the parameters it names: nothing of the block survives (R281). That
it stands in the host's program and leaves the history in place is the model's choice (log entries 2 and 5). -/
def Obligations.PowerCycleResets : Prop :=
  ∀ (s : State) (p : Params), s.params.legal = true → s.program[s.pc]? = some (.powerCycle p) → p.legal = true →
    ∃ e, step s = .next { State.ofParams p with
      env := e, hist := s.hist ++ [.powerOn], outcomes := s.outcomes, program := s.program, pc := s.pc + 1 }

/-! ### Outcomes and the order of checks (spec/60_exceptions.md) -/

/-- The code numbers of R250. -/
def Obligations.StatusCodeNumbers : Prop :=
  (∀ v, (Reply.ok v).status = 0x00#8)
    ∧ ∀ info, (Reply.err .illegal info).status = 0x01#8 ∧ (Reply.err .config info).status = 0x02#8
      ∧ (Reply.err .notInit info).status = 0x10#8 ∧ (Reply.err .reinit info).status = 0x11#8
      ∧ (Reply.err .noDevice info).status = 0x12#8 ∧ (Reply.err .mode info).status = 0x13#8
      ∧ (Reply.err .noCben info).status = 0x14#8 ∧ (Reply.err .noOvf info).status = 0x15#8
      ∧ (Reply.err .bDisabled info).status = 0x16#8 ∧ (Reply.err .selftest info).status = 0x17#8

/-- Every command answers exactly one outcome in every state, the host's pc moves on by one whatever it is, and the
event history only grows (R13, R14, R52, R258). -/
def Obligations.EveryCommandAnswersOnce : Prop :=
  ∀ (i : Instr) (s : State), ∃ t r evs, exec i s = .next t ∧ t.outcomes = s.outcomes ++ [r] ∧ t.pc = s.pc + 1
    ∧ t.program = s.program ∧ t.hist = s.hist ++ evs

/-- Every command other than INIT before INIT ends with E_NOT_INIT and changes nothing (R241). -/
def Obligations.NotInitRefused : Prop :=
  ∀ (i : Instr) (s : State), i ≠ .init → s.initDone = false →
    exec i s = .next { s with outcomes := s.outcomes ++ [.err .notInit none], pc := s.pc + 1 }

/-- A second INIT ends with E_REINIT and changes nothing (R240). -/
def Obligations.SecondInitRefused : Prop :=
  ∀ s : State, s.initDone = true →
    exec .init s = .next { s with outcomes := s.outcomes ++ [.err .reinit none], pc := s.pc + 1 }

/-- After INIT an index that names no device ends with E_NO_DEVICE and changes nothing (R103, R252 check 3). -/
def Obligations.MissingDeviceRefused : Prop :=
  ∀ (i : Instr) (s : State), s.initDone = true →
    ((∃ d, ctrIndex i = some d ∧ s.ctrs.length ≤ d)
      ∨ ∃ b c, lineIndex i = some (b, c) ∧ (s.buses.length ≤ b ∨ (s.bus b).lines.length ≤ c)) →
    exec i s = .next { s with outcomes := s.outcomes ++ [.err .noDevice none], pc := s.pc + 1 }

/-- Every command addressed to a Halted device ends with E_CONFIG and changes nothing (R235, R252 check 4, R254). -/
def Obligations.HaltedDeviceRefused : Prop :=
  ∀ (i : Instr) (s : State) (d : Nat), ctrIndex i = some d → s.initDone = true → d < s.ctrs.length →
    (s.ctr d).life = .halted →
    exec i s = .next { s with outcomes := s.outcomes ++ [.err .config none], pc := s.pc + 1 }

/-- Check 5: READ32 in Dual16, TOGB without CBEN, OVF without OVF (R138, R162, R164, R252). -/
def Obligations.ModeAndCapabilityRefused : Prop :=
  ∀ (s : State) (d : Nat), s.CounterReady d →
    ((s.ctr d).cfg.dual16 = true →
        exec (.read32 d) s = .next { s with outcomes := s.outcomes ++ [.err .mode none], pc := s.pc + 1 })
      ∧ ((s.ctr d).cfg.hasCben = false →
        exec (.togb d) s = .next { s with outcomes := s.outcomes ++ [.err .noCben none], pc := s.pc + 1 })
      ∧ ((s.ctr d).cfg.hasOvf = false →
        exec (.ovf d) s = .next { s with outcomes := s.outcomes ++ [.err .noOvf none], pc := s.pc + 1 })

/-- Check 6: a command that reads half B of a device whose BEN is 0 ends with E_B_DISABLED and changes nothing, in
both modes; and a read of half A is never refused by it (R141). READ32 gets so far in Single32 only. -/
def Obligations.DisabledBRefused : Prop :=
  (∀ (s : State) (d : Nat) (h : Half) (i : Instr), s.CounterReady d → (s.ctr d).ben = false →
      (i = .readl d .B ∨ i = .readr d .B ∨ (i = .read32 d ∧ (s.ctr d).cfg.dual16 = false)
        ∨ (i = .read d h ∧ ((s.ctr d).cfg.dual16 = false ∨ h = .B))) →
      exec i s = .next { s with outcomes := s.outcomes ++ [.err .bDisabled none], pc := s.pc + 1 })
    ∧ ∀ (s t : State) (d : Nat) (i : Instr),
      (i = .readl d .A ∨ i = .readr d .A ∨ (i = .read d .A ∧ (s.ctr d).cfg.dual16 = true)) → exec i s = .next t →
      t.outcomes ≠ s.outcomes ++ [.err .bDisabled none]

/-- Check 7: a read that passed checks 1 to 6 ends with E_SELFTEST and changes nothing while a channel of its device
runs and no TICK has come; the guard looks at that device only, and no other counter command is guarded (R187). -/
def Obligations.SelfTestGuards : Prop :=
  (∀ (s : State) (d : Nat) (h : Half) (i : Instr), s.CounterReady d →
      ((s.ctr d).chA.run = true ∨ (s.ctr d).chB.run = true) → (s.ctr d).ticked = false →
      (((i = .readl d h ∨ i = .readr d h) ∧ s.HalfEnabled d h)
        ∨ (i = .read32 d ∧ (s.ctr d).cfg.dual16 = false ∧ (s.ctr d).ben = true)
        ∨ (i = .read d h ∧ ((s.ctr d).cfg.dual16 = false → (s.ctr d).ben = true)
            ∧ ((s.ctr d).cfg.dual16 = true → s.HalfEnabled d h))) →
      exec i s = .next { s with outcomes := s.outcomes ++ [.err .selftest none], pc := s.pc + 1 })
    ∧ (∀ (s t : State) (i : Instr), exec i s = .next t → t.outcomes = s.outcomes ++ [.err .selftest none] →
      ∃ d h, (i = .readl d h ∨ i = .readr d h ∨ i = .read32 d ∨ i = .read d h)
        ∧ ((s.ctr d).chA.run = true ∨ (s.ctr d).chB.run = true) ∧ (s.ctr d).ticked = false)

/-- Every outcome of the usage and encoding tiers, and every E_CONFIG that is not INIT's, leaves the whole block and
the history as they were (the spec's own inference in R253, and R254). -/
def Obligations.UsageErrorChangesNothing : Prop :=
  ∀ (i : Instr) (s t : State) (c : ErrCode) (info : Option Nat), exec i s = .next t →
    t.outcomes = s.outcomes ++ [.err c info] → c.tier = .usage ∨ c.tier = .encoding ∨ i ≠ .init →
    t = { s with outcomes := s.outcomes ++ [.err c none], pc := s.pc + 1 }

/-! ### Results: counter reads (spec/40_counter_read.md) -/

/-- LATCH: one register-clock pulse, no value, no field of the block written (R130, R131). -/
def Obligations.LatchCompletes : Prop :=
  ∀ (s : State) (d : Nat), s.Settled → s.CounterReady d →
    ∃ e, exec (.latch d) s = .next { s with
      env := e, hist := s.hist ++ [.drive (.rclk d) .H, .hold s.tHold, .drive (.rclk d) .L]
      outcomes := s.outcomes ++ [.ok .none], pc := s.pc + 1 }

/-- READL: the two gated byte reads of the half, upper byte first, and the value made of the bytes sampled; no field
of the block written, whatever the environment answers (R134, R135, R136). -/
def Obligations.ReadlCompletes : Prop :=
  ∀ (s : State) (d : Nat) (h : Half), s.Settled → s.CounterReady d → s.HalfEnabled d h → s.SelfTestOk d →
    ∃ (e : Env) (u l : Byte), exec (.readl d h) s = .next { s with
      env := e, hist := s.hist ++ halfEvents d h s.tHold u l
      outcomes := s.outcomes ++ [.ok (.reg (u ++ l))], pc := s.pc + 1 }

/-- READR: the latch pulse, then the READL sequence (R132, R137). -/
def Obligations.ReadrCompletes : Prop :=
  ∀ (s : State) (d : Nat) (h : Half), s.Settled → s.CounterReady d → s.HalfEnabled d h → s.SelfTestOk d →
    ∃ (e : Env) (u l : Byte), exec (.readr d h) s = .next { s with
      env := e, hist := s.hist ++ (latchEvents d s.tHold ++ halfEvents d h s.tHold u l)
      outcomes := s.outcomes ++ [.ok (.reg (u ++ l))], pc := s.pc + 1 }

/-- READ32 in Single32: a READR sequence for each half in READ32_ORDER, and B.U ++ B.L ++ A.U ++ A.L (R74, R138,
R139). -/
def Obligations.Read32Completes : Prop :=
  ∀ (s : State) (d : Nat), s.Settled → s.CounterReady d → (s.ctr d).cfg.dual16 = false → s.HalfEnabled d .B →
    s.SelfTestOk d →
    ∃ (e : Env) (uB lB uA lA : Byte), exec (.read32 d) s = .next { s with
      env := e
      hist := s.hist ++ (match s.readOrder with
        | .ba => regEvents d .B s.tHold uB lB ++ regEvents d .A s.tHold uA lA
        | .ab => regEvents d .A s.tHold uA lA ++ regEvents d .B s.tHold uB lB)
      outcomes := s.outcomes ++ [.ok (.word (uB ++ lB ++ uA ++ lA))], pc := s.pc + 1 }

/-- READ: as READ32 in Single32, with the half ignored, and as READR in Dual16 (R140). -/
def Obligations.ReadCompletes : Prop :=
  ∀ (s : State) (d : Nat) (h : Half), s.Settled → s.CounterReady d → s.SelfTestOk d →
    ((s.ctr d).cfg.dual16 = true → s.HalfEnabled d h →
      ∃ (e : Env) (u l : Byte), exec (.read d h) s = .next { s with
        env := e, hist := s.hist ++ regEvents d h s.tHold u l
        outcomes := s.outcomes ++ [.ok (.reg (u ++ l))], pc := s.pc + 1 })
    ∧ ((s.ctr d).cfg.dual16 = false → s.HalfEnabled d .B →
      ∃ (e : Env) (uB lB uA lA : Byte), exec (.read d h) s = .next { s with
        env := e
        hist := s.hist ++ (match s.readOrder with
          | .ba => regEvents d .B s.tHold uB lB ++ regEvents d .A s.tHold uA lA
          | .ab => regEvents d .A s.tHold uA lA ++ regEvents d .B s.tHold uB lB)
        outcomes := s.outcomes ++ [.ok (.word (uB ++ lB ++ uA ++ lA))], pc := s.pc + 1 })

/-! ### Results: counter control (spec/41_counter_control.md) -/

/-- CLEAR: the clear pulse, no value, no field of the block written (R160). -/
def Obligations.ClearCompletes : Prop :=
  ∀ (s : State) (d : Nat), s.Settled → s.CounterReady d →
    ∃ e, exec (.clear d) s = .next { s with
      env := e, hist := s.hist ++ [.drive (.clr d) .L, .hold s.tHold, .drive (.clr d) .H]
      outcomes := s.outcomes ++ [.ok .none], pc := s.pc + 1 }

/-- TOGB: CBEN flips, BEN becomes the inverse of its new level and is the result; nothing else is written (R162,
R163). -/
def Obligations.TogbCompletes : Prop :=
  ∀ (s : State) (d : Nat), s.CounterReady d → (s.ctr d).cfg.hasCben = true →
    ∃ (e : Env) (lv : Level), lv = (if (s.ctr d).cben = .L then .H else .L)
      ∧ exec (.togb d) s = .next { s with
        ctrs := s.ctrs.modify d (fun c => { c with cben := lv, ben := decide (lv = .L) })
        env := e, hist := s.hist ++ [.drive (.cben d) lv]
        outcomes := s.outcomes ++ [.ok (.bit (decide (lv = .L)))], pc := s.pc + 1 }

/-- Two TOGBs in a row restore every device (R162). -/
def Obligations.TwoTogbsRestore : Prop :=
  ∀ (s : State) (d : Nat), s.Settled → s.CounterReady d → (s.ctr d).cfg.hasCben = true →
    ∃ t u, exec (.togb d) s = .next t ∧ exec (.togb d) t = .next u ∧ t.ctrs ≠ s.ctrs ∧ u.ctrs = s.ctrs
      ∧ u.buses = s.buses

/-- OVF: one sample of the pin, passed through; nothing is written (R164, R165). -/
def Obligations.OvfCompletes : Prop :=
  ∀ (s : State) (d : Nat), s.CounterReady d → (s.ctr d).cfg.hasOvf = true →
    ∃ (e : Env) (v : Bool), exec (.ovf d) s = .next { s with
      env := e, hist := s.hist ++ [.sampleOVF d v], outcomes := s.outcomes ++ [.ok (.bit v)], pc := s.pc + 1 }

/-! ### Results: self-test (spec/42_selftest.md) -/

/-- TICK: one time read; each Ready device steps channel A, then B, and sets TICKED; the devices are taken in
ascending order (R182, R183, R189). -/
def Obligations.TickCompletes : Prop :=
  ∀ s : State, s.initDone = true →
    ∃ (e : Env) (t : Word), exec .tick s = .next { s with
      ctrs := s.ctrs.map (fun c => if c.life = .ready then
        { c with chA := c.chA.afterTick t, chB := c.chB.afterTick t, ticked := true } else c)
      env := e
      hist := s.hist ++ ([.now t] ++ (List.range s.ctrs.length).flatMap (fun d => tickDeviceEvents t d (s.ctr d)))
      outcomes := s.outcomes ++ [.ok .none], pc := s.pc + 1 }

/-- tickChannel(d, x, t), one channel's step within one TICK: channel x of device d toggles exactly when it runs and
(t - LAST) mod 2^32 has reached HALF. Then its level is inverted, TCLKx is driven to the new level, which is the
step's one event, and t becomes LAST; otherwise the step changes nothing (R182, R184). The last two clauses say the
same of what TickCompletes calls the channel's next value and its events. -/
def Obligations.ChannelTogglesWhenDue : Prop :=
  ∀ (t : Word) (d : Nat) (x : Half),
    (∀ s : State,
      let ch := (s.ctr d).chan x
      let lv : Level := if ch.lvl then .L else .H
      (ch.run = true ∧ ch.half.toNat ≤ (t.toNat + (2 ^ 32 - ch.last.toNat)) % 2 ^ 32 →
        ∃ e, s.tickChannel t d x = { s with
          ctrs := s.ctrs.modify d (fun c => c.modChan x (fun _ => { ch with lvl := !ch.lvl, pin := lv, last := t }))
          env := e, hist := s.hist ++ [.drive (.tclk d x) lv] })
      ∧ (¬ (ch.run = true ∧ ch.half.toNat ≤ (t.toNat + (2 ^ 32 - ch.last.toNat)) % 2 ^ 32) →
        s.tickChannel t d x = s))
    ∧ ∀ ch : Channel,
      (ch.run = true ∧ ch.half.toNat ≤ (t.toNat + (2 ^ 32 - ch.last.toNat)) % 2 ^ 32 →
        ch.afterTick t = { ch with lvl := !ch.lvl, pin := if ch.lvl then .L else .H, last := t }
          ∧ toggleEvents d x ch t = [.drive (.tclk d x) (if ch.lvl then .L else .H)])
      ∧ (¬ (ch.run = true ∧ ch.half.toNat ≤ (t.toNat + (2 ^ 32 - ch.last.toNat)) % 2 ^ 32) →
        ch.afterTick t = ch ∧ toggleEvents d x ch t = [])

/-- One TICK drives each self-test pin at most once (R185). -/
def Obligations.OneTogglePerTick : Prop :=
  ∀ (s t : State) (d : Nat) (x : Half), exec .tick s = .next t →
    ∃ evs, t.hist = s.hist ++ evs ∧ evs.countP (fun ev => ev == .drive (.tclk d x) .H || ev == .drive (.tclk d x) .L) ≤ 1

/-- halfPeriod(f) = (1000000 + f) div (2 f): 500000 / f rounded to the nearest integer, a tie upwards, and at most
500000 (R181). -/
def Obligations.HalfPeriodRoundsToNearest : Prop :=
  ∀ f : Word, f ≠ 0#32 →
    (halfPeriod f).toNat = (1000000 + f.toNat) / (2 * f.toNat)
      ∧ 2 * f.toNat * (halfPeriod f).toNat ≤ 1000000 + f.toNat
      ∧ 1000000 + f.toNat < 2 * f.toNat * ((halfPeriod f).toNat + 1) ∧ (halfPeriod f).toNat ≤ 500000

/-- Two consecutive toggles at real times T1 and T2 are at least HALF apart, across wraps of the 32-bit counter: LAST
is the time read of the channel's last toggle, and if a TICK that reads the time T2 drives TCLKx then T2 - T1 is at
least HALF, and T2 is the new LAST (the spec's own inference in R188, from R182 and R184). -/
def Obligations.TogglesAreHalfApart : Prop :=
  ∀ (s t : State) (d : Nat) (x : Half) (t1 t2 : Nat) (evs : List Event) (lv : Level),
    t1 ≤ t2 → ((s.ctr d).chan x).last = BitVec.ofNat 32 t1 →
    exec .tick s = .next t → t.hist = s.hist ++ (.now (BitVec.ofNat 32 t2) :: evs) → .drive (.tclk d x) lv ∈ evs →
    ((s.ctr d).chan x).half.toNat ≤ t2 - t1 ∧ ((t.ctr d).chan x).last = BitVec.ofNat 32 t2

/-- A running channel with half-period 0 toggles at every TICK (the spec's own inference in R190). -/
def Obligations.ZeroHalfTogglesAlways : Prop :=
  ∀ (s : State) (d : Nat) (x : Half), s.initDone = true → d < s.ctrs.length → (s.ctr d).life = .ready →
    ((s.ctr d).chan x).run = true → ((s.ctr d).chan x).half = 0#32 →
    ∃ t, exec .tick s = .next t ∧ ((t.ctr d).chan x).lvl = !((s.ctr d).chan x).lvl

/-! ### Results: delay lines (spec/43_delay_line.md) -/

/-- DLWR: DLCUR takes v, the 50-event serial write of v follows, v is the result; the bus is left with SCLK at L and
SDATA at bit 0 (R200 to R203). -/
def Obligations.DlwrCompletes : Prop :=
  ∀ (s : State) (b c : Nat) (v : Byte), s.LineReady b c →
    ∃ e, exec (.dlwr b c v) s = .next { s with
      buses := s.buses.modify b (SerialBus.afterWrite c v), env := e
      hist := s.hist ++ writeEvents b c s.tSer v, outcomes := s.outcomes ++ [.ok (.byte v)], pc := s.pc + 1 }

/-- DLINC: the same with v = (DLCUR + delta) mod 256 (R205). -/
def Obligations.DlincCompletes : Prop :=
  ∀ (s : State) (b c : Nat) (delta : Byte), s.LineReady b c →
    ∃ (e : Env) (v : Byte), v.toNat = ((s.line b c).cur.toNat + delta.toNat) % 256
      ∧ exec (.dlinc b c delta) s = .next { s with
        buses := s.buses.modify b (SerialBus.afterWrite c v), env := e
        hist := s.hist ++ writeEvents b c s.tSer v, outcomes := s.outcomes ++ [.ok (.byte v)], pc := s.pc + 1 }

/-- DLDEC: the same with v = (DLCUR - delta) mod 256, the non-negative remainder (R206). -/
def Obligations.DldecCompletes : Prop :=
  ∀ (s : State) (b c : Nat) (delta : Byte), s.LineReady b c →
    ∃ (e : Env) (v : Byte), (v.toNat : Int) = ((s.line b c).cur.toNat - delta.toNat : Int) % 256
      ∧ exec (.dldec b c delta) s = .next { s with
        buses := s.buses.modify b (SerialBus.afterWrite c v), env := e
        hist := s.hist ++ writeEvents b c s.tSer v, outcomes := s.outcomes ++ [.ok (.byte v)], pc := s.pc + 1 }

/-- DLGET: DLCUR is the result; no event, nothing written (R207). -/
def Obligations.DlgetCompletes : Prop :=
  ∀ (s : State) (b c : Nat), s.LineReady b c →
    exec (.dlget b c) s = .next { s with outcomes := s.outcomes ++ [.ok (.byte (s.line b c).cur)], pc := s.pc + 1 }

/-- DLCUR of a delay line is the value last written to it: it changes only in a write to that line, whose
result it then is, and a DLWR, DLINC or DLDEC of that line that answers ok(v) leaves DLCUR = v (R45, and the spec's own inference in R211). -/
def Obligations.DlcurIsLastWritten : Prop :=
  ∀ (i : Instr) (s t : State) (b c : Nat), exec i s = .next t →
    ((t.line b c).cur ≠ (s.line b c).cur →
        (∃ v, i = .dlwr b c v ∨ i = .dlinc b c v ∨ i = .dldec b c v)
          ∧ t.outcomes = s.outcomes ++ [.ok (.byte (t.line b c).cur)])
      ∧ ∀ (imm : Byte) (v : Value), (i = .dlwr b c imm ∨ i = .dlinc b c imm ∨ i = .dldec b c imm) →
        t.outcomes = s.outcomes ++ [.ok v] → v = .byte (t.line b c).cur

/-! ### Results: initialization (spec/44_lifecycle.md) -/

/-- INIT: one time read; each valid device at its idle levels, Ready and armed, each other device Halted with no pin
driven; every serial bus at its idle levels; INIT_DONE; the outcome (R230, R231, R234 to R237). -/
def Obligations.InitCompletes : Prop :=
  ∀ s : State, s.initDone = false →
    ∃ (e : Env) (t : Word) (r : Reply), exec .init s = .next { s with
        initDone := true, ctrs := s.ctrs.map (CounterDev.afterInit t), buses := s.buses.map SerialBus.afterInit
        env := e
        hist := s.hist ++ ([.now t]
          ++ (List.range s.ctrs.length).flatMap (fun d => initDeviceEvents d (s.ctr d).cfg)
          ++ (List.range s.buses.length).flatMap (fun b => initBusEvents b (s.bus b).lines.length))
        outcomes := s.outcomes ++ [r], pc := s.pc + 1 }
      ∧ ((∀ d, d < s.ctrs.length → (s.ctr d).cfg.valid = true) → r = .ok .none)
      ∧ ∀ d, d < s.ctrs.length → (s.ctr d).cfg.valid = false → (∀ d', d' < d → (s.ctr d').cfg.valid = true) →
          r = .err .config (some d)

/-- What the bits of CTRCFG say (R33), when a self-test channel is configured (R34), and when a configuration is
valid: exactly when every required pin is assigned and it is not Single32 with both OVF and CBEN (R37, R232). -/
def Obligations.ValidConfiguration : Prop :=
  ∀ p : CtrParams,
    ((p.dual16 = true ↔ p.cfg &&& 0x0001#16 ≠ 0#16)
      ∧ (p.hasGal = true ↔ p.cfg &&& 0x0002#16 ≠ 0#16) ∧ (p.hasGau = true ↔ p.cfg &&& 0x0004#16 ≠ 0#16)
      ∧ (p.hasGbl = true ↔ p.cfg &&& 0x0008#16 ≠ 0#16) ∧ (p.hasGbu = true ↔ p.cfg &&& 0x0010#16 ≠ 0#16)
      ∧ (p.hasRclk = true ↔ p.cfg &&& 0x0020#16 ≠ 0#16) ∧ (p.hasClr = true ↔ p.cfg &&& 0x0040#16 ≠ 0#16)
      ∧ (p.hasDb = true ↔ p.cfg &&& 0x0080#16 ≠ 0#16) ∧ (p.hasOvf = true ↔ p.cfg &&& 0x0100#16 ≠ 0#16)
      ∧ (p.hasCben = true ↔ p.cfg &&& 0x0200#16 ≠ 0#16) ∧ (p.hasTclk .A = true ↔ p.cfg &&& 0x0400#16 ≠ 0#16)
      ∧ (p.hasTclk .B = true ↔ p.cfg &&& 0x0800#16 ≠ 0#16))
    ∧ (p.configured .A = true ↔ p.cfg &&& 0x0400#16 ≠ 0#16 ∧ p.freqA ≠ 0#32)
    ∧ (p.configured .B = true ↔ p.cfg &&& 0x0800#16 ≠ 0#16 ∧ p.freqB ≠ 0#32)
    ∧ (p.freq .A = p.freqA ∧ p.freq .B = p.freqB)
    ∧ (p.valid = true ↔ p.cfg &&& 0x00FE#16 = 0x00FE#16 ∧ p.cfg &&& 0x0301#16 ≠ 0x0300#16)

/-! ### Frames and invariants -/

/-- LATCH, READL, READR, READ32, READ, CLEAR, TOGB and OVF: every serial bus and delay line, every other device,
INIT_DONE and the parameters are unchanged; of the addressed device LIFE, TICKED and both channels are unchanged, and
BEN too unless the command is TOGB (R38, R40, R41, R42). -/
def Obligations.CounterCommandFrame : Prop :=
  ∀ (i : Instr) (s t : State) (d : Nat), ctrIndex i = some d → exec i s = .next t →
    t.buses = s.buses ∧ t.initDone = s.initDone ∧ t.params = s.params
      ∧ (∀ d', d' ≠ d → t.ctr d' = s.ctr d')
      ∧ (t.ctr d).life = (s.ctr d).life ∧ (t.ctr d).ticked = (s.ctr d).ticked
      ∧ (t.ctr d).chA = (s.ctr d).chA ∧ (t.ctr d).chB = (s.ctr d).chB
      ∧ (i ≠ .togb d → (t.ctr d).ben = (s.ctr d).ben ∧ (t.ctr d).cben = (s.ctr d).cben)

/-- A delay-line command addressed to bus b leaves every counter device and every other bus unchanged, whatever any
device's state, drives only SCLK[b], SDATA[b] and the one LATCH[b][c], and is never refused where its line exists
once INIT_DONE is 1 (R209). -/
def Obligations.DelayCommandFrame : Prop :=
  ∀ (i : Instr) (s t : State) (b c : Nat), lineIndex i = some (b, c) → exec i s = .next t →
    (s.LineReady b c → ∃ v, t.outcomes = s.outcomes ++ [.ok (.byte v)])
      ∧ t.ctrs = s.ctrs ∧ t.initDone = s.initDone ∧ t.params = s.params
      ∧ (∀ b', b' ≠ b → t.bus b' = s.bus b') ∧ (∀ c', c' ≠ c → t.line b c' = s.line b c')
      ∧ ∃ evs, t.hist = s.hist ++ evs
        ∧ ∀ p lv, Event.drive p lv ∈ evs → p = .sclk b ∨ p = .sdata b ∨ p = .latch b c

/-- No command writes the configuration (R7, R32). -/
def Obligations.ParametersNeverWritten : Prop :=
  ∀ (i : Instr) (s t : State), exec i s = .next t → t.params = s.params

/-- INIT_DONE is 0 at reset and 1 once INIT completes, whatever INIT's outcome, and no other command writes it (R31). -/
def Obligations.InitDoneWrittenByInitOnly : Prop :=
  (∀ p : Params, (State.ofParams p).initDone = false)
    ∧ ∀ (i : Instr) (s t : State), exec i s = .next t → t.initDone = if i = .init then true else s.initDone

/-- Ready and Halted are final: no command leaves either (R39). -/
def Obligations.LifeIsFinal : Prop :=
  ∀ (i : Instr) (s t : State) (d : Nat), s.Settled → exec i s = .next t → (s.ctr d).life ≠ .uninit →
    (t.ctr d).life = (s.ctr d).life

/-- The time source is read by INIT and TICK only, once each, before any other event (R231, R261). -/
def Obligations.TimeReadByInitAndTickOnly : Prop :=
  ∀ (i : Instr) (s t : State) (n : Word), exec i s = .next t →
    ∃ evs, t.hist = s.hist ++ evs ∧ (Event.now n ∈ evs → (i = .init ∨ i = .tick) ∧ evs.head? = some (.now n)
      ∧ Event.now n ∉ evs.tail)

/-- The minimum duration of each completed command, as the sum of its holds (R297, and the spec's own inference in
R299). -/
def Obligations.MinimumDurations : Prop :=
  ∀ (i : Instr) (s t : State) (v : Value), exec i s = .next t → t.outcomes = s.outcomes ++ [.ok v] →
    ∃ evs, t.hist = s.hist ++ evs ∧ holdTotal evs =
      match i with
      | .init => 0
      | .latch _ => s.tHold
      | .readl _ _ => 2 * s.tHold
      | .readr _ _ => 3 * s.tHold
      | .read32 _ => 6 * s.tHold
      | .read d _ => if (s.ctr d).cfg.dual16 then 3 * s.tHold else 6 * s.tHold
      | .clear _ => s.tHold
      | .togb _ => 0
      | .ovf _ => 0
      | .tick => 0
      | .dlwr _ _ _ => 24 * s.tSer
      | .dlinc _ _ _ => 24 * s.tSer
      | .dldec _ _ _ => 24 * s.tSer
      | .dlget _ _ => 0

/-- The settled invariant holds after reset, for every parameter set. -/
def Obligations.SettledAtReset : Prop := ∀ p : Params, (State.ofParams p).Settled

/-- Every step keeps the settled invariant: pins at their idle levels or undriven between commands, no gate at L and
no latch at H, BEN the inverse of CBEN, LIFE in agreement with INIT_DONE and valid(d) (R40, R43, R53 c, R233). -/
def Obligations.SettledKeptByStep : Prop := ∀ s t : State, s.Settled → step s = .next t → t.Settled

/-- At every event of every command, at most one gate among the devices of one data bus is at L and at most one latch
of one serial bus is at H (R133, and the spec's own inference in R53 a and b). -/
def Obligations.BusExclusiveAtEveryEvent : Prop :=
  ∀ (i : Instr) (s t : State), s.Settled → exec i s = .next t →
    ∃ evs, t.hist = s.hist ++ evs
      ∧ ∀ n, Exclusive (fun d => (s.ctr d).cfg.dbus) (s.levelDuring (evs.take n))

/-! ### The attached devices

These assume the spec's environment model (spec/60_exceptions.md R268 to R274): each has the model of the device
attached as a premise. They use log entries 6 (what an edge is) and 8 (the draws of a clear), for every draw. -/

/-- LATCH copies both live counts, as they are at the rising edge, into both storage registers at once; counts that
come later do not touch them (R79, R80, R270). -/
def Obligations.LatchCopiesBothHalves : Prop :=
  ∀ (s : State) (d : Nat) (ic : CounterIC), s.Settled → s.CounterReady d → s.envNow.ic? d = some ic →
    ∃ t ic', exec (.latch d) s = .next t ∧ t.env.ic? d = some ic' ∧ ic'.storeA = ic.liveA ∧ ic'.storeB = ic.liveB

/-- READL returns the storage register of its half and leaves both storage registers, for every interleaving of
counts (R79, R80, R81, R271). -/
def Obligations.ReadlReturnsStorage : Prop :=
  ∀ (s : State) (d : Nat) (h : Half) (ic : CounterIC), s.Settled → s.CounterReady d → s.HalfEnabled d h →
    s.SelfTestOk d → busQuiet s.ctrs d = true → s.env.ic? d = some ic →
    ∃ t ic', exec (.readl d h) s = .next t
      ∧ t.outcomes = s.outcomes ++ [.ok (.reg (match h with | .A => ic.storeA | .B => ic.storeB))]
      ∧ t.env.ic? d = some ic' ∧ ic'.storeA = ic.storeA ∧ ic'.storeB = ic.storeB

/-- READR returns the live count of its half as it is at the pulse, whatever counts come later (R79, R137, R270). -/
def Obligations.ReadrReturnsLiveCount : Prop :=
  ∀ (s : State) (d : Nat) (h : Half) (ic : CounterIC), s.Settled → s.CounterReady d → s.HalfEnabled d h →
    s.SelfTestOk d → busQuiet s.ctrs d = true → s.envNow.ic? d = some ic →
    ∃ t, exec (.readr d h) s = .next t
      ∧ t.outcomes = s.outcomes ++ [.ok (.reg (match h with | .A => ic.liveA | .B => ic.liveB))]

/-- READ32 of a counter that does not count during the command returns (B << 16) | A, in either order (R138, R139). -/
def Obligations.Read32OfStillCounter : Prop :=
  ∀ (s : State) (d : Nat) (ic : CounterIC), s.Settled → s.CounterReady d → (s.ctr d).cfg.dual16 = false →
    s.HalfEnabled d .B → s.SelfTestOk d → busQuiet s.ctrs d = true → s.env.ic? d = some ic → s.QuietFor 22 →
    ∃ t, exec (.read32 d) s = .next t ∧ t.outcomes = s.outcomes ++ [.ok (.word (ic.liveB ++ ic.liveA))]

/-- A READR after a CLEAR returns 0 if no count comes between the end of the clear and the latch, whatever counts come
before and during the clear (R160, R272, R274). -/
def Obligations.ReadAfterClearIsZero : Prop :=
  ∀ (s : State) (d : Nat) (h : Half) (ic : CounterIC), s.Settled → s.CounterReady d → s.HalfEnabled d h →
    s.SelfTestOk d → busQuiet s.ctrs d = true → s.env.ic? d = some ic → s.env.movesBefore (s.hist.length + 3) = [] →
    ∃ t u, exec (.clear d) s = .next t ∧ exec (.readr d h) t = .next u
      ∧ u.outcomes = s.outcomes ++ [.ok .none, .ok (.reg 0#16)]

/-- A DLWR sets the addressed chip's output to v, or to v's bit reversal if that chip clocks LSB-first, and leaves
every other chip (R208, R273, R291). -/
def Obligations.WriteReachesOneChip : Prop :=
  ∀ (s : State) (b c : Nat) (v : Byte) (chip : DelayChip), s.Settled → s.LineReady b c → s.env.chip? b c = some chip →
    ∃ t chip', exec (.dlwr b c v) s = .next t ∧ t.env.chip? b c = some chip'
      ∧ chip'.out = some (if chip.lsbFirst then v.reverse else v)
      ∧ ∀ b' c', (b', c') ≠ (b, c) → t.env.chip? b' c' = s.env.chip? b' c'
end

