-- ==== Sys2Proof/Laws/State.lean ====
section
/-! SUPPORT. What each primitive does to each field of the state: one lemma per field and update. -/

namespace Sys2Proof.Machine

/-! ### drive -/

@[simp] theorem State.drive_initDone (s : State) (p : Pin) (lv : Level) : (s.drive p lv).initDone = s.initDone := rfl
@[simp] theorem State.drive_readOrder (s : State) (p : Pin) (lv : Level) : (s.drive p lv).readOrder = s.readOrder := rfl
@[simp] theorem State.drive_tHold (s : State) (p : Pin) (lv : Level) : (s.drive p lv).tHold = s.tHold := rfl
@[simp] theorem State.drive_tSer (s : State) (p : Pin) (lv : Level) : (s.drive p lv).tSer = s.tSer := rfl
@[simp] theorem State.drive_ctrs (s : State) (p : Pin) (lv : Level) : (s.drive p lv).ctrs = setCtrPin s.ctrs p lv := rfl
@[simp] theorem State.drive_buses (s : State) (p : Pin) (lv : Level) : (s.drive p lv).buses = setBusPin s.buses p lv := rfl
@[simp] theorem State.drive_env (s : State) (p : Pin) (lv : Level) : (s.drive p lv).env = s.envNow.onDrive (setCtrPin s.ctrs p lv) (setBusPin s.buses p lv) p (s.level p) lv s.drawNow := rfl
@[simp] theorem State.drive_hist (s : State) (p : Pin) (lv : Level) : (s.drive p lv).hist = s.hist ++ [.drive p lv] :=
    rfl
@[simp] theorem State.drive_outcomes (s : State) (p : Pin) (lv : Level) : (s.drive p lv).outcomes = s.outcomes := rfl
@[simp] theorem State.drive_program (s : State) (p : Pin) (lv : Level) : (s.drive p lv).program = s.program := rfl
@[simp] theorem State.drive_pc (s : State) (p : Pin) (lv : Level) : (s.drive p lv).pc = s.pc := rfl

/-! ### hold -/

@[simp] theorem State.hold_initDone (s : State) (n : Nat) : (s.hold n).initDone = s.initDone := rfl
@[simp] theorem State.hold_readOrder (s : State) (n : Nat) : (s.hold n).readOrder = s.readOrder := rfl
@[simp] theorem State.hold_tHold (s : State) (n : Nat) : (s.hold n).tHold = s.tHold := rfl
@[simp] theorem State.hold_tSer (s : State) (n : Nat) : (s.hold n).tSer = s.tSer := rfl
@[simp] theorem State.hold_ctrs (s : State) (n : Nat) : (s.hold n).ctrs = s.ctrs := rfl
@[simp] theorem State.hold_buses (s : State) (n : Nat) : (s.hold n).buses = s.buses := rfl
@[simp] theorem State.hold_env (s : State) (n : Nat) : (s.hold n).env = s.envNow.onHold n := rfl
@[simp] theorem State.hold_hist (s : State) (n : Nat) : (s.hold n).hist = s.hist ++ [.hold n] := rfl
@[simp] theorem State.hold_outcomes (s : State) (n : Nat) : (s.hold n).outcomes = s.outcomes := rfl
@[simp] theorem State.hold_program (s : State) (n : Nat) : (s.hold n).program = s.program := rfl
@[simp] theorem State.hold_pc (s : State) (n : Nat) : (s.hold n).pc = s.pc := rfl

/-! ### sampleDB -/

@[simp] theorem State.sampleDB_initDone (s : State) (d : Nat) : (s.sampleDB d).initDone = s.initDone := rfl
@[simp] theorem State.sampleDB_readOrder (s : State) (d : Nat) : (s.sampleDB d).readOrder = s.readOrder := rfl
@[simp] theorem State.sampleDB_tHold (s : State) (d : Nat) : (s.sampleDB d).tHold = s.tHold := rfl
@[simp] theorem State.sampleDB_tSer (s : State) (d : Nat) : (s.sampleDB d).tSer = s.tSer := rfl
@[simp] theorem State.sampleDB_ctrs (s : State) (d : Nat) : (s.sampleDB d).ctrs = s.ctrs := rfl
@[simp] theorem State.sampleDB_buses (s : State) (d : Nat) : (s.sampleDB d).buses = s.buses := rfl
@[simp] theorem State.sampleDB_env (s : State) (d : Nat) : (s.sampleDB d).env = s.envNow := rfl
@[simp] theorem State.sampleDB_hist (s : State) (d : Nat) : (s.sampleDB d).hist = s.hist ++ [.sampleDB d (s.busSample d)] := rfl
@[simp] theorem State.sampleDB_outcomes (s : State) (d : Nat) : (s.sampleDB d).outcomes = s.outcomes := rfl
@[simp] theorem State.sampleDB_program (s : State) (d : Nat) : (s.sampleDB d).program = s.program := rfl
@[simp] theorem State.sampleDB_pc (s : State) (d : Nat) : (s.sampleDB d).pc = s.pc := rfl

/-! ### sampleOVF -/

@[simp] theorem State.sampleOVF_initDone (s : State) (d : Nat) : (s.sampleOVF d).initDone = s.initDone := rfl
@[simp] theorem State.sampleOVF_readOrder (s : State) (d : Nat) : (s.sampleOVF d).readOrder = s.readOrder := rfl
@[simp] theorem State.sampleOVF_tHold (s : State) (d : Nat) : (s.sampleOVF d).tHold = s.tHold := rfl
@[simp] theorem State.sampleOVF_tSer (s : State) (d : Nat) : (s.sampleOVF d).tSer = s.tSer := rfl
@[simp] theorem State.sampleOVF_ctrs (s : State) (d : Nat) : (s.sampleOVF d).ctrs = s.ctrs := rfl
@[simp] theorem State.sampleOVF_buses (s : State) (d : Nat) : (s.sampleOVF d).buses = s.buses := rfl
@[simp] theorem State.sampleOVF_env (s : State) (d : Nat) : (s.sampleOVF d).env = s.envNow := rfl
@[simp] theorem State.sampleOVF_hist (s : State) (d : Nat) : (s.sampleOVF d).hist = s.hist ++ [.sampleOVF d s.ovfSample] := rfl
@[simp] theorem State.sampleOVF_outcomes (s : State) (d : Nat) : (s.sampleOVF d).outcomes = s.outcomes := rfl
@[simp] theorem State.sampleOVF_program (s : State) (d : Nat) : (s.sampleOVF d).program = s.program := rfl
@[simp] theorem State.sampleOVF_pc (s : State) (d : Nat) : (s.sampleOVF d).pc = s.pc := rfl

/-! ### readTime -/

@[simp] theorem State.readTime_initDone (s : State) : (s.readTime).initDone = s.initDone := rfl
@[simp] theorem State.readTime_readOrder (s : State) : (s.readTime).readOrder = s.readOrder := rfl
@[simp] theorem State.readTime_tHold (s : State) : (s.readTime).tHold = s.tHold := rfl
@[simp] theorem State.readTime_tSer (s : State) : (s.readTime).tSer = s.tSer := rfl
@[simp] theorem State.readTime_ctrs (s : State) : (s.readTime).ctrs = s.ctrs := rfl
@[simp] theorem State.readTime_buses (s : State) : (s.readTime).buses = s.buses := rfl
@[simp] theorem State.readTime_env (s : State) : (s.readTime).env = s.envNow := rfl
@[simp] theorem State.readTime_hist (s : State) : (s.readTime).hist = s.hist ++ [.now s.timeNow] := rfl
@[simp] theorem State.readTime_outcomes (s : State) : (s.readTime).outcomes = s.outcomes := rfl
@[simp] theorem State.readTime_program (s : State) : (s.readTime).program = s.program := rfl
@[simp] theorem State.readTime_pc (s : State) : (s.readTime).pc = s.pc := rfl

/-! ### modCtr -/

@[simp] theorem State.modCtr_initDone (s : State) (d : Nat) (f : CounterDev →
    CounterDev) : (s.modCtr d f).initDone = s.initDone := rfl
@[simp] theorem State.modCtr_readOrder (s : State) (d : Nat) (f : CounterDev →
    CounterDev) : (s.modCtr d f).readOrder = s.readOrder := rfl
@[simp] theorem State.modCtr_tHold (s : State) (d : Nat) (f : CounterDev →
    CounterDev) : (s.modCtr d f).tHold = s.tHold := rfl
@[simp] theorem State.modCtr_tSer (s : State) (d : Nat) (f : CounterDev →
    CounterDev) : (s.modCtr d f).tSer = s.tSer := rfl
@[simp] theorem State.modCtr_ctrs (s : State) (d : Nat) (f : CounterDev →
    CounterDev) : (s.modCtr d f).ctrs = s.ctrs.modify d f := rfl
@[simp] theorem State.modCtr_buses (s : State) (d : Nat) (f : CounterDev →
    CounterDev) : (s.modCtr d f).buses = s.buses := rfl
@[simp] theorem State.modCtr_env (s : State) (d : Nat) (f : CounterDev → CounterDev) : (s.modCtr d f).env = s.env := rfl
@[simp] theorem State.modCtr_hist (s : State) (d : Nat) (f : CounterDev →
    CounterDev) : (s.modCtr d f).hist = s.hist := rfl
@[simp] theorem State.modCtr_outcomes (s : State) (d : Nat) (f : CounterDev →
    CounterDev) : (s.modCtr d f).outcomes = s.outcomes := rfl
@[simp] theorem State.modCtr_program (s : State) (d : Nat) (f : CounterDev →
    CounterDev) : (s.modCtr d f).program = s.program := rfl
@[simp] theorem State.modCtr_pc (s : State) (d : Nat) (f : CounterDev → CounterDev) : (s.modCtr d f).pc = s.pc := rfl

/-! ### modBus -/

@[simp] theorem State.modBus_initDone (s : State) (b : Nat) (f : SerialBus →
    SerialBus) : (s.modBus b f).initDone = s.initDone := rfl
@[simp] theorem State.modBus_readOrder (s : State) (b : Nat) (f : SerialBus →
    SerialBus) : (s.modBus b f).readOrder = s.readOrder := rfl
@[simp] theorem State.modBus_tHold (s : State) (b : Nat) (f : SerialBus →
    SerialBus) : (s.modBus b f).tHold = s.tHold := rfl
@[simp] theorem State.modBus_tSer (s : State) (b : Nat) (f : SerialBus → SerialBus) : (s.modBus b f).tSer = s.tSer :=
    rfl
@[simp] theorem State.modBus_ctrs (s : State) (b : Nat) (f : SerialBus → SerialBus) : (s.modBus b f).ctrs = s.ctrs :=
    rfl
@[simp] theorem State.modBus_buses (s : State) (b : Nat) (f : SerialBus →
    SerialBus) : (s.modBus b f).buses = s.buses.modify b f := rfl
@[simp] theorem State.modBus_env (s : State) (b : Nat) (f : SerialBus → SerialBus) : (s.modBus b f).env = s.env := rfl
@[simp] theorem State.modBus_hist (s : State) (b : Nat) (f : SerialBus → SerialBus) : (s.modBus b f).hist = s.hist :=
    rfl
@[simp] theorem State.modBus_outcomes (s : State) (b : Nat) (f : SerialBus →
    SerialBus) : (s.modBus b f).outcomes = s.outcomes := rfl
@[simp] theorem State.modBus_program (s : State) (b : Nat) (f : SerialBus →
    SerialBus) : (s.modBus b f).program = s.program := rfl
@[simp] theorem State.modBus_pc (s : State) (b : Nat) (f : SerialBus → SerialBus) : (s.modBus b f).pc = s.pc := rfl

/-! ### setInitDone -/

@[simp] theorem State.setInitDone_initDone (s : State) : (s.setInitDone).initDone = true := rfl
@[simp] theorem State.setInitDone_readOrder (s : State) : (s.setInitDone).readOrder = s.readOrder := rfl
@[simp] theorem State.setInitDone_tHold (s : State) : (s.setInitDone).tHold = s.tHold := rfl
@[simp] theorem State.setInitDone_tSer (s : State) : (s.setInitDone).tSer = s.tSer := rfl
@[simp] theorem State.setInitDone_ctrs (s : State) : (s.setInitDone).ctrs = s.ctrs := rfl
@[simp] theorem State.setInitDone_buses (s : State) : (s.setInitDone).buses = s.buses := rfl
@[simp] theorem State.setInitDone_env (s : State) : (s.setInitDone).env = s.env := rfl
@[simp] theorem State.setInitDone_hist (s : State) : (s.setInitDone).hist = s.hist := rfl
@[simp] theorem State.setInitDone_outcomes (s : State) : (s.setInitDone).outcomes = s.outcomes := rfl
@[simp] theorem State.setInitDone_program (s : State) : (s.setInitDone).program = s.program := rfl
@[simp] theorem State.setInitDone_pc (s : State) : (s.setInitDone).pc = s.pc := rfl

/-! ### answer -/

@[simp] theorem State.answer_initDone (s : State) (r : Reply) : (s.answer r).initDone = s.initDone := rfl
@[simp] theorem State.answer_readOrder (s : State) (r : Reply) : (s.answer r).readOrder = s.readOrder := rfl
@[simp] theorem State.answer_tHold (s : State) (r : Reply) : (s.answer r).tHold = s.tHold := rfl
@[simp] theorem State.answer_tSer (s : State) (r : Reply) : (s.answer r).tSer = s.tSer := rfl
@[simp] theorem State.answer_ctrs (s : State) (r : Reply) : (s.answer r).ctrs = s.ctrs := rfl
@[simp] theorem State.answer_buses (s : State) (r : Reply) : (s.answer r).buses = s.buses := rfl
@[simp] theorem State.answer_env (s : State) (r : Reply) : (s.answer r).env = s.env := rfl
@[simp] theorem State.answer_hist (s : State) (r : Reply) : (s.answer r).hist = s.hist := rfl
@[simp] theorem State.answer_outcomes (s : State) (r : Reply) : (s.answer r).outcomes = s.outcomes ++ [r] := rfl
@[simp] theorem State.answer_program (s : State) (r : Reply) : (s.answer r).program = s.program := rfl
@[simp] theorem State.answer_pc (s : State) (r : Reply) : (s.answer r).pc = s.pc + 1 := rfl

/-! ### ret -/

@[simp] theorem State.ret_initDone (s : State) (v : Value) : (s.ret v).initDone = s.initDone := rfl
@[simp] theorem State.ret_readOrder (s : State) (v : Value) : (s.ret v).readOrder = s.readOrder := rfl
@[simp] theorem State.ret_tHold (s : State) (v : Value) : (s.ret v).tHold = s.tHold := rfl
@[simp] theorem State.ret_tSer (s : State) (v : Value) : (s.ret v).tSer = s.tSer := rfl
@[simp] theorem State.ret_ctrs (s : State) (v : Value) : (s.ret v).ctrs = s.ctrs := rfl
@[simp] theorem State.ret_buses (s : State) (v : Value) : (s.ret v).buses = s.buses := rfl
@[simp] theorem State.ret_env (s : State) (v : Value) : (s.ret v).env = s.env := rfl
@[simp] theorem State.ret_hist (s : State) (v : Value) : (s.ret v).hist = s.hist := rfl
@[simp] theorem State.ret_outcomes (s : State) (v : Value) : (s.ret v).outcomes = s.outcomes ++ [.ok v] := rfl
@[simp] theorem State.ret_program (s : State) (v : Value) : (s.ret v).program = s.program := rfl
@[simp] theorem State.ret_pc (s : State) (v : Value) : (s.ret v).pc = s.pc + 1 := rfl

/-! ### raise -/

@[simp] theorem State.raise_initDone (s : State) (c : ErrCode) : (s.raise c).initDone = s.initDone := rfl
@[simp] theorem State.raise_readOrder (s : State) (c : ErrCode) : (s.raise c).readOrder = s.readOrder := rfl
@[simp] theorem State.raise_tHold (s : State) (c : ErrCode) : (s.raise c).tHold = s.tHold := rfl
@[simp] theorem State.raise_tSer (s : State) (c : ErrCode) : (s.raise c).tSer = s.tSer := rfl
@[simp] theorem State.raise_ctrs (s : State) (c : ErrCode) : (s.raise c).ctrs = s.ctrs := rfl
@[simp] theorem State.raise_buses (s : State) (c : ErrCode) : (s.raise c).buses = s.buses := rfl
@[simp] theorem State.raise_env (s : State) (c : ErrCode) : (s.raise c).env = s.env := rfl
@[simp] theorem State.raise_hist (s : State) (c : ErrCode) : (s.raise c).hist = s.hist := rfl
@[simp] theorem State.raise_outcomes (s : State) (c : ErrCode) : (s.raise c).outcomes = s.outcomes ++ [.err c none] :=
    rfl
@[simp] theorem State.raise_program (s : State) (c : ErrCode) : (s.raise c).program = s.program := rfl
@[simp] theorem State.raise_pc (s : State) (c : ErrCode) : (s.raise c).pc = s.pc + 1 := rfl

end Sys2Proof.Machine
end

