-- ==== Sys2Proof/Laws/Ops.lean ====
section
/-! SUPPORT. Looking up after a change, pin levels after a drive, and what every primitive keeps. -/

namespace Sys2Proof.Machine

/-! ### Lists changed at one index -/

theorem getD_modify {α : Type} (l : List α) (i j : Nat) (f : α → α) (x : α) :
    (l.modify i f).getD j x = if i = j ∧ j < l.length then f (l.getD j x) else l.getD j x := by
  simp only [List.getD_eq_getElem?_getD, List.getElem?_modify]
  by_cases hj : j < l.length
  · by_cases hi : i = j <;> simp [hj, hi]
  · simp [hj]

theorem getD_modify_self {α : Type} (l : List α) (i : Nat) (f : α → α) (x : α) (h : i < l.length) :
    (l.modify i f).getD i x = f (l.getD i x) := by simp [h]

theorem getD_modify_ne {α : Type} (l : List α) (i j : Nat) (f : α → α) (x : α) (h : i ≠ j) :
    (l.modify i f).getD j x = l.getD j x := by simp [h]

theorem modify_modify {α : Type} (l : List α) (i : Nat) (f g : α → α) :
    (l.modify i f).modify i g = l.modify i (fun x => g (f x)) := by
  rw [List.modify_modify_eq]; rfl

theorem modify_congr_at {α : Type} (l : List α) (i : Nat) (f g : α → α) (x : α)
    (h : i < l.length → f (l.getD i x) = g (l.getD i x)) : l.modify i f = l.modify i g := by
  apply List.ext_getElem?
  intro j
  simp only [List.getElem?_modify]
  by_cases hj : j < l.length
  · by_cases hi : i = j
    · subst hi
      have := h hj
      simp only [List.getD_eq_getElem?_getD, List.getElem?_eq_getElem hj, Option.getD_some] at this
      simp [hj, this]
    · simp [hi]
  · simp [hj]

theorem modify_id_at {α : Type} (l : List α) (i : Nat) (f : α → α) (x : α)
    (h : i < l.length → f (l.getD i x) = l.getD i x) : l.modify i f = l := by
  rw [modify_congr_at l i f id x (by simpa using h)]
  exact List.modify_id i l

theorem getD_mem {α : Type} (l : List α) (i : Nat) (x : α) (h : i < l.length) : l.getD i x ∈ l := by
  simp [List.getD_eq_getElem?_getD, h]

/-- A property of all elements survives a change at one index that keeps it there. -/
theorem forall_mem_modify {α : Type} {P : α → Prop} (l : List α) (i : Nat) (f : α → α) (x : α)
    (hall : ∀ a ∈ l, P a) (h : i < l.length → P (f (l.getD i x))) : ∀ a ∈ l.modify i f, P a := by
  intro a ha
  obtain ⟨j, hj, rfl⟩ := List.mem_iff_getElem.mp ha
  have hj' : j < l.length := by simpa using hj
  by_cases hi : i = j
  · subst hi
    have := h hj'
    simp only [List.getD_eq_getElem?_getD, List.getElem?_eq_getElem hj', Option.getD_some] at this
    simpa [List.getElem_modify] using this
  · simpa [List.getElem_modify, hi] using hall _ (List.getElem_mem hj')

/-! ### Channels, gates and lines -/

@[simp] theorem Gates.get_set (g : Gates) (h h' : Half) (k k' : BytePart) (lv : Level) :
    (g.set h k lv).get h' k' = if h = h' ∧ k = k' then lv else g.get h' k' := by
  cases h <;> cases k <;> cases h' <;> cases k' <;> rfl

@[simp] theorem Gates.set_set (g : Gates) (h : Half) (k : BytePart) (lv lv' : Level) :
    (g.set h k lv).set h k lv' = g.set h k lv' := by cases h <;> cases k <;> rfl

@[simp] theorem CounterDev.chan_modChan (c : CounterDev) (x y : Half) (f : Channel → Channel) :
    (c.modChan x f).chan y = if x = y then f (c.chan x) else c.chan y := by cases x <;> cases y <;> rfl

@[simp] theorem CounterDev.modChan_cfg (c : CounterDev) (x : Half) (f : Channel → Channel) :
    (c.modChan x f).cfg = c.cfg := by cases x <;> rfl
@[simp] theorem CounterDev.modChan_life (c : CounterDev) (x : Half) (f : Channel → Channel) :
    (c.modChan x f).life = c.life := by cases x <;> rfl
@[simp] theorem CounterDev.modChan_gates (c : CounterDev) (x : Half) (f : Channel → Channel) :
    (c.modChan x f).gates = c.gates := by cases x <;> rfl
@[simp] theorem CounterDev.modChan_rclk (c : CounterDev) (x : Half) (f : Channel → Channel) :
    (c.modChan x f).rclk = c.rclk := by cases x <;> rfl
@[simp] theorem CounterDev.modChan_clr (c : CounterDev) (x : Half) (f : Channel → Channel) :
    (c.modChan x f).clr = c.clr := by cases x <;> rfl
@[simp] theorem CounterDev.modChan_cben (c : CounterDev) (x : Half) (f : Channel → Channel) :
    (c.modChan x f).cben = c.cben := by cases x <;> rfl

/-! ### Lengths -/

@[simp] theorem length_setCtrPin (ctrs : List CounterDev) (p : Pin) (lv : Level) :
    (setCtrPin ctrs p lv).length = ctrs.length := by cases p <;> simp [setCtrPin]

@[simp] theorem length_setBusPin (buses : List SerialBus) (p : Pin) (lv : Level) :
    (setBusPin buses p lv).length = buses.length := by cases p <;> simp [setBusPin]

/-! ### What the pin operations leave alone -/

theorem setCtrPin_cfg (ctrs : List CounterDev) (p : Pin) (lv : Level) :
    (setCtrPin ctrs p lv).map (fun c => c.cfg) = ctrs.map (fun c => c.cfg) := by
  cases p <;> simp only [setCtrPin] <;> apply List.ext_getElem? <;> intro j <;>
    simp only [List.getElem?_map, List.getElem?_modify] <;> cases ctrs[j]? <;> simp <;> split <;> simp

theorem setBusPin_lines (buses : List SerialBus) (p : Pin) (lv : Level) :
    (setBusPin buses p lv).map (fun b => b.lines.length) = buses.map (fun b => b.lines.length) := by
  cases p <;> simp only [setBusPin] <;> apply List.ext_getElem? <;> intro j <;>
    simp only [List.getElem?_map, List.getElem?_modify] <;> cases buses[j]? <;> simp <;> split <;>
    simp [SerialBus.modLine]

/-! ### What every event keeps: everything but the devices, the environment and the history -/

/-- t differs from s in the devices, the environment and the history only. -/
structure Keeps (s t : State) : Prop where
  initDone : t.initDone = s.initDone
  readOrder : t.readOrder = s.readOrder
  tHold : t.tHold = s.tHold
  tSer : t.tSer = s.tSer
  outcomes : t.outcomes = s.outcomes
  program : t.program = s.program
  pc : t.pc = s.pc

theorem Keeps.refl (s : State) : Keeps s s := ⟨rfl, rfl, rfl, rfl, rfl, rfl, rfl⟩

theorem Keeps.trans {s t u : State} (h : Keeps s t) (g : Keeps t u) : Keeps s u :=
  ⟨g.initDone.trans h.initDone, g.readOrder.trans h.readOrder, g.tHold.trans h.tHold, g.tSer.trans h.tSer,
    g.outcomes.trans h.outcomes, g.program.trans h.program, g.pc.trans h.pc⟩

theorem keeps_drive (s : State) (p : Pin) (lv : Level) : Keeps s (s.drive p lv) := ⟨rfl, rfl, rfl, rfl, rfl, rfl, rfl⟩
theorem keeps_hold (s : State) (n : Nat) : Keeps s (s.hold n) := ⟨rfl, rfl, rfl, rfl, rfl, rfl, rfl⟩
theorem keeps_sampleDB (s : State) (d : Nat) : Keeps s (s.sampleDB d) := ⟨rfl, rfl, rfl, rfl, rfl, rfl, rfl⟩
theorem keeps_sampleOVF (s : State) (d : Nat) : Keeps s (s.sampleOVF d) := ⟨rfl, rfl, rfl, rfl, rfl, rfl, rfl⟩
theorem keeps_readTime (s : State) : Keeps s s.readTime := ⟨rfl, rfl, rfl, rfl, rfl, rfl, rfl⟩
theorem keeps_modCtr (s : State) (d : Nat) (f : CounterDev → CounterDev) : Keeps s (s.modCtr d f) :=
  ⟨rfl, rfl, rfl, rfl, rfl, rfl, rfl⟩
theorem keeps_modBus (s : State) (b : Nat) (f : SerialBus → SerialBus) : Keeps s (s.modBus b f) :=
  ⟨rfl, rfl, rfl, rfl, rfl, rfl, rfl⟩

theorem keeps_foldl {α : Type} (f : State → α → State) (h : ∀ s a, Keeps s (f s a)) (l : List α) (s : State) :
    Keeps s (l.foldl f s) := by
  induction l generalizing s with
  | nil => exact Keeps.refl s
  | cons a l ih => exact (h s a).trans (ih _)

/-- A state that keeps everything but the devices, the environment and the history is s with those replaced. -/
theorem Keeps.eq {s t : State} (h : Keeps s t) :
    t = { s with ctrs := t.ctrs, buses := t.buses, env := t.env, hist := t.hist } := by
  cases t; cases s
  obtain ⟨h1, h2, h3, h4, h5, h6, h7⟩ := h
  simp_all

end Sys2Proof.Machine
end

