-- ==== Sys2Proof/Laws/Commands.lean ====
section
/-! SUPPORT. One spec lemma per shared operation of the commands: which devices, which history, what else. -/

namespace Sys2Proof.Machine

/-! ### The checks -/

/-- The checks pass, so the command runs its pseudocode. -/
theorem command_run {s : State} {cs : List (Option ErrCode)} {body : State → State} (h : firstFailed cs = none) :
    s.command cs body = .next (body s) := by simp [State.command, h]

/-- The first failed check decides, and nothing else happens. -/
theorem command_raise {s : State} {cs : List (Option ErrCode)} {body : State → State} {c : ErrCode}
    (h : firstFailed cs = some c) : s.command cs body = .next (s.raise c) := by simp [State.command, h]

/-- Everything a command can do. -/
theorem command_cases (s : State) (cs : List (Option ErrCode)) (body : State → State) :
    (firstFailed cs = none ∧ s.command cs body = .next (body s)) ∨
      ∃ c, firstFailed cs = some c ∧ s.command cs body = .next (s.raise c) := by
  cases h : firstFailed cs with
  | none => exact .inl ⟨rfl, command_run h⟩
  | some c => exact .inr ⟨c, rfl, command_raise h⟩

/-- A command that raises only hands the error to the host. -/
theorem raise_eq (s : State) (c : ErrCode) : s.raise c = s.onlyAnswered (.err c none) := rfl

theorem firstFailed_eq_none {cs : List (Option ErrCode)} : firstFailed cs = none ↔ ∀ c ∈ cs, c = none := by
  induction cs with
  | nil => simp [firstFailed]
  | cons c cs ih => cases c <;> simp [firstFailed, ih]

theorem checksCounter_pass {s : State} {d : Nat} (h : s.CounterReady d) :
    s.checkInit = none ∧ s.checkCtr d = none ∧ s.checkHalted d = none := by
  obtain ⟨h1, h2, h3⟩ := h
  simp [State.checkInit, State.checkCtr, State.checkHalted, h1, h2, h3]

theorem checkHalf_pass {s : State} {d : Nat} {h : Half} (hb : s.HalfEnabled d h) : s.checkHalf d h = none := by
  cases h
  · rfl
  · simp [State.checkHalf, State.checkBEnabled, hb rfl]

theorem checkSelfTest_pass {s : State} {d : Nat} (h : s.SelfTestOk d) : s.checkSelfTest d = none := by
  unfold State.SelfTestOk at h
  unfold State.checkSelfTest
  cases ha : (s.ctr d).chA.run <;> cases hb : (s.ctr d).chB.run <;> simp_all

theorem checksLine_pass {s : State} {b c : Nat} (h : s.LineReady b c) : firstFailed (s.checksLine b c) = none := by
  obtain ⟨h1, h2, h3⟩ := h
  simp [State.checksLine, State.checkInit, State.checkLine, firstFailed, h1, h2, h3]

/-! ### pulseLatch, MemRead, readLatchedHalf, readRegister (R130, R134, R135, R137) -/

theorem keeps_pulseLatch (s : State) (d : Nat) : Keeps s (s.pulseLatch d) :=
  ((keeps_drive _ _ _).trans (keeps_hold _ _)).trans (keeps_drive _ _ _)

@[simp] theorem pulseLatch_ctrs (s : State) (d : Nat) :
    (s.pulseLatch d).ctrs = s.ctrs.modify d (fun c => { c with rclk := .L }) := by
  simp [State.pulseLatch, setCtrPin, modify_modify]

@[simp] theorem pulseLatch_buses (s : State) (d : Nat) : (s.pulseLatch d).buses = s.buses := by
  simp [State.pulseLatch, setBusPin]

@[simp] theorem pulseLatch_hist (s : State) (d : Nat) :
    (s.pulseLatch d).hist = s.hist ++ latchEvents d s.tHold := by
  simp [State.pulseLatch, latchEvents]

theorem keeps_memRead (s : State) (d : Nat) (h : Half) (k : BytePart) : Keeps s (s.memRead d h k) :=
  (((keeps_drive _ _ _).trans (keeps_hold _ _)).trans (keeps_sampleDB _ _)).trans (keeps_drive _ _ _)

@[simp] theorem memRead_ctrs (s : State) (d : Nat) (h : Half) (k : BytePart) :
    (s.memRead d h k).ctrs = s.ctrs.modify d (fun c => { c with gates := c.gates.set h k .H }) := by
  simp [State.memRead, State.gateOpen, setCtrPin, modify_modify]

@[simp] theorem memRead_buses (s : State) (d : Nat) (h : Half) (k : BytePart) :
    (s.memRead d h k).buses = s.buses := by
  simp [State.memRead, State.gateOpen, setBusPin]

@[simp] theorem memRead_hist (s : State) (d : Nat) (h : Half) (k : BytePart) :
    (s.memRead d h k).hist = s.hist ++ byteEvents d h k s.tHold (s.memReadByte d h k) := by
  simp [State.memRead, State.gateOpen, State.memReadByte, byteEvents]

theorem keeps_readHalf (s : State) (d : Nat) (h : Half) : Keeps s (s.readHalf d h) :=
  (keeps_memRead _ _ _ _).trans (keeps_memRead _ _ _ _)

/-- Both gates of half h of the device are released. -/
def CounterDev.gatesReleased (h : Half) (c : CounterDev) : CounterDev :=
  { c with gates := (c.gates.set h .upper .H).set h .lower .H }

@[simp] theorem readHalf_ctrs (s : State) (d : Nat) (h : Half) :
    (s.readHalf d h).ctrs = s.ctrs.modify d (CounterDev.gatesReleased h) := by
  simp only [State.readHalf, memRead_ctrs, modify_modify]
  rfl

@[simp] theorem readHalf_buses (s : State) (d : Nat) (h : Half) : (s.readHalf d h).buses = s.buses := by
  simp [State.readHalf]

/-- The two byte reads are in the history, and the half's value is made of the bytes they sampled (R135, R143). -/
theorem readHalf_spec (s : State) (d : Nat) (h : Half) :
    ∃ u l, (s.readHalf d h).hist = s.hist ++ halfEvents d h s.tHold u l ∧ s.halfValue d h = word16 u l := by
  refine ⟨s.memReadByte d h .upper, (s.memRead d h .upper).memReadByte d h .lower, ?_, rfl⟩
  simp [State.readHalf, halfEvents, (keeps_memRead s d h .upper).tHold]

theorem keeps_readReg (s : State) (d : Nat) (h : Half) : Keeps s (s.readReg d h) :=
  (keeps_pulseLatch _ _).trans (keeps_readHalf _ _ _)

@[simp] theorem readReg_ctrs (s : State) (d : Nat) (h : Half) :
    (s.readReg d h).ctrs = s.ctrs.modify d (fun c => { c.gatesReleased h with rclk := .L }) := by
  simp only [State.readReg, readHalf_ctrs, pulseLatch_ctrs, modify_modify]
  rfl

@[simp] theorem readReg_buses (s : State) (d : Nat) (h : Half) : (s.readReg d h).buses = s.buses := by
  simp [State.readReg]

/-- The latch pulse and the two byte reads are in the history, and the value is made of the bytes sampled. -/
theorem readReg_spec (s : State) (d : Nat) (h : Half) :
    ∃ u l, (s.readReg d h).hist = s.hist ++ regEvents d h s.tHold u l ∧ s.regValue d h = word16 u l := by
  obtain ⟨u, l, h1, h2⟩ := readHalf_spec (s.pulseLatch d) d h
  refine ⟨u, l, ?_, h2⟩
  simpa [State.readReg, regEvents, (keeps_pulseLatch s d).tHold] using h1

/-! ### stream and MemWrite (R200, R201) -/

theorem keeps_streamBit (b : Nat) (s : State) (v : Bool) : Keeps s (s.streamBit b v) :=
  (((((keeps_drive _ _ _).trans (keeps_hold _ _)).trans (keeps_drive _ _ _)).trans (keeps_hold _ _)).trans
    (keeps_drive _ _ _)).trans (keeps_hold _ _)

@[simp] theorem streamBit_ctrs (b : Nat) (s : State) (v : Bool) : (s.streamBit b v).ctrs = s.ctrs := by
  simp [State.streamBit, setCtrPin]

@[simp] theorem streamBit_buses (b : Nat) (s : State) (v : Bool) :
    (s.streamBit b v).buses = s.buses.modify b (fun bus => { bus with sclk := .L, sdata := levelOfBit v }) := by
  simp [State.streamBit, setBusPin, modify_modify]

@[simp] theorem streamBit_hist (b : Nat) (s : State) (v : Bool) :
    (s.streamBit b v).hist = s.hist ++ bitEvents b s.tSer v := by
  simp [State.streamBit, bitEvents, levelOfBit]

theorem keeps_stream (s : State) (b : Nat) (v : Byte) : Keeps s (s.stream b v) :=
  keeps_foldl _ (fun s v => keeps_streamBit b s v) _ _

@[simp] theorem stream_ctrs (s : State) (b : Nat) (v : Byte) : (s.stream b v).ctrs = s.ctrs := by
  simp [State.stream, msbFirst]

@[simp] theorem stream_buses (s : State) (b : Nat) (v : Byte) :
    (s.stream b v).buses = s.buses.modify b (fun bus => { bus with sclk := .L, sdata := levelOfBit (v.getLsbD 0) }) := by
  simp [State.stream, msbFirst, modify_modify]

@[simp] theorem stream_hist (s : State) (b : Nat) (v : Byte) :
    (s.stream b v).hist = s.hist ++ [7, 6, 5, 4, 3, 2, 1, 0].flatMap (fun i => bitEvents b s.tSer (v.getLsbD i)) := by
  simp only [State.stream, msbFirst, List.foldl_cons, List.foldl_nil, streamBit_hist,
    (keeps_streamBit _ _ _).tSer, List.append_assoc, List.flatMap_cons, List.flatMap_nil, List.append_nil]

theorem keeps_memWrite (s : State) (b c : Nat) (v : Byte) : Keeps s (s.memWrite b c v) :=
  ((keeps_drive _ _ _).trans (keeps_stream _ _ _)).trans (keeps_drive _ _ _)

@[simp] theorem memWrite_ctrs (s : State) (b c : Nat) (v : Byte) : (s.memWrite b c v).ctrs = s.ctrs := by
  simp [State.memWrite, setCtrPin]

@[simp] theorem memWrite_hist (s : State) (b c : Nat) (v : Byte) :
    (s.memWrite b c v).hist = s.hist ++ writeEvents b c s.tSer v := by
  simp [State.memWrite, writeEvents]

@[simp] theorem memWrite_buses (s : State) (b c : Nat) (v : Byte) :
    (s.memWrite b c v).buses = s.buses.modify b (fun bus =>
      { sclk := .L, sdata := levelOfBit (v.getLsbD 0)
        lines := bus.lines.modify c (fun l => { l with latch := .L }) }) := by
  simp [State.memWrite, setBusPin, modify_modify, SerialBus.modLine]

theorem setCur_memWrite_buses (s : State) (b c : Nat) (v : Byte) :
    ((s.setCur b c v).memWrite b c v).buses = s.buses.modify b (SerialBus.afterWrite c v) := by
  simp only [State.setCur, memWrite_buses, State.modBus_buses, modify_modify, SerialBus.modLine]
  rfl

/-- DelayLine.write in full, but for the attached chips (R202). -/
theorem writeLine_spec (b c : Nat) (v : Byte) (s : State) :
    ∃ e, s.writeLine b c v =
      { s with buses := s.buses.modify b (SerialBus.afterWrite c v), env := e
               hist := s.hist ++ writeEvents b c s.tSer v
               outcomes := s.outcomes ++ [.ok (.byte v)], pc := s.pc + 1 } := by
  refine ⟨((s.setCur b c v).memWrite b c v).env, ?_⟩
  have h := ((keeps_modBus s b _).trans (keeps_memWrite (s.setCur b c v) b c v)).eq
  unfold State.writeLine
  rw [h, setCur_memWrite_buses]
  simp only [State.ret, State.answer, State.setCur, memWrite_ctrs, memWrite_hist, State.modBus_ctrs,
    State.modBus_hist, State.modBus_tSer]

/-! ### TICK (R182, R183) -/

theorem keeps_toggle (t : Word) (d : Nat) (s : State) (x : Half) : Keeps s (s.toggle t d x) :=
  ((keeps_modCtr _ _ _).trans (keeps_drive _ _ _)).trans (keeps_modCtr _ _ _)

theorem keeps_tickChannel (t : Word) (d : Nat) (s : State) (x : Half) : Keeps s (s.tickChannel t d x) := by
  unfold State.tickChannel
  split
  · exact keeps_toggle t d s x
  · exact Keeps.refl s

@[simp] theorem tickChannel_buses (t : Word) (d : Nat) (s : State) (x : Half) :
    (s.tickChannel t d x).buses = s.buses := by
  unfold State.tickChannel
  split
  · simp [State.toggle, setBusPin]
  · rfl

@[simp] theorem tickChannel_hist (t : Word) (d : Nat) (s : State) (x : Half) :
    (s.tickChannel t d x).hist = s.hist ++ toggleEvents d x ((s.ctr d).chan x) t := by
  unfold State.tickChannel toggleEvents
  cases hdue : ((s.ctr d).chan x).due t
  · simp
  · cases h : ((s.ctr d).chan x).lvl <;> simp [State.toggle, levelOfBit, h]

theorem tickChannel_ctrs (t : Word) (d : Nat) (s : State) (x : Half) :
    (s.tickChannel t d x).ctrs = s.ctrs.modify d (fun c => c.modChan x (Channel.afterTick t)) := by
  unfold State.tickChannel
  cases hdue : ((s.ctr d).chan x).due t
  · symm
    apply modify_id_at _ _ _ CounterDev.absent
    intro _
    unfold State.ctr at hdue
    generalize s.ctrs.getD d CounterDev.absent = c at hdue
    cases x <;> simp_all [CounterDev.modChan, CounterDev.chan, Channel.afterTick]
  · simp only [if_true, State.toggle, State.modCtr_ctrs, State.drive_ctrs, setCtrPin, modify_modify]
    apply modify_congr_at _ _ _ _ CounterDev.absent
    intro _
    unfold State.ctr at hdue ⊢
    generalize s.ctrs.getD d CounterDev.absent = c at hdue
    cases x <;> cases hl : (c.chan _).lvl <;>
      simp_all [CounterDev.modChan, CounterDev.chan, Channel.afterTick, levelOfBit]

theorem keeps_tickDevice (t : Word) (s : State) (d : Nat) : Keeps s (s.tickDevice t d) := by
  unfold State.tickDevice
  split
  · exact (keeps_foldl _ (fun s x => keeps_tickChannel t d s x) _ _).trans (keeps_modCtr _ _ _)
  · exact Keeps.refl s

@[simp] theorem tickDevice_buses (t : Word) (s : State) (d : Nat) : (s.tickDevice t d).buses = s.buses := by
  unfold State.tickDevice; split <;> simp

theorem tickDevice_ctrs (t : Word) (s : State) (d : Nat) :
    (s.tickDevice t d).ctrs = s.ctrs.modify d (CounterDev.afterTick t) := by
  unfold State.tickDevice
  by_cases h : (s.ctr d).life = .ready
  · simp only [h, if_true, List.foldl_cons, List.foldl_nil, State.modCtr_ctrs, tickChannel_ctrs, modify_modify]
    apply modify_congr_at _ _ _ _ CounterDev.absent
    intro _
    unfold State.ctr at h
    generalize s.ctrs.getD d CounterDev.absent = c at h
    simp [CounterDev.modChan, CounterDev.afterTick, h]
  · simp only [h, if_false]
    symm
    apply modify_id_at _ _ _ CounterDev.absent
    intro _
    unfold State.ctr at h
    generalize s.ctrs.getD d CounterDev.absent = c at h
    simp [CounterDev.afterTick, h]

theorem tickDevice_hist (t : Word) (s : State) (d : Nat) (hd : d < s.ctrs.length) :
    (s.tickDevice t d).hist = s.hist ++ tickDeviceEvents t d (s.ctr d) := by
  unfold State.tickDevice tickDeviceEvents
  split
  · have : ((s.tickChannel t d .A).ctr d).chan .B = (s.ctr d).chB := by
      simp only [State.ctr, tickChannel_ctrs, getD_modify_self _ _ _ _ hd]
      rfl
    simp only [List.foldl_cons, List.foldl_nil, State.modCtr_hist, tickChannel_hist, this, List.append_assoc]
    rfl
  · simp

end Sys2Proof.Machine
end

