-- ==== Sys2Proof/Laws/Decode.lean ====
section
/-! SUPPORT. The fields of an assembled word, and which rows of the opcode map select a word. -/

namespace Sys2Proof

@[simp] theorem fieldOp_assemble (op x y imm : Byte) : fieldOp (assemble op x y imm) = op := by
  apply BitVec.eq_of_getLsbD_eq
  intro i hi
  simp only [fieldOp, assemble, BitVec.getLsbD_extractLsb', BitVec.getLsbD_append]
  have h1 : ¬ (24 + i < 8) := by omega
  have h2 : ¬ (24 + i - 8 < 8) := by omega
  have h3 : ¬ (24 + i - 8 - 8 < 8) := by omega
  have h4 : 24 + i - 8 - 8 - 8 = i := by omega
  simp [hi, h1, h2, h3, h4]

@[simp] theorem fieldX_assemble (op x y imm : Byte) : fieldX (assemble op x y imm) = x := by
  apply BitVec.eq_of_getLsbD_eq
  intro i hi
  simp only [fieldX, assemble, BitVec.getLsbD_extractLsb', BitVec.getLsbD_append]
  have h1 : ¬ (16 + i < 8) := by omega
  have h2 : ¬ (16 + i - 8 < 8) := by omega
  have h3 : 16 + i - 8 - 8 = i := by omega
  simp [hi, h1, h2, h3]

@[simp] theorem fieldY_assemble (op x y imm : Byte) : fieldY (assemble op x y imm) = y := by
  apply BitVec.eq_of_getLsbD_eq
  intro i hi
  simp only [fieldY, assemble, BitVec.getLsbD_extractLsb', BitVec.getLsbD_append]
  have h1 : ¬ (8 + i < 8) := by omega
  have h3 : 8 + i - 8 = i := by omega
  simp [hi, h1, h3]

@[simp] theorem fieldImm_assemble (op x y imm : Byte) : fieldImm (assemble op x y imm) = imm := by
  apply BitVec.eq_of_getLsbD_eq
  intro i hi
  simp only [fieldImm, assemble, BitVec.getLsbD_extractLsb', BitVec.getLsbD_append, Nat.zero_add]
  simp [hi]

/-- Every word is assembled from its four fields (R101). -/
theorem assemble_fields (w : Word) : assemble (fieldOp w) (fieldX w) (fieldY w) (fieldImm w) = w := by
  apply BitVec.eq_of_getLsbD_eq
  intro i hi
  simp only [assemble, fieldOp, fieldX, fieldY, fieldImm, BitVec.getLsbD_append, BitVec.getLsbD_extractLsb']
  by_cases h1 : i < 8
  · simp [h1]
  · by_cases h2 : i - 8 < 8
    · have : 8 + (i - 8) = i := by omega
      simp [h1, h2, this]
    · by_cases h3 : i - 8 - 8 < 8
      · have : 16 + (i - 8 - 8) = i := by omega
        simp [h1, h2, h3, this]
      · have h4 : i - 8 - 8 - 8 < 8 := by omega
        have : 24 + (i - 8 - 8 - 8) = i := by omega
        simp [h1, h2, h3, h4, this]

theorem assemble_inj {op x y imm op' x' y' imm' : Byte} :
    assemble op x y imm = assemble op' x' y' imm' ↔ op = op' ∧ x = x' ∧ y = y' ∧ imm = imm' := by
  constructor
  · intro h
    exact ⟨by simpa using congrArg fieldOp h, by simpa using congrArg fieldX h, by simpa using congrArg fieldY h,
      by simpa using congrArg fieldImm h⟩
  · rintro ⟨rfl, rfl, rfl, rfl⟩; rfl

theorem and_assemble (op x y imm m1 m2 m3 m4 : Byte) :
    assemble op x y imm &&& assemble m1 m2 m3 m4 = assemble (op &&& m1) (x &&& m2) (y &&& m3) (imm &&& m4) := by
  have h : (op ++ x ++ y ++ imm : BitVec (8 + 8 + 8 + 8)) &&& (m1 ++ m2 ++ m3 ++ m4 : BitVec (8 + 8 + 8 + 8))
      = (op &&& m1) ++ (x &&& m2) ++ (y &&& m3) ++ (imm &&& m4) := by
    rw [BitVec.and_append, BitVec.and_append, BitVec.and_append]
  exact h

/-- A row written by fields selects an assembled word exactly when every field agrees under its mask. -/
theorem selects_assemble (name : String) (build : Word → Instr) (p1 p2 p3 p4 m1 m2 m3 m4 op x y imm : Byte) :
    OpRow.selects ⟨name, assemble p1 p2 p3 p4, assemble m1 m2 m3 m4, build⟩ (assemble op x y imm) = true
      ↔ op &&& m1 = p1 ∧ x &&& m2 = p2 ∧ y &&& m3 = p3 ∧ imm &&& m4 = p4 := by
  simp only [OpRow.selects, and_assemble, beq_iff_eq, assemble_inj]

@[simp] theorem byte_and_ones (b : Byte) : b &&& 0xFF#8 = b := by
  have : (0xFF#8 : Byte) = BitVec.allOnes 8 := by decide
  rw [this, BitVec.and_allOnes]

@[simp] theorem byte_and_zero (b : Byte) : b &&& 0x00#8 = 0#8 := BitVec.and_zero

theorem halfField_and (h : Half) : halfField h &&& 0xFE#8 = 0#8 := by cases h <;> decide

/-- The opcode map with every pattern and mask written by fields. -/
theorem opcodeTable_fields : opcodeTable =
    [ ⟨"INIT",   assemble 0x01#8 0#8 0#8 0#8, assemble 0xFF#8 0xFF#8 0xFF#8 0xFF#8, fun _ => .init⟩,
      ⟨"LATCH",  assemble 0x02#8 0#8 0#8 0#8, assemble 0xFF#8 0x00#8 0xFF#8 0xFF#8, fun w => .latch (operandX w)⟩,
      ⟨"READL",  assemble 0x03#8 0#8 0#8 0#8, assemble 0xFF#8 0x00#8 0xFE#8 0xFF#8,
        fun w => .readl (operandX w) (operandHalf w)⟩,
      ⟨"READR",  assemble 0x04#8 0#8 0#8 0#8, assemble 0xFF#8 0x00#8 0xFE#8 0xFF#8,
        fun w => .readr (operandX w) (operandHalf w)⟩,
      ⟨"READ32", assemble 0x05#8 0#8 0#8 0#8, assemble 0xFF#8 0x00#8 0xFF#8 0xFF#8, fun w => .read32 (operandX w)⟩,
      ⟨"READ",   assemble 0x06#8 0#8 0#8 0#8, assemble 0xFF#8 0x00#8 0xFE#8 0xFF#8,
        fun w => .read (operandX w) (operandHalf w)⟩,
      ⟨"CLEAR",  assemble 0x07#8 0#8 0#8 0#8, assemble 0xFF#8 0x00#8 0xFF#8 0xFF#8, fun w => .clear (operandX w)⟩,
      ⟨"TOGB",   assemble 0x08#8 0#8 0#8 0#8, assemble 0xFF#8 0x00#8 0xFF#8 0xFF#8, fun w => .togb (operandX w)⟩,
      ⟨"OVF",    assemble 0x09#8 0#8 0#8 0#8, assemble 0xFF#8 0x00#8 0xFF#8 0xFF#8, fun w => .ovf (operandX w)⟩,
      ⟨"TICK",   assemble 0x0A#8 0#8 0#8 0#8, assemble 0xFF#8 0xFF#8 0xFF#8 0xFF#8, fun _ => .tick⟩,
      ⟨"DLWR",   assemble 0x10#8 0#8 0#8 0#8, assemble 0xFF#8 0x00#8 0x00#8 0x00#8,
        fun w => .dlwr (operandX w) (operandY w) (fieldImm w)⟩,
      ⟨"DLINC",  assemble 0x11#8 0#8 0#8 0#8, assemble 0xFF#8 0x00#8 0x00#8 0x00#8,
        fun w => .dlinc (operandX w) (operandY w) (fieldImm w)⟩,
      ⟨"DLDEC",  assemble 0x12#8 0#8 0#8 0#8, assemble 0xFF#8 0x00#8 0x00#8 0x00#8,
        fun w => .dldec (operandX w) (operandY w) (fieldImm w)⟩,
      ⟨"DLGET",  assemble 0x13#8 0#8 0#8 0#8, assemble 0xFF#8 0x00#8 0x00#8 0xFF#8,
        fun w => .dlget (operandX w) (operandY w)⟩ ] := rfl

end Sys2Proof
end

