-- ==== Sys2Proof/Laws/Environment.lean ====
section
/-! SUPPORT. What the environment model keeps and changes: moves never touch storage or chips, a gated read sees the
storage register, a latch pulse copies the live counts, a serial write reaches one chip. -/

namespace Sys2Proof.Machine

/-! ### One IC at a time -/

theorem ic?_modIC (e : Env) (d d' : Nat) (f : CounterIC → CounterIC) :
    (e.modIC d f).ic? d' = if d = d' then (e.ic? d').map f else e.ic? d' := by
  simp only [Env.modIC, Env.ic?, List.getElem?_modify]
  by_cases h : d = d'
  · simp only [h, if_true]
    cases e.ics[d']? with
    | none => rfl
    | some o => cases o <;> rfl
  · simp only [h, if_false]
    cases e.ics[d']? <;> rfl

@[simp] theorem modIC_chips (e : Env) (d : Nat) (f : CounterIC → CounterIC) : (e.modIC d f).chips = e.chips := rfl
@[simp] theorem modIC_time (e : Env) (d : Nat) (f : CounterIC → CounterIC) : (e.modIC d f).time = e.time := rfl
@[simp] theorem modIC_script (e : Env) (d : Nat) (f : CounterIC → CounterIC) : (e.modIC d f).script = e.script := rfl

/-! ### Storage -/

/-- Device d has a modelled IC with these storage registers. -/
def Env.Stores (e : Env) (d : Nat) (a b : Reg16) : Prop :=
  ∃ ic, e.ic? d = some ic ∧ ic.storeA = a ∧ ic.storeB = b

/-- Device d has a modelled IC with these live counts. -/
def Env.Lives (e : Env) (d : Nat) (a b : Reg16) : Prop :=
  ∃ ic, e.ic? d = some ic ∧ ic.liveA = a ∧ ic.liveB = b

theorem Stores_modIC {e : Env} {d d' : Nat} {a b : Reg16} {f : CounterIC → CounterIC}
    (hf : ∀ ic, (f ic).storeA = ic.storeA ∧ (f ic).storeB = ic.storeB) (h : e.Stores d a b) :
    (e.modIC d' f).Stores d a b := by
  obtain ⟨ic, h1, h2, h3⟩ := h
  by_cases hd : d' = d
  · exact ⟨f ic, by simp [ic?_modIC, hd, h1], by rw [(hf ic).1, h2], by rw [(hf ic).2, h3]⟩
  · exact ⟨ic, by simp [ic?_modIC, hd, h1], h2, h3⟩

theorem pulseA_stores (c : CounterDev) (ic : CounterIC) :
    (CounterIC.pulseA c ic).storeA = ic.storeA ∧ (CounterIC.pulseA c ic).storeB = ic.storeB := by
  unfold CounterIC.pulseA CounterIC.countA; split <;> simp

theorem countB_stores (b : Bool) (ic : CounterIC) :
    (ic.countB b).storeA = ic.storeA ∧ (ic.countB b).storeB = ic.storeB := by
  unfold CounterIC.countB; split <;> simp

theorem pulseB_stores (c : CounterDev) (ic : CounterIC) :
    (CounterIC.pulseB c ic).storeA = ic.storeA ∧ (CounterIC.pulseB c ic).storeB = ic.storeB := by
  unfold CounterIC.pulseB; split
  · exact countB_stores _ _
  · simp

theorem Stores_move {ctrs : List CounterDev} {e : Env} {d : Nat} {a b : Reg16} (m : EnvMove) (h : e.Stores d a b) :
    (e.move ctrs m).Stores d a b := by
  cases m with
  | pulseA i => exact Stores_modIC (pulseA_stores _) h
  | pulseB i => exact Stores_modIC (pulseB_stores _) h
  | elapse n => exact h

/-- Counting never touches the storage registers (R79, R270). -/
theorem Stores_advance {ctrs : List CounterDev} {e : Env} {d n : Nat} {a b : Reg16} (h : e.Stores d a b) :
    (e.advance ctrs n).Stores d a b := by
  unfold Env.advance
  generalize e.movesBefore n = ms
  induction ms generalizing e with
  | nil => exact h
  | cons m ms ih => exact ih (Stores_move m h)

/-! ### Chips and script -/

@[simp] theorem move_chips (ctrs : List CounterDev) (e : Env) (m : EnvMove) : (e.move ctrs m).chips = e.chips := by
  cases m <;> rfl

@[simp] theorem move_script (ctrs : List CounterDev) (e : Env) (m : EnvMove) : (e.move ctrs m).script = e.script := by
  cases m <;> rfl

@[simp] theorem advance_chips (ctrs : List CounterDev) (e : Env) (n : Nat) : (e.advance ctrs n).chips = e.chips := by
  unfold Env.advance
  generalize e.movesBefore n = ms
  induction ms generalizing e with
  | nil => rfl
  | cons m ms ih => rw [List.foldl_cons, ih, move_chips]

@[simp] theorem advance_script (ctrs : List CounterDev) (e : Env) (n : Nat) : (e.advance ctrs n).script = e.script := by
  unfold Env.advance
  generalize e.movesBefore n = ms
  induction ms generalizing e with
  | nil => rfl
  | cons m ms ih => rw [List.foldl_cons, ih, move_script]

@[simp] theorem onDrive_script (ctrs : List CounterDev) (buses : List SerialBus) (p : Pin) (old new : Level) (w : Word)
    (e : Env) : (e.onDrive ctrs buses p old new w).script = e.script := by
  cases p <;> simp only [Env.onDrive] <;> (try split) <;> rfl

/-- With no moves the environment stands still before the event. -/
theorem advance_of_no_moves {ctrs : List CounterDev} {e : Env} {n : Nat} (h : e.movesBefore n = []) :
    e.advance ctrs n = e := by simp [Env.advance, h]

/-- The moves before an event depend on the script only. -/
theorem movesBefore_of_script {e e' : Env} (h : e'.script = e.script) (n : Nat) :
    e'.movesBefore n = e.movesBefore n := by simp [Env.movesBefore, h]

@[simp] theorem envNow_script (s : State) : s.envNow.script = s.env.script := by simp [State.envNow]

@[simp] theorem drive_env_script (s : State) (p : Pin) (lv : Level) : (s.drive p lv).env.script = s.env.script := by
  simp

@[simp] theorem hold_env_script (s : State) (n : Nat) : (s.hold n).env.script = s.env.script := by
  simp [Env.onHold]

@[simp] theorem sampleDB_env_script (s : State) (d : Nat) : (s.sampleDB d).env.script = s.env.script := by simp

/-! ### The gated byte read (R134, R271) -/

theorem busQuiet_setGate (ctrs : List CounterDev) (d : Nat) (h : Half) (k : BytePart) (lv : Level) :
    busQuiet (setCtrPin ctrs (.gate d h k) lv) d = busQuiet ctrs d := by
  simp only [busQuiet, setCtrPin, List.length_modify]
  apply Bool.eq_iff_iff.mpr
  simp only [List.all_eq_true, List.mem_range]
  refine forall_congr' fun i => imp_congr_right fun hi => ?_
  by_cases hid : i = d
  · simp [hid]
  · have hdi : d ≠ i := fun h => hid h.symm
    have h1 : ((ctrs.modify d (fun c => { c with gates := c.gates.set h k lv })).getD i CounterDev.absent)
        = ctrs.getD i CounterDev.absent := getD_modify_ne _ _ _ _ _ hdi
    have h2 : ((ctrs.modify d (fun c => { c with gates := c.gates.set h k lv })).getD d CounterDev.absent).cfg.dbus
        = (ctrs.getD d CounterDev.absent).cfg.dbus := by
      rw [getD_modify]; split <;> rfl
    rw [h1, h2]

/-- All four gates driven high. -/
def Gates.idle : Gates := { gal := .H, gau := .H, gbl := .H, gbu := .H }

theorem selected_one (h : Half) (k : BytePart) : (Gates.idle.set h k .L).selected = some (h, k) := by
  cases h <;> cases k <;> rfl

theorem set_back (h : Half) (k : BytePart) : (Gates.idle.set h k .L).set h k .H = Gates.idle := by
  cases h <;> cases k <;> rfl

theorem set_idle (h : Half) (k : BytePart) : Gates.idle.set h k .H = Gates.idle := by
  cases h <;> cases k <;> rfl

/-- What a counter read needs of device d: an IC with these storage registers, its gates released, and no other
device that could drive its bus. -/
structure ReadView (s : State) (d : Nat) (a b : Reg16) : Prop where
  exists_ : d < s.ctrs.length
  stores : s.env.Stores d a b
  gates : (s.ctr d).gates = Gates.idle
  quiet : busQuiet s.ctrs d = true

/-- The storage register named by a half. -/
def pickHalf (a b : Reg16) : Half → Reg16
  | .A => a
  | .B => b

/-- MemRead gives the selected byte of the storage register and leaves everything ready for the next one. -/
theorem memRead_view {s : State} {d : Nat} {a b : Reg16} (v : ReadView s d a b) (h : Half) (k : BytePart) :
    s.memReadByte d h k = byteOf (pickHalf a b h) k ∧ ReadView (s.memRead d h k) d a b := by
  obtain ⟨hd, hs, hg, hq⟩ := v
  have hs1 : (s.gateOpen d h k).envNow.Stores d a b := by
    simp only [State.gateOpen, State.envNow, State.hold_env, State.hold_ctrs, State.hold_hist]
    apply Stores_advance
    exact Stores_advance (e := (s.drive (.gate d h k) .L).env) (Stores_advance hs)
  have hgo : ((s.gateOpen d h k).ctrs.getD d CounterDev.absent).gates = Gates.idle.set h k .L := by
    simp only [State.gateOpen, State.hold_ctrs, State.drive_ctrs, setCtrPin]
    rw [getD_modify_self _ _ _ _ hd]
    show ((s.ctr d).gates).set h k .L = _
    rw [hg]
  have hqo : busQuiet (s.gateOpen d h k).ctrs d = true := by
    simp only [State.gateOpen, State.hold_ctrs, State.drive_ctrs, busQuiet_setGate, hq]
  constructor
  · obtain ⟨ic, h1, h2, h3⟩ := hs1
    unfold State.memReadByte State.busSample Env.busByte
    rw [h1, hgo, hqo, selected_one]
    cases h <;> simp [CounterIC.byte, CounterIC.store, pickHalf, h2, h3]
  · refine ⟨by simpa using hd, ?_, ?_, ?_⟩
    · show (s.memRead d h k).env.Stores d a b
      unfold State.memRead
      simp only [State.drive_env, Env.onDrive]
      exact Stores_advance (e := ((s.gateOpen d h k).sampleDB d).env) hs1
    · unfold State.ctr
      rw [memRead_ctrs, getD_modify_self _ _ _ _ hd]
      show ((s.ctr d).gates).set h k .H = _
      rw [hg, set_idle]
    · have : (s.memRead d h k).ctrs = setCtrPin s.ctrs (.gate d h k) .H := by rw [memRead_ctrs]; rfl
      rw [this, busQuiet_setGate, hq]

theorem word16_bytes (r : Reg16) : word16 (byteOf r .upper) (byteOf r .lower) = r := by
  apply BitVec.eq_of_getLsbD_eq
  intro i hi
  simp only [word16, byteOf, BitVec.getLsbD_or, BitVec.getLsbD_shiftLeft, BitVec.getLsbD_setWidth,
    BitVec.getLsbD_extractLsb']
  by_cases h8 : i < 8
  · simp [h8, hi]
  · have h1 : i - 8 < 8 := by omega
    have h2 : 8 + (i - 8) = i := by omega
    have h3 : i - 8 < 16 := by omega
    simp [h8, hi, h1, h2, h3]

/-- A latched read gives the storage register of its half (R135, R271). -/
theorem readHalf_view {s : State} {d : Nat} {a b : Reg16} (v : ReadView s d a b) (h : Half) :
    s.halfValue d h = pickHalf a b h ∧ ReadView (s.readHalf d h) d a b := by
  obtain ⟨h1, v1⟩ := memRead_view v h .upper
  obtain ⟨h2, v2⟩ := memRead_view v1 h .lower
  refine ⟨?_, v2⟩
  unfold State.halfValue
  rw [h1, h2, word16_bytes]

/-! ### The latch pulse (R130, R270) -/

/-- A pin driven low makes no rising edge. -/
@[simp] theorem isRise_low (old : Level) : isRise old .L = false := by cases old <;> rfl

/-- A pin driven high makes no falling edge. -/
@[simp] theorem isFall_high (old : Level) : isFall old .H = false := by cases old <;> rfl

theorem Stores_of_Lives {e : Env} {d : Nat} {a b : Reg16} (h : e.Lives d a b) :
    (e.modIC d CounterIC.latchBoth).Stores d a b := by
  obtain ⟨ic, h1, h2, h3⟩ := h
  exact ⟨ic.latchBoth, by simp [ic?_modIC, h1], h2, h3⟩

theorem busQuiet_setRclk (ctrs : List CounterDev) (d : Nat) :
    busQuiet (ctrs.modify d (fun c => { c with rclk := .L })) d = busQuiet ctrs d := by
  simp only [busQuiet, List.length_modify]
  apply Bool.eq_iff_iff.mpr
  simp only [List.all_eq_true, List.mem_range]
  refine forall_congr' fun i => imp_congr_right fun hi => ?_
  have h (j : Nat) : ((ctrs.modify d (fun c => { c with rclk := .L })).getD j CounterDev.absent).cfg.dbus
      = (ctrs.getD j CounterDev.absent).cfg.dbus
      ∧ ((ctrs.modify d (fun c => { c with rclk := .L })).getD j CounterDev.absent).gates
      = (ctrs.getD j CounterDev.absent).gates := by
    rw [getD_modify]; split <;> exact ⟨rfl, rfl⟩
  rw [(h i).1, (h i).2, (h d).1]

/-- The pulse copies the live counts as they are at its rising edge into both storage registers. -/
theorem pulseLatch_view {s : State} {d : Nat} {a b : Reg16} (hd : d < s.ctrs.length) (hl : s.envNow.Lives d a b)
    (hr : (s.ctr d).rclk = .L) (hg : (s.ctr d).gates = Gates.idle) (hq : busQuiet s.ctrs d = true) :
    ReadView (s.pulseLatch d) d a b := by
  refine ⟨by simpa using hd, ?_, ?_, ?_⟩
  · have h1 : (s.drive (.rclk d) .H).env.Stores d a b := by
      simp only [State.drive_env, Env.onDrive, State.level, hr]
      exact Stores_of_Lives hl
    have h2 : ((s.drive (.rclk d) .H).hold s.tHold).env.Stores d a b := Stores_advance h1
    unfold State.pulseLatch
    simp only [State.drive_env (s := (s.drive (.rclk d) .H).hold s.tHold), Env.onDrive, isRise_low]
    exact Stores_advance h2
  · unfold State.ctr
    rw [pulseLatch_ctrs, getD_modify_self _ _ _ _ hd]
    exact hg
  · rw [pulseLatch_ctrs, busQuiet_setRclk, hq]

/-- READR's value: the live count at the pulse (R137). -/
theorem readReg_view {s : State} {d : Nat} {a b : Reg16} (hd : d < s.ctrs.length) (hl : s.envNow.Lives d a b)
    (hr : (s.ctr d).rclk = .L) (hg : (s.ctr d).gates = Gates.idle) (hq : busQuiet s.ctrs d = true) (h : Half) :
    s.regValue d h = pickHalf a b h ∧ ReadView (s.readReg d h) d a b :=
  readHalf_view (pulseLatch_view hd hl hr hg hq) h

end Sys2Proof.Machine
end

