-- ==== Sys2Proof/Laws/Lifecycle.lean ====
section
/-! SUPPORT. The loops of INIT and TICK: what they do to every device and bus, and the history they leave. -/

namespace Sys2Proof.Machine

/-! ### A loop that changes element d of a list and adds that element's events -/

/-- The devices and the history after a loop over the first n elements. -/
theorem foldl_range_spec {α : Type} (view : State → List α) (x : α) (f : State → Nat → State) (g : α → α)
    (ev : Nat → α → List Event)
    (hview : ∀ s d, d < (view s).length → view (f s d) = (view s).modify d g)
    (hhist : ∀ s d, d < (view s).length → (f s d).hist = s.hist ++ ev d ((view s).getD d x))
    (s : State) (n : Nat) (hn : n ≤ (view s).length) :
    (∀ j, (view ((List.range n).foldl f s))[j]? = if j < n then (view s)[j]?.map g else (view s)[j]?)
      ∧ ((List.range n).foldl f s).hist = s.hist ++ (List.range n).flatMap (fun d => ev d ((view s).getD d x)) := by
  induction n with
  | zero => simp
  | succ n ih =>
    obtain ⟨h1, h2⟩ := ih (by omega)
    have hlen : (view ((List.range n).foldl f s)).length = (view s).length := by
      apply le_antisymm
      · rw [← List.getElem?_eq_none_iff, h1]; simp
      · by_contra hlt
        have := List.getElem?_eq_none_iff.mpr (show (view ((List.range n).foldl f s)).length ≤
          (view ((List.range n).foldl f s)).length from le_rfl)
        rw [h1] at this
        split at this <;> simp at this <;> omega
    have hlt : n < (view ((List.range n).foldl f s)).length := by omega
    simp only [List.range_succ, List.foldl_append, List.foldl_cons, List.foldl_nil, List.flatMap_append,
      List.flatMap_cons, List.flatMap_nil, List.append_nil]
    constructor
    · intro j
      rw [hview _ _ hlt, List.getElem?_modify, h1]
      by_cases hjn : n = j
      · subst hjn; simp
      · by_cases hj : j < n
        · simp [hjn, hj, Nat.lt_succ_of_lt hj]
        · have : ¬ j < n + 1 := by omega
          simp [hjn, hj, this]
    · rw [hhist _ _ hlt, h2, List.getD_eq_getElem?_getD, h1]
      simp [List.getD_eq_getElem?_getD]

/-- The same for the whole list. -/
theorem foldl_all_spec {α : Type} (view : State → List α) (x : α) (f : State → Nat → State) (g : α → α)
    (ev : Nat → α → List Event)
    (hview : ∀ s d, d < (view s).length → view (f s d) = (view s).modify d g)
    (hhist : ∀ s d, d < (view s).length → (f s d).hist = s.hist ++ ev d ((view s).getD d x))
    (s : State) :
    view ((List.range (view s).length).foldl f s) = (view s).map g
      ∧ ((List.range (view s).length).foldl f s).hist
        = s.hist ++ (List.range (view s).length).flatMap (fun d => ev d ((view s).getD d x)) := by
  obtain ⟨h1, h2⟩ := foldl_range_spec view x f g ev hview hhist s _ le_rfl
  refine ⟨?_, h2⟩
  apply List.ext_getElem?
  intro j
  rw [h1]
  by_cases hj : j < (view s).length <;> simp [hj]

/-! ### TICK -/

/-- TICK's loop: every Ready device steps both channels, in ascending order (R183). -/
theorem tickLoop_spec (t : Word) (s : State) :
    ((List.range s.ctrs.length).foldl (State.tickDevice t) s).ctrs = s.ctrs.map (CounterDev.afterTick t)
      ∧ ((List.range s.ctrs.length).foldl (State.tickDevice t) s).hist
        = s.hist ++ (List.range s.ctrs.length).flatMap (fun d => tickDeviceEvents t d (s.ctr d)) :=
  foldl_all_spec State.ctrs CounterDev.absent (State.tickDevice t) (CounterDev.afterTick t) (tickDeviceEvents t)
    (fun s d _ => tickDevice_ctrs t s d) (fun s d hd => tickDevice_hist t s d hd) s

theorem buses_foldl {α : Type} (f : State → α → State) (h : ∀ s a, (f s a).buses = s.buses) (l : List α) (s : State) :
    (l.foldl f s).buses = s.buses := by
  induction l generalizing s with
  | nil => rfl
  | cons a l ih => rw [List.foldl_cons, ih, h]

theorem ctrs_foldl {α : Type} (f : State → α → State) (h : ∀ s a, (f s a).ctrs = s.ctrs) (l : List α) (s : State) :
    (l.foldl f s).ctrs = s.ctrs := by
  induction l generalizing s with
  | nil => rfl
  | cons a l ih => rw [List.foldl_cons, ih, h]

/-- TICK in full, but for the attached devices (R183). -/
theorem bodyTick_spec (s : State) :
    ∃ e, s.bodyTick =
      { s with ctrs := s.ctrs.map (CounterDev.afterTick s.timeNow), env := e
               hist := s.hist ++ ([.now s.timeNow] ++
                 (List.range s.ctrs.length).flatMap (fun d => tickDeviceEvents s.timeNow d (s.ctr d)))
               outcomes := s.outcomes ++ [.ok .none], pc := s.pc + 1 } := by
  obtain ⟨h1, h2⟩ := tickLoop_spec s.timeNow s.readTime
  have hk := ((keeps_readTime s).trans (keeps_foldl (State.tickDevice s.timeNow) (keeps_tickDevice _)
    (List.range s.ctrs.length) s.readTime)).eq
  have hb := buses_foldl (State.tickDevice s.timeNow) (tickDevice_buses _) (List.range s.ctrs.length) s.readTime
  simp only [State.readTime_ctrs, State.readTime_hist, State.readTime_buses] at h1 h2 hb
  refine ⟨((List.range s.ctrs.length).foldl (State.tickDevice s.timeNow) s.readTime).env, ?_⟩
  unfold State.bodyTick
  rw [hk, h1, h2, hb]
  simp [State.ret, State.answer, State.ctr]

/-! ### INIT -/

@[simp] theorem initGates_ctrs (s : State) (d : Nat) :
    (s.initGates d).ctrs = s.ctrs.modify d (fun c => { c with gates := { gal := .H, gau := .H, gbl := .H, gbu :=
        .H } }) := by
  simp only [State.initGates, State.drive_ctrs, setCtrPin, modify_modify]
  rfl

@[simp] theorem initGates_hist (s : State) (d : Nat) :
    (s.initGates d).hist = s.hist ++ [.drive (.gate d .A .lower) .H, .drive (.gate d .A .upper) .H,
      .drive (.gate d .B .lower) .H, .drive (.gate d .B .upper) .H] := by
  simp [State.initGates]

@[simp] theorem initGates_buses (s : State) (d : Nat) : (s.initGates d).buses = s.buses := by
  simp [State.initGates, setBusPin]

theorem keeps_initGates (s : State) (d : Nat) : Keeps s (s.initGates d) :=
  (((keeps_drive _ _ _).trans (keeps_drive _ _ _)).trans (keeps_drive _ _ _)).trans (keeps_drive _ _ _)

theorem keeps_initCben (s : State) (d : Nat) : Keeps s (s.initCben d) := by
  unfold State.initCben; split
  · exact keeps_drive _ _ _
  · exact Keeps.refl s

@[simp] theorem initCben_ctrs (s : State) (d : Nat) :
    (s.initCben d).ctrs = s.ctrs.modify d (fun c => { c with cben := if c.cfg.hasCben then .L else c.cben }) := by
  unfold State.initCben
  cases h : (s.ctr d).cfg.hasCben
  · symm
    apply modify_id_at _ _ _ CounterDev.absent
    intro _
    unfold State.ctr at h
    generalize s.ctrs.getD d CounterDev.absent = c at h
    simp [h]
  · apply modify_congr_at _ _ _ _ CounterDev.absent
    intro _
    unfold State.ctr at h
    generalize s.ctrs.getD d CounterDev.absent = c at h
    simp [h]

@[simp] theorem initCben_hist (s : State) (d : Nat) :
    (s.initCben d).hist = s.hist ++ (if (s.ctr d).cfg.hasCben then [.drive (.cben d) .L] else []) := by
  unfold State.initCben; split <;> simp

@[simp] theorem initCben_buses (s : State) (d : Nat) : (s.initCben d).buses = s.buses := by
  unfold State.initCben; split <;> simp [setBusPin]

theorem keeps_initPins (s : State) (d : Nat) : Keeps s (s.initPins d) :=
  (((keeps_initGates _ _).trans (keeps_drive _ _ _)).trans (keeps_drive _ _ _)).trans (keeps_initCben _ _)

@[simp] theorem initPins_buses (s : State) (d : Nat) : (s.initPins d).buses = s.buses := by
  simp [State.initPins, setBusPin]

theorem keeps_armChannel (t : Word) (d : Nat) (s : State) (x : Half) : Keeps s (s.armChannel t d x) :=
  ((keeps_modCtr _ _ _).trans (keeps_drive _ _ _)).trans (keeps_modCtr _ _ _)

theorem keeps_initChannel (t : Word) (d : Nat) (s : State) (x : Half) : Keeps s (s.initChannel t d x) := by
  unfold State.initChannel; split
  · exact keeps_armChannel t d s x
  · exact keeps_modCtr _ _ _

@[simp] theorem initChannel_buses (t : Word) (d : Nat) (s : State) (x : Half) :
    (s.initChannel t d x).buses = s.buses := by
  unfold State.initChannel; split <;> simp [State.armChannel, setBusPin]

theorem initChannel_ctrs (t : Word) (d : Nat) (s : State) (x : Half) :
    (s.initChannel t d x).ctrs = s.ctrs.modify d (fun c => c.modChan x (Channel.afterInit c.cfg x t)) := by
  unfold State.initChannel
  cases h : (s.ctr d).cfg.configured x
  · apply modify_congr_at _ _ _ _ CounterDev.absent
    intro _
    unfold State.ctr at h
    generalize s.ctrs.getD d CounterDev.absent = c at h
    cases x <;> simp [CounterDev.modChan, Channel.afterInit, h]
  · simp only [if_true, State.armChannel, State.modCtr_ctrs, State.drive_ctrs, setCtrPin, modify_modify]
    apply modify_congr_at _ _ _ _ CounterDev.absent
    intro _
    unfold State.ctr at h
    generalize s.ctrs.getD d CounterDev.absent = c at h
    cases x <;> simp [CounterDev.modChan, Channel.afterInit, h]

theorem initChannel_hist (t : Word) (d : Nat) (s : State) (x : Half) :
    (s.initChannel t d x).hist
      = s.hist ++ (if (s.ctr d).cfg.configured x then [.drive (.tclk d x) .L] else []) := by
  unfold State.initChannel; split <;> simp [State.armChannel]

theorem keeps_initDevice (t : Word) (s : State) (d : Nat) : Keeps s (s.initDevice t d) :=
  ((keeps_initPins s d).trans (keeps_modCtr _ _ _)).trans (keeps_foldl _ (fun s x => keeps_initChannel t d s x) _ _)

@[simp] theorem initDevice_buses (t : Word) (s : State) (d : Nat) : (s.initDevice t d).buses = s.buses := by
  simp [State.initDevice]

theorem keeps_initCounter (t : Word) (s : State) (d : Nat) : Keeps s (s.initCounter t d) := by
  unfold State.initCounter State.setLife; split
  · exact (keeps_initDevice t s d).trans (keeps_modCtr _ _ _)
  · exact keeps_modCtr _ _ _

@[simp] theorem initCounter_buses (t : Word) (s : State) (d : Nat) : (s.initCounter t d).buses = s.buses := by
  unfold State.initCounter State.setLife; split <;> simp

theorem initCounter_ctrs (t : Word) (s : State) (d : Nat) :
    (s.initCounter t d).ctrs = s.ctrs.modify d (CounterDev.afterInit t) := by
  unfold State.initCounter State.setLife
  cases h : (s.ctr d).cfg.valid
  · apply modify_congr_at _ _ _ _ CounterDev.absent
    intro _
    unfold State.ctr at h
    generalize s.ctrs.getD d CounterDev.absent = c at h
    simp [CounterDev.afterInit, h]
  · simp only [if_true, State.initDevice, List.foldl_cons, List.foldl_nil, State.modCtr_ctrs, initChannel_ctrs,
      State.initPins, initCben_ctrs, State.drive_ctrs, setCtrPin, initGates_ctrs, modify_modify]
    apply modify_congr_at _ _ _ _ CounterDev.absent
    intro _
    unfold State.ctr at h
    generalize s.ctrs.getD d CounterDev.absent = c at h
    simp [CounterDev.afterInit, h, CounterDev.modChan]

theorem initCounter_hist (t : Word) (s : State) (d : Nat) (hd : d < s.ctrs.length) :
    (s.initCounter t d).hist = s.hist ++ initDeviceEvents d (s.ctr d).cfg := by
  unfold State.initCounter State.setLife initDeviceEvents
  cases h : (s.ctr d).cfg.valid
  · simp
  · simp only [if_true, State.modCtr_hist, State.initDevice, List.foldl_cons, List.foldl_nil, initChannel_hist,
      State.initPins, initCben_hist, State.drive_hist, initGates_hist, State.ctr, initChannel_ctrs, State.modCtr_ctrs,
      initCben_ctrs, State.drive_ctrs, setCtrPin, initGates_ctrs, modify_modify, getD_modify_self _ _ _ _ hd,
      CounterDev.modChan_cfg, List.append_assoc]
    simp

/-- INIT's first loop (R230). -/
theorem initCounters_spec (t : Word) (s : State) :
    (s.initCounters t).ctrs = s.ctrs.map (CounterDev.afterInit t)
      ∧ (s.initCounters t).hist
        = s.hist ++ (List.range s.ctrs.length).flatMap (fun d => initDeviceEvents d (s.ctr d).cfg) :=
  foldl_all_spec State.ctrs CounterDev.absent (State.initCounter t) (CounterDev.afterInit t)
    (fun d c => initDeviceEvents d c.cfg) (fun s d _ => initCounter_ctrs t s d)
    (fun s d hd => initCounter_hist t s d hd) s

theorem keeps_initCounters (t : Word) (s : State) : Keeps s (s.initCounters t) :=
  keeps_foldl _ (keeps_initCounter t) _ _

@[simp] theorem initCounters_buses (t : Word) (s : State) : (s.initCounters t).buses = s.buses :=
  buses_foldl _ (initCounter_buses t) _ _

/-! #### The serial buses -/

theorem keeps_initLatches (s : State) (b : Nat) : Keeps s (s.initLatches b) :=
  keeps_foldl _ (fun s _ => keeps_drive s _ _) _ _

@[simp] theorem initLatches_ctrs (s : State) (b : Nat) : (s.initLatches b).ctrs = s.ctrs :=
  ctrs_foldl _ (fun s c => by simp [setCtrPin]) _ _

/-- The first n delay lines with their latch low, the loop's way. -/
def lowerLatches (n : Nat) (ls : List DelayLine) : List DelayLine :=
  (List.range n).foldl (fun ls c => ls.modify c (fun l => { l with latch := .L })) ls

theorem lowerLatches_succ (n : Nat) (ls : List DelayLine) :
    lowerLatches (n + 1) ls = (lowerLatches n ls).modify n (fun l => { l with latch := .L }) := by
  simp [lowerLatches, List.range_succ]

theorem lowerLatches_all (ls : List DelayLine) : lowerLatches ls.length ls = ls.map (fun l => { l with latch :=
    .L }) := by
  have go : ∀ n, n ≤ ls.length → ∀ j,
      (lowerLatches n ls)[j]? = if j < n then ls[j]?.map (fun l => { l with latch := .L }) else ls[j]? := by
    intro n
    induction n with
    | zero => intro _ j; simp [lowerLatches]
    | succ n ih =>
      intro hn j
      rw [lowerLatches_succ, List.getElem?_modify, ih (by omega)]
      by_cases hjn : n = j
      · subst hjn; simp
      · by_cases hj : j < n
        · simp [hjn, hj, Nat.lt_succ_of_lt hj]
        · have : ¬ j < n + 1 := by omega
          simp [hjn, hj, this]
  apply List.ext_getElem?
  intro j
  rw [go _ le_rfl]
  by_cases hj : j < ls.length <;> simp [hj]

theorem initLatches_loop (s : State) (b n : Nat) :
    ((List.range n).foldl (fun s c => s.drive (.latch b c) .L) s).buses
        = s.buses.modify b (fun bus => { bus with lines := lowerLatches n bus.lines })
      ∧ ((List.range n).foldl (fun s c => s.drive (.latch b c) .L) s).hist
        = s.hist ++ (List.range n).map (fun c => Event.drive (.latch b c) .L) := by
  induction n with
  | zero => exact ⟨(List.modify_id b s.buses).symm, by simp⟩
  | succ n ih =>
    obtain ⟨h1, h2⟩ := ih
    simp only [List.range_succ, List.foldl_append, List.foldl_cons, List.foldl_nil, State.drive_buses,
      State.drive_hist, setBusPin, h1, h2, modify_modify, SerialBus.modLine, lowerLatches_succ, List.map_append,
      List.map_cons, List.map_nil, List.append_assoc, and_self]

theorem initLatches_spec (s : State) (b : Nat) :
    (s.initLatches b).buses
        = s.buses.modify b (fun bus => { bus with lines := bus.lines.map (fun l => { l with latch := .L }) })
      ∧ (s.initLatches b).hist
        = s.hist ++ (List.range (s.bus b).lines.length).map (fun c => Event.drive (.latch b c) .L) := by
  obtain ⟨h1, h2⟩ := initLatches_loop s b (s.bus b).lines.length
  refine ⟨?_, h2⟩
  unfold State.initLatches
  rw [h1]
  apply modify_congr_at _ _ _ _ SerialBus.absent
  intro _
  simp only [State.bus, lowerLatches_all]

theorem keeps_initBus (s : State) (b : Nat) : Keeps s (s.initBus b) :=
  ((keeps_initLatches _ _).trans (keeps_drive _ _ _)).trans (keeps_drive _ _ _)

@[simp] theorem initBus_ctrs (s : State) (b : Nat) : (s.initBus b).ctrs = s.ctrs := by
  simp [State.initBus, setCtrPin]

theorem initBus_spec (s : State) (b : Nat) :
    (s.initBus b).buses = s.buses.modify b SerialBus.afterInit
      ∧ (s.initBus b).hist = s.hist ++ initBusEvents b (s.bus b).lines.length := by
  obtain ⟨h1, h2⟩ := initLatches_spec s b
  constructor
  · simp only [State.initBus, State.drive_buses, setBusPin, h1, modify_modify]
    rfl
  · simp [State.initBus, h2, initBusEvents]

theorem keeps_initBuses (s : State) : Keeps s s.initBuses := keeps_foldl _ keeps_initBus _ _

@[simp] theorem initBuses_ctrs (s : State) : s.initBuses.ctrs = s.ctrs := ctrs_foldl _ initBus_ctrs _ _

/-- INIT's second loop (R230, R237). -/
theorem initBuses_spec (s : State) :
    s.initBuses.buses = s.buses.map SerialBus.afterInit
      ∧ s.initBuses.hist
        = s.hist ++ (List.range s.buses.length).flatMap (fun b => initBusEvents b (s.bus b).lines.length) :=
  foldl_all_spec State.buses SerialBus.absent State.initBus SerialBus.afterInit (fun b bus => initBusEvents b bus.lines.length)
    (fun s b _ => (initBus_spec s b).1) (fun s b _ => (initBus_spec s b).2) s

/-- INIT in full, but for the attached devices (R230). -/
theorem bodyInit_spec (s : State) :
    ∃ e, s.bodyInit =
      { s with initDone := true, ctrs := s.ctrs.map (CounterDev.afterInit s.timeNow)
               buses := s.buses.map SerialBus.afterInit, env := e
               hist := s.hist ++ ([.now s.timeNow]
                 ++ (List.range s.ctrs.length).flatMap (fun d => initDeviceEvents d (s.ctr d).cfg)
                 ++ (List.range s.buses.length).flatMap (fun b => initBusEvents b (s.bus b).lines.length))
               outcomes := s.outcomes ++ [initReply s.firstBad], pc := s.pc + 1 } := by
  obtain ⟨h1, h2⟩ := initCounters_spec s.timeNow s.readTime
  obtain ⟨h3, h4⟩ := initBuses_spec (s.readTime.initCounters s.timeNow)
  have hk := (((keeps_readTime s).trans (keeps_initCounters s.timeNow s.readTime)).trans
    (keeps_initBuses (s.readTime.initCounters s.timeNow))).eq
  simp only [State.readTime_ctrs, State.readTime_hist, State.readTime_buses, initCounters_buses, State.ctr, State.bus,
    h2] at h1 h2 h3 h4
  refine ⟨(s.readTime.initCounters s.timeNow).initBuses.env, ?_⟩
  unfold State.bodyInit
  rw [hk, initBuses_ctrs, h1, h3, h4]
  simp [State.setInitDone, State.answer, State.ctr, State.bus, List.append_assoc]

end Sys2Proof.Machine
end

