-- ==== Sys2Proof/Laws/Exec.lean ====
section
/-! SUPPORT. Everything a command can do, said once: it fails a check and only answers the error, or it runs its
sequence, whose effect on every field but the environment is one equation per command. -/

namespace Sys2Proof.Machine

/-! ### The sequences of the counter commands -/

/-- LATCH's sequence (R131). -/
theorem bodyLatch_spec (d : Nat) (s : State) :
    ∃ e, State.bodyLatch d s =
      { s with ctrs := s.ctrs.modify d (fun c => { c with rclk := .L }), env := e
               hist := s.hist ++ latchEvents d s.tHold, outcomes := s.outcomes ++ [.ok .none], pc := s.pc + 1 } := by
  refine ⟨(s.pulseLatch d).env, ?_⟩
  unfold State.bodyLatch
  rw [(keeps_pulseLatch s d).eq]
  simp [State.ret, State.answer]

/-- READL's sequence (R136). -/
theorem bodyReadl_spec (d : Nat) (h : Half) (s : State) :
    ∃ e u l, State.bodyReadl d h s =
      { s with ctrs := s.ctrs.modify d (CounterDev.gatesReleased h), env := e
               hist := s.hist ++ halfEvents d h s.tHold u l
               outcomes := s.outcomes ++ [.ok (.reg (word16 u l))], pc := s.pc + 1 } := by
  obtain ⟨u, l, h1, h2⟩ := readHalf_spec s d h
  refine ⟨(s.readHalf d h).env, u, l, ?_⟩
  unfold State.bodyReadl
  rw [h2, (keeps_readHalf s d h).eq, h1]
  simp [State.ret, State.answer]

/-- READR's sequence (R137). -/
theorem bodyReadr_spec (d : Nat) (h : Half) (s : State) :
    ∃ e u l, State.bodyReadr d h s =
      { s with ctrs := s.ctrs.modify d (fun c => { c.gatesReleased h with rclk := .L }), env := e
               hist := s.hist ++ regEvents d h s.tHold u l
               outcomes := s.outcomes ++ [.ok (.reg (word16 u l))], pc := s.pc + 1 } := by
  obtain ⟨u, l, h1, h2⟩ := readReg_spec s d h
  refine ⟨(s.readReg d h).env, u, l, ?_⟩
  unfold State.bodyReadr
  rw [h2, (keeps_readReg s d h).eq, h1]
  simp [State.ret, State.answer]

/-- The two READR sequences of READ32, half x before half y. -/
theorem twoReads_spec (s : State) (d : Nat) (x y : Half) :
    ∃ e ux lx uy ly, ((s.readReg d x).readReg d y) =
        { s with ctrs := s.ctrs.modify d (fun c => { (c.gatesReleased x).gatesReleased y with rclk := .L }), env := e
                 hist := s.hist ++ (regEvents d x s.tHold ux lx ++ regEvents d y s.tHold uy ly) }
      ∧ s.regValue d x = word16 ux lx ∧ (s.readReg d x).regValue d y = word16 uy ly := by
  obtain ⟨ux, lx, h1, h2⟩ := readReg_spec s d x
  obtain ⟨uy, ly, h3, h4⟩ := readReg_spec (s.readReg d x) d y
  refine ⟨((s.readReg d x).readReg d y).env, ux, lx, uy, ly, ?_, h2, h4⟩
  rw [((keeps_readReg s d x).trans (keeps_readReg (s.readReg d x) d y)).eq, h3, h1, readReg_ctrs, readReg_ctrs,
    modify_modify, readReg_buses, readReg_buses, (keeps_readReg s d x).tHold]
  simp only [List.append_assoc]
  rfl

/-- Every gate of the device released and RCLK low. -/
def CounterDev.allReleased (c : CounterDev) : CounterDev :=
  { c with gates := { gal := .H, gau := .H, gbl := .H, gbu := .H }, rclk := .L }

/-- READ32's sequence (R138, R139). -/
theorem bodyRead32_spec (d : Nat) (s : State) :
    ∃ e uB lB uA lA, State.bodyRead32 d s =
      { s with ctrs := s.ctrs.modify d CounterDev.allReleased, env := e
               hist := s.hist ++ (match s.readOrder with
                 | .ba => regEvents d .B s.tHold uB lB ++ regEvents d .A s.tHold uA lA
                 | .ab => regEvents d .A s.tHold uA lA ++ regEvents d .B s.tHold uB lB)
               outcomes := s.outcomes ++ [.ok (.word (word32 (word16 uB lB) (word16 uA lA)))], pc := s.pc + 1 } := by
  unfold State.bodyRead32
  cases ho : s.readOrder
  · obtain ⟨e, uB, lB, uA, lA, h1, h2, h3⟩ := twoReads_spec s d .B .A
    refine ⟨e, uB, lB, uA, lA, ?_⟩
    simp only [h1, h2, h3, State.ret, State.answer, ho]
    rfl
  · obtain ⟨e, uA, lA, uB, lB, h1, h2, h3⟩ := twoReads_spec s d .A .B
    refine ⟨e, uB, lB, uA, lA, ?_⟩
    simp only [h1, h2, h3, State.ret, State.answer, ho]
    rfl

/-- CLEAR's sequence (R160). -/
theorem bodyClear_spec (d : Nat) (s : State) :
    ∃ e, State.bodyClear d s =
      { s with ctrs := s.ctrs.modify d (fun c => { c with clr := .H }), env := e
               hist := s.hist ++ clearEvents d s.tHold, outcomes := s.outcomes ++ [.ok .none], pc := s.pc + 1 } := by
  refine ⟨(((s.drive (.clr d) .L).hold s.tHold).drive (.clr d) .H).env, ?_⟩
  unfold State.bodyClear
  rw [(((keeps_drive s (.clr d) .L).trans (keeps_hold _ s.tHold)).trans (keeps_drive _ (.clr d) .H)).eq]
  simp [State.ret, State.answer, setCtrPin, setBusPin, modify_modify, clearEvents]

/-- TOGB's sequence (R162, R163). -/
theorem bodyTogb_spec (d : Nat) (s : State) :
    ∃ e, State.bodyTogb d s =
      { s with ctrs := s.ctrs.modify d (fun c => { c with cben := s.togbLevel d, ben := benOfLevel (s.togbLevel d) })
               env := e, hist := s.hist ++ [.drive (.cben d) (s.togbLevel d)]
               outcomes := s.outcomes ++ [.ok (.bit (benOfLevel (s.togbLevel d)))], pc := s.pc + 1 } := by
  refine ⟨(s.drive (.cben d) (s.togbLevel d)).env, ?_⟩
  unfold State.bodyTogb
  simp only [State.modCtr, State.drive_ctrs, setCtrPin, modify_modify, State.ret, State.answer, State.drive_initDone,
    State.drive_readOrder, State.drive_tHold, State.drive_tSer, State.drive_buses, setBusPin, State.drive_hist,
    State.drive_outcomes, State.drive_program, State.drive_pc]

/-- OVF's sequence (R164). -/
theorem bodyOvf_spec (d : Nat) (s : State) :
    State.bodyOvf d s =
      { s with env := s.envNow, hist := s.hist ++ [.sampleOVF d s.ovfSample]
               outcomes := s.outcomes ++ [.ok (.bit s.ovfSample)], pc := s.pc + 1 } := rfl

/-! ### Checks and sequence of every command -/

/-- The checks of a command after check 1 (R252). -/
def checksOf (s : State) : Instr → List (Option ErrCode)
  | .init => [s.checkReinit]
  | .latch d => s.checksCounter d
  | .readl d h => s.checksRead16 d h
  | .readr d h => s.checksRead16 d h
  | .read32 d => s.checksRead32 d
  | .read d h => s.checksRead d h
  | .clear d => s.checksCounter d
  | .togb d => s.checksCounter d ++ [s.checkCben d]
  | .ovf d => s.checksCounter d ++ [s.checkOvf d]
  | .tick => [s.checkInit]
  | .dlwr b c _ => s.checksLine b c
  | .dlinc b c _ => s.checksLine b c
  | .dldec b c _ => s.checksLine b c
  | .dlget b c => s.checksLine b c

/-- The sequence of a command whose checks pass. -/
def bodyOf (s : State) : Instr → State
  | .init => s.bodyInit
  | .latch d => s.bodyLatch d
  | .readl d h => s.bodyReadl d h
  | .readr d h => s.bodyReadr d h
  | .read32 d => s.bodyRead32 d
  | .read d h => s.bodyRead d h
  | .clear d => s.bodyClear d
  | .togb d => s.bodyTogb d
  | .ovf d => s.bodyOvf d
  | .tick => s.bodyTick
  | .dlwr b c v => s.writeLine b c v
  | .dlinc b c delta => s.writeLine b c (delayPlus (s.line b c).cur delta)
  | .dldec b c delta => s.writeLine b c (delayMinus (s.line b c).cur delta)
  | .dlget b c => s.bodyDlget b c

/-- A command whose checks pass runs its sequence. -/
theorem exec_run {i : Instr} {s : State} (h : firstFailed (checksOf s i) = none) : exec i s = .next (bodyOf s i) := by
  cases i <;> exact command_run h

/-- A command with a failed check answers the first failed one's error and does nothing else (R252, R253). -/
theorem exec_raise {i : Instr} {s : State} {c : ErrCode} (h : firstFailed (checksOf s i) = some c) :
    exec i s = .next (s.raise c) := by cases i <;> exact command_raise h

/-- Everything a command can do. -/
theorem exec_cases {i : Instr} {s t : State} (h : exec i s = .next t) :
    (firstFailed (checksOf s i) = none ∧ t = bodyOf s i)
      ∨ ∃ c, firstFailed (checksOf s i) = some c ∧ t = s.raise c := by
  cases hc : firstFailed (checksOf s i) with
  | none => rw [exec_run hc] at h; injection h with h; exact .inl ⟨rfl, h.symm⟩
  | some c => rw [exec_raise hc] at h; injection h with h; exact .inr ⟨c, rfl, h.symm⟩

theorem firstFailed_mem {cs : List (Option ErrCode)} {c : ErrCode} (h : firstFailed cs = some c) : some c ∈ cs := by
  induction cs with
  | nil => simp [firstFailed] at h
  | cons a cs ih => cases a <;> simp_all [firstFailed]

end Sys2Proof.Machine
end

