-- ==== Sys2Proof/Laws/Ready.lean ====
section
/-! SUPPORT. The values a read puts together as plain concatenations, and what a settled state gives a command: its
checks pass, and the pins it pulses come back to where they were. -/

namespace Sys2Proof.Machine

/-- The 16-bit value is upper ++ lower (R73). -/
theorem word16_append (u l : Byte) : word16 u l = u ++ l := by
  apply BitVec.eq_of_getLsbD_eq
  intro i hi
  simp only [word16, BitVec.getLsbD_or, BitVec.getLsbD_shiftLeft, BitVec.getLsbD_setWidth, BitVec.getLsbD_append]
  by_cases h : i < 8
  · simp [h, hi]
  · have : i - 8 < 16 := by omega
    simp [h, hi, this, BitVec.getLsbD_of_ge l i (by omega)]

/-- The 32-bit value is B ++ A (R74). -/
theorem word32_append (b a : Reg16) : word32 b a = b ++ a := by
  apply BitVec.eq_of_getLsbD_eq
  intro i hi
  simp only [word32, BitVec.getLsbD_or, BitVec.getLsbD_shiftLeft, BitVec.getLsbD_setWidth, BitVec.getLsbD_append]
  by_cases h : i < 16
  · simp [h, hi]
  · have : i - 16 < 32 := by omega
    simp [h, hi, this, BitVec.getLsbD_of_ge a i (by omega)]

/-- value32 = B.U ++ B.L ++ A.U ++ A.L (R74). -/
theorem word32_append4 (a b c d : Byte) : word32 (word16 a b) (word16 c d) = a ++ b ++ c ++ d := by
  rw [word32_append, word16_append, word16_append]
  apply BitVec.eq_of_getLsbD_eq
  intro i hi
  simp only [BitVec.getLsbD_append]
  by_cases h : i < 8
  · have : i < 16 := by omega
    simp [h, this]
  · by_cases h2 : i < 16
    · have : i - 8 < 8 := by omega
      simp [h, h2, this]
    · have h3 : ¬ i - 8 < 8 := by omega
      have h4 : i - 8 - 8 = i - 16 := by omega
      simp [h, h2, h3, h4]

/-- A settled device that a counter command may address has its pins at their idle levels (R43). -/
theorem settled_ready {s : State} {d : Nat} (h : s.Settled) (r : s.CounterReady d) :
    (s.ctr d).life = .ready ∧ (s.ctr d).gates = Gates.idle ∧ (s.ctr d).rclk = .L ∧ (s.ctr d).clr = .H
     ∧ (s.ctr d).BenSettled ∧ (s.ctr d).cfg.valid = true := by
  obtain ⟨r1, r2, r3⟩ := r
  have := h.1 _ (getD_mem s.ctrs d CounterDev.absent r2)
  change CounterDev.Settled _ (s.ctr d) at this
  unfold CounterDev.Settled at this
  cases hl : (s.ctr d).life <;> simp only [hl] at this
  · simp_all
  · obtain ⟨_, h1, ⟨h2, h3, h4⟩, h5, _⟩ := this
    exact ⟨rfl, h2, h3, h4, h5, h1⟩
  · simp_all

theorem ctr_modify_id {s : State} {d : Nat} {f : CounterDev → CounterDev} (h : f (s.ctr d) = s.ctr d) :
   s.ctrs.modify d f = s.ctrs := modify_id_at _ _ _ CounterDev.absent (fun _ => h)

theorem CounterDev.ext' {c c' : CounterDev} (h : c.cfg = c'.cfg ∧ c.life = c'.life ∧ c.ben = c'.ben
    ∧ c.ticked = c'.ticked ∧ c.chA = c'.chA ∧ c.chB = c'.chB ∧ c.gates = c'.gates ∧ c.rclk = c'.rclk
    ∧ c.clr = c'.clr ∧ c.cben = c'.cben) : c = c' := by
  cases c; cases c'; simp_all

/-- On a settled device the pulses of a counter command leave the devices as they were. -/
theorem pulses_restore {s : State} {d : Nat} (h : s.Settled) (r : s.CounterReady d) :
    s.ctrs.modify d (fun c => { c with rclk := .L }) = s.ctrs
      ∧ (∀ x, s.ctrs.modify d (CounterDev.gatesReleased x) = s.ctrs)
      ∧ (∀ x, s.ctrs.modify d (fun c => { CounterDev.gatesReleased x c with rclk := .L }) = s.ctrs)
      ∧ s.ctrs.modify d CounterDev.allReleased = s.ctrs
      ∧ s.ctrs.modify d (fun c => { c with clr := .H }) = s.ctrs := by
  obtain ⟨_, h1, h2, h3, _⟩ := settled_ready h r
  refine ⟨ctr_modify_id ?_, fun x => ctr_modify_id ?_, fun x => ctr_modify_id ?_, ctr_modify_id ?_, ctr_modify_id ?_⟩
  all_goals apply CounterDev.ext'
  all_goals simp [CounterDev.gatesReleased, CounterDev.allReleased, h1, h2, h3, set_idle]
  rfl

/-- Checks 2 to 7 of READL and READR pass. -/
theorem checksRead16_pass {s : State} {d : Nat} {h : Half} (r : s.CounterReady d) (hb : s.HalfEnabled d h) (hs : s.SelfTestOk d) :
   firstFailed (s.checksRead16 d h) = none := by
  obtain ⟨h1, h2, h3⟩ := checksCounter_pass r
  simp [State.checksRead16, State.checksCounter, firstFailed, h1, h2, h3, checkHalf_pass hb, checkSelfTest_pass hs]

theorem checkBEnabled_pass {s : State} {d : Nat} (hb : s.HalfEnabled d .B) : s.checkBEnabled d = none := checkHalf_pass hb

/-- Checks 2 to 7 of READ32 pass. -/
theorem checksRead32_pass {s : State} {d : Nat} (r : s.CounterReady d) (hm : (s.ctr d).cfg.dual16 = false)
    (hb : s.HalfEnabled d .B) (hs : s.SelfTestOk d) :
    firstFailed (s.checksRead32 d) = none := by
  obtain ⟨h1, h2, h3⟩ := checksCounter_pass r
  simp [State.checksRead32, State.checksCounter, firstFailed, h1, h2, h3, checkBEnabled_pass hb, checkSelfTest_pass hs,
      State.checkSingle32, hm]

/-- Checks 2 to 4 pass. -/
theorem checksCounter_allPass {s : State} {d : Nat} (r : s.CounterReady d) : firstFailed (s.checksCounter d) = none := by
  obtain ⟨h1, h2, h3⟩ := checksCounter_pass r
  simp [State.checksCounter, firstFailed, h1, h2, h3]

end Sys2Proof.Machine
end

