-- ==== Sys2Proof/Laws/Frames.lean ====
section
/-! SUPPORT. What each family of commands can do to the devices, the buses and the history, said once for the
frames: a counter command changes its device only, a delay-line command its bus only. -/

namespace Sys2Proof.Machine

/-- Every command is INIT, TICK, a counter command or a delay-line command. -/
theorem command_kinds (i : Instr) :
    i = .init ∨ i = .tick ∨ (∃ d, ctrIndex i = some d) ∨ ∃ b c, lineIndex i = some (b, c) := by
  cases i <;> simp [ctrIndex, lineIndex]

/-! ### What passing the checks says -/

/-- A counter command that runs addresses a device that exists and is not Halted, after INIT. -/
theorem counterReady_of_checks {s : State} {d : Nat} {cs : List (Option ErrCode)}
    (h : firstFailed (s.checksCounter d ++ cs) = none) : s.CounterReady d := by
  rw [firstFailed_eq_none] at h
  have h1 := h s.checkInit (by simp [State.checksCounter])
  have h2 := h (s.checkCtr d) (by simp [State.checksCounter])
  have h3 := h (s.checkHalted d) (by simp [State.checksCounter])
  refine ⟨?_, ?_, ?_⟩
  · unfold State.checkInit at h1; by_contra hc; simp [hc] at h1
  · unfold State.checkCtr at h2; by_contra hc; simp [hc] at h2
  · unfold State.checkHalted at h3; intro hc; simp [hc] at h3

/-- A delay-line command that runs addresses a line that exists, after INIT. -/
theorem lineReady_of_checks {s : State} {b c : Nat} (h : firstFailed (s.checksLine b c) = none) : s.LineReady b c := by
  rw [firstFailed_eq_none] at h
  have h1 := h s.checkInit (by simp [State.checksLine])
  have h2 := h (s.checkLine b c) (by simp [State.checksLine])
  have : b < s.buses.length ∧ c < (s.bus b).lines.length := by
    unfold State.checkLine at h2; by_contra hh; simp [hh] at h2
  refine ⟨?_, this⟩
  unfold State.checkInit at h1; by_contra hc; simp [hc] at h1

/-! ### Counter commands -/

/-- A counter command changes its own device only, and of that device only pins (and BEN, for TOGB). -/
theorem ctr_body {s : State} {i : Instr} {d : Nat} (h : ctrIndex i = some d) :
    ∃ (f : CounterDev → CounterDev) (e : Env) (evs : List Event) (r : Reply),
      bodyOf s i = { s with
        ctrs := s.ctrs.modify d f, env := e, hist := s.hist ++ evs, outcomes := s.outcomes ++ [r], pc := s.pc + 1 }
      ∧ (∀ c, (f c).cfg = c.cfg ∧ (f c).life = c.life ∧ (f c).ticked = c.ticked ∧ (f c).chA = c.chA
          ∧ (f c).chB = c.chB ∧ (i ≠ .togb d → (f c).ben = c.ben ∧ (f c).cben = c.cben)) := by
  cases i <;> simp only [ctrIndex, Option.some.injEq, reduceCtorEq] at h <;> subst h
  · obtain ⟨e, he⟩ := bodyLatch_spec _ s; exact ⟨_, e, _, _, he, fun c => ⟨rfl, rfl, rfl, rfl, rfl, fun _ => ⟨rfl,
      rfl⟩⟩⟩
  · obtain ⟨e, u, l, he⟩ := bodyReadl_spec _ _ s; exact ⟨_, e, _, _, he, fun c => ⟨rfl, rfl, rfl, rfl, rfl,
      fun _ => ⟨rfl, rfl⟩⟩⟩
  · obtain ⟨e, u, l, he⟩ := bodyReadr_spec _ _ s; exact ⟨_, e, _, _, he, fun c => ⟨rfl, rfl, rfl, rfl, rfl,
      fun _ => ⟨rfl, rfl⟩⟩⟩
  · obtain ⟨e, u, l, _, _, he⟩ := bodyRead32_spec _ s; exact ⟨_, e, _, _, he, fun c => ⟨rfl, rfl, rfl, rfl, rfl,
      fun _ => ⟨rfl, rfl⟩⟩⟩
  · simp only [bodyOf, State.bodyRead]
    split
    · obtain ⟨e, u, l, he⟩ := bodyReadr_spec _ _ s; exact ⟨_, e, _, _, he, fun c => ⟨rfl, rfl, rfl, rfl, rfl,
        fun _ => ⟨rfl, rfl⟩⟩⟩
    · obtain ⟨e, u, l, _, _, he⟩ := bodyRead32_spec _ s; exact ⟨_, e, _, _, he, fun c => ⟨rfl, rfl, rfl, rfl, rfl,
        fun _ => ⟨rfl, rfl⟩⟩⟩
  · obtain ⟨e, he⟩ := bodyClear_spec _ s; exact ⟨_, e, _, _, he, fun c => ⟨rfl, rfl, rfl, rfl, rfl, fun _ => ⟨rfl,
      rfl⟩⟩⟩
  · obtain ⟨e, he⟩ := bodyTogb_spec _ s; exact ⟨_, e, _, _, he, fun c => ⟨rfl, rfl, rfl, rfl, rfl,
      fun h => absurd rfl h⟩⟩
  · rename_i d0; refine ⟨id, s.envNow, [.sampleOVF d0 s.ovfSample], .ok (.bit s.ovfSample), ?_, fun c => ⟨rfl, rfl,
      rfl, rfl, rfl, fun _ => ⟨rfl, rfl⟩⟩⟩
    simp only [bodyOf]
    rw [bodyOvf_spec, List.modify_id]

theorem modify_cfg (l : List CounterDev) (d : Nat) (f : CounterDev → CounterDev) (hf : ∀ c,
    (f c).cfg = c.cfg) : (l.modify d f).map (fun c => c.cfg) = l.map (fun c => c.cfg) := by
  apply List.ext_getElem?; intro j
  simp only [List.getElem?_map, List.getElem?_modify]
  cases l[j]? <;> simp; split <;> simp [hf]

/-! ### Delay-line commands -/

/-- A delay-line command writes its line, or (DLGET) only answers. -/
theorem line_body {s : State} {i : Instr} {b c : Nat} (h : lineIndex i = some (b, c)) :
    (∃ v e, bodyOf s i = { s with
          buses := s.buses.modify b (SerialBus.afterWrite c v), env := e, hist := s.hist ++ writeEvents b c s.tSer v
          outcomes := s.outcomes ++ [.ok (.byte v)], pc := s.pc + 1 }
        ∧ ∃ w, i = .dlwr b c w ∨ i = .dlinc b c w ∨ i = .dldec b c w)
      ∨ (i = .dlget b c
        ∧ bodyOf s i = { s with outcomes := s.outcomes ++ [.ok (.byte (s.line b c).cur)], pc := s.pc + 1 }) := by
  cases i <;> simp only [lineIndex, Option.some.injEq, reduceCtorEq, Prod.mk.injEq] at h <;> obtain ⟨rfl, rfl⟩ := h
  · obtain ⟨e, he⟩ := writeLine_spec _ _ _ s; exact .inl ⟨_, e, he, _, .inl rfl⟩
  · obtain ⟨e, he⟩ := writeLine_spec _ _ _ s; exact .inl ⟨_, e, he, _, .inr (.inl rfl)⟩
  · obtain ⟨e, he⟩ := writeLine_spec _ _ _ s; exact .inl ⟨_, e, he, _, .inr (.inr rfl)⟩
  · exact .inr ⟨rfl, rfl⟩

/-- A serial write leaves every other bus and line, and its own line holds the value. -/
theorem afterWrite_bus {s t : State} {b c : Nat} {v : Byte} (ht : t.buses = s.buses.modify b (SerialBus.afterWrite c v)) :
   (∀ b', b' ≠ b → t.bus b' = s.bus b') ∧ (∀ c', c' ≠ c → t.line b c' = s.line b c') ∧ (b < s.buses.length →
       c < (s.bus b).lines.length → (t.line b c).cur = v) := by
  have h1 : ∀ b', b' ≠ b → t.bus b' = s.bus b' := by
    intro b' h; unfold State.bus; rw [ht]; exact getD_modify_ne _ _ _ _ _ h.symm
  have h2 : t.bus b = if b < s.buses.length then SerialBus.afterWrite c v (s.bus b) else s.bus b := by
    unfold State.bus; rw [ht, getD_modify]; simp
  refine ⟨h1, ?_, ?_⟩
  · intro c' hc; unfold State.line; rw [h2]; split
    · simp only [SerialBus.afterWrite]; exact getD_modify_ne _ _ _ _ _ hc.symm
    · rfl
  · intro hb hc; unfold State.line; rw [h2, if_pos hb]; simp only [SerialBus.afterWrite]
    rw [getD_modify_self _ _ _ _ hc]

theorem modify_lines (l : List SerialBus) (b c : Nat) (v : Byte) :
    (l.modify b (SerialBus.afterWrite c v)).map (fun x => x.lines.length) = l.map (fun x => x.lines.length) := by
  apply List.ext_getElem?; intro j
  simp only [List.getElem?_map, List.getElem?_modify]
  cases l[j]? <;> simp; split <;> simp [SerialBus.afterWrite]

/-- The pins a serial write drives. -/
theorem write_drives (b c n : Nat) (v : Byte) (p : Pin) (lv : Level) (h : Event.drive p lv ∈ writeEvents b c n v) :
    p = .sclk b ∨ p = .sdata b ∨ p = .latch b c := by
  simp [writeEvents, bitEvents] at h; aesop

/-! ### Histories -/

/-- The events of each command that passes its checks. -/
theorem body_hist (s : State) (i : Instr) : ∃ evs, (bodyOf s i).hist = s.hist ++ evs ∧
  (match i with
   | .init => evs = [.now s.timeNow]
          ++ (List.range s.ctrs.length).flatMap (fun d => initDeviceEvents d (s.ctr d).cfg)
          ++ (List.range s.buses.length).flatMap (fun b => initBusEvents b (s.bus b).lines.length)
   | .latch d => evs = latchEvents d s.tHold
   | .readl d h => ∃ u l, evs = halfEvents d h s.tHold u l
   | .readr d h => ∃ u l, evs = regEvents d h s.tHold u l
   | .read32 d => ∃ h h' u l u' l', evs = regEvents d h s.tHold u l ++ regEvents d h' s.tHold u' l'
   | .read d h => if (s.ctr d).cfg.dual16 then ∃ u l, evs = regEvents d h s.tHold u l else ∃ h h' u l u' l',
       evs = regEvents d h s.tHold u l ++ regEvents d h' s.tHold u' l'
   | .clear d => evs = clearEvents d s.tHold
   | .togb d => evs = [.drive (.cben d) (s.togbLevel d)]
   | .ovf d => evs = [.sampleOVF d s.ovfSample]
   | .tick => evs = [.now s.timeNow] ++ (List.range s.ctrs.length).flatMap (fun d => tickDeviceEvents s.timeNow d (s.ctr d))
   | .dlwr b c _ => ∃ v, evs = writeEvents b c s.tSer v
   | .dlinc b c _ => ∃ v, evs = writeEvents b c s.tSer v
   | .dldec b c _ => ∃ v, evs = writeEvents b c s.tSer v
   | .dlget _ _ => evs = []) := by
  have h32 : ∀ d, ∃ evs, (s.bodyRead32 d).hist = s.hist ++ evs ∧ ∃ h h' u l u' l',
      evs = regEvents d h s.tHold u l ++ regEvents d h' s.tHold u' l' := by
    intro d
    obtain ⟨e, u, l, u', l', he⟩ := bodyRead32_spec d s
    rw [he]
    cases ho : s.readOrder
    · exact ⟨_, rfl, .B, .A, u, l, u', l', rfl⟩
    · exact ⟨_, rfl, .A, .B, u', l', u, l, rfl⟩
  cases i with
  | init => obtain ⟨e, he⟩ := bodyInit_spec s; exact ⟨_, by simp only [bodyOf]; rw [he], rfl⟩
  | latch d => obtain ⟨e, he⟩ := bodyLatch_spec d s; exact ⟨_, by simp only [bodyOf]; rw [he], rfl⟩
  | readl d h => obtain ⟨e, u, l, he⟩ := bodyReadl_spec d h s; exact ⟨_, by simp only [bodyOf]; rw [he], u, l, rfl⟩
  | readr d h => obtain ⟨e, u, l, he⟩ := bodyReadr_spec d h s; exact ⟨_, by simp only [bodyOf]; rw [he], u, l, rfl⟩
  | read32 d => exact h32 d
  | read d h =>
    simp only [bodyOf, State.bodyRead]
    split
    · obtain ⟨e, u, l, he⟩ := bodyReadr_spec d h s; exact ⟨_, by rw [he], u, l, rfl⟩
    · exact h32 d
  | clear d => obtain ⟨e, he⟩ := bodyClear_spec d s; exact ⟨_, by simp only [bodyOf]; rw [he], rfl⟩
  | togb d => obtain ⟨e, he⟩ := bodyTogb_spec d s; exact ⟨_, by simp only [bodyOf]; rw [he], rfl⟩
  | ovf d => exact ⟨_, rfl, rfl⟩
  | tick => obtain ⟨e, he⟩ := bodyTick_spec s; exact ⟨_, by simp only [bodyOf]; rw [he], rfl⟩
  | dlwr b c v => obtain ⟨e, he⟩ := writeLine_spec b c v s; exact ⟨_, by simp only [bodyOf]; rw [he], _, rfl⟩
  | dlinc b c v => obtain ⟨e, he⟩ :=
      writeLine_spec b c (delayPlus (s.line b c).cur v) s; exact ⟨_, by simp only [bodyOf]; rw [he], _, rfl⟩
  | dldec b c v => obtain ⟨e, he⟩ :=
      writeLine_spec b c (delayMinus (s.line b c).cur v) s; exact ⟨_, by simp only [bodyOf]; rw [he], _, rfl⟩
  | dlget b c => exact ⟨[], by simp [bodyOf, State.bodyDlget, State.ret, State.answer], rfl⟩

theorem holdTotal_append (a b : List Event) : holdTotal (a ++ b) = holdTotal a + holdTotal b := by
  induction a with
  | nil => simp [holdTotal]
  | cons x a ih => cases x <;> simp [holdTotal, ih]; omega

theorem holdTotal_reg (d h n u l) : holdTotal (regEvents d h n u l) = 3 * n := by
  simp [regEvents, latchEvents, halfEvents, byteEvents, holdTotal]; omega

theorem holdTotal_half (d h n u l) : holdTotal (halfEvents d h n u l) = 2 * n := by
  simp [halfEvents, byteEvents, holdTotal]; omega

theorem holdTotal_bit (b n v) : holdTotal (bitEvents b n v) = 3 * n := by simp only [bitEvents, holdTotal]; omega

theorem holdTotal_write (b c n v) : holdTotal (writeEvents b c n v) = 24 * n := by
  simp only [writeEvents, List.flatMap_cons, List.flatMap_nil, holdTotal_append, holdTotal_bit, holdTotal]; omega

/-! ### An environment that stands still -/

theorem quiet_envNow {s : State} (h : s.env.movesBefore s.hist.length = []) : s.envNow = s.env := advance_of_no_moves h

theorem quiet_step {s t : State} {n : Nat} (hq : s.QuietFor (n + 1)) (hh : t.hist.length = s.hist.length + 1)
    (he : t.env.script = s.env.script) : t.QuietFor n := by
  intro i hi
  rw [movesBefore_of_script he, hh, Nat.add_assoc, Nat.add_comm 1]; exact hq _ (by omega)

end Sys2Proof.Machine
end

