-- ==== Sys2Proof/Laws/PerInstr.lean ====
section
/-! SUPPORT. One family of statements over all commands, one lemma per constructor: the encoded word selects the row
of its own mnemonic (spec/30_encoding.md R104). -/

namespace Sys2Proof.Laws.EncodeRow

/-- The word of i selects a row of the opcode map that bears i's mnemonic. -/
def Statement (i : Instr) : Prop := ∃ r ∈ opcodeTable, r.mnemonic = i.mnemonic ∧ r.selects (encode i) = true

theorem init : Statement .init := by
  simp [Statement, opcodeTable_fields, encode, selects_assemble, Instr.mnemonic]

theorem latch (d : Nat) : Statement (.latch d) := by
  simp [Statement, opcodeTable_fields, encode, selects_assemble, Instr.mnemonic]

theorem readl (d : Nat) (h : Half) : Statement (.readl d h) := by
  simp [Statement, opcodeTable_fields, encode, selects_assemble, Instr.mnemonic, halfField_and]

theorem readr (d : Nat) (h : Half) : Statement (.readr d h) := by
  simp [Statement, opcodeTable_fields, encode, selects_assemble, Instr.mnemonic, halfField_and]

theorem read32 (d : Nat) : Statement (.read32 d) := by
  simp [Statement, opcodeTable_fields, encode, selects_assemble, Instr.mnemonic]

theorem read (d : Nat) (h : Half) : Statement (.read d h) := by
  simp [Statement, opcodeTable_fields, encode, selects_assemble, Instr.mnemonic, halfField_and]

theorem clear (d : Nat) : Statement (.clear d) := by
  simp [Statement, opcodeTable_fields, encode, selects_assemble, Instr.mnemonic]

theorem togb (d : Nat) : Statement (.togb d) := by
  simp [Statement, opcodeTable_fields, encode, selects_assemble, Instr.mnemonic]

theorem ovf (d : Nat) : Statement (.ovf d) := by
  simp [Statement, opcodeTable_fields, encode, selects_assemble, Instr.mnemonic]

theorem tick : Statement .tick := by
  simp [Statement, opcodeTable_fields, encode, selects_assemble, Instr.mnemonic]

theorem dlwr (b c : Nat) (v : Byte) : Statement (.dlwr b c v) := by
  simp [Statement, opcodeTable_fields, encode, selects_assemble, Instr.mnemonic]

theorem dlinc (b c : Nat) (delta : Byte) : Statement (.dlinc b c delta) := by
  simp [Statement, opcodeTable_fields, encode, selects_assemble, Instr.mnemonic]

theorem dldec (b c : Nat) (delta : Byte) : Statement (.dldec b c delta) := by
  simp [Statement, opcodeTable_fields, encode, selects_assemble, Instr.mnemonic]

theorem dlget (b c : Nat) : Statement (.dlget b c) := by
  simp [Statement, opcodeTable_fields, encode, selects_assemble, Instr.mnemonic]

end Sys2Proof.Laws.EncodeRow
end

