-- ==== Sys2Proof/Tests/Slice0.lean ====
section
/-! SUPPORT. The model's own tests. Expected results are copied from spec/30_encoding.md section 5 and from
spec/95_test_vectors.md, whose names (L1-n, V-xn, K-x) the comments give. The second part holds one witness per
obligation with hypotheses. -/

namespace Sys2Proof.Tests

open Sys2Proof.Machine

/-! ### Building small states -/

/-- n events in which the environment makes no move, event i answering f i. -/
def answers (n : Nat) (f : Nat → Word) : List EnvInput :=
  (List.range n).map (fun i => { moves := [], draw := some (f i) })

/-- An environment with the given counter ICs and chips, no move, every draw 0, real time not modelled. -/
def envOf (ics : List (Option CounterIC)) (chips : List (List (Option DelayChip))) : Env :=
  { time := none, ics := ics, chips := chips, script := answers 60 (fun _ => 0#32) }

/-- One counter device with this CTRCFG and FREQA, everything else as K-D16. -/
def config (cfg : BitVec 16) (freqA : Word) : Params :=
  { Params.default with ctrs := [{ cfg := cfg, freqA := freqA, freqB := 0#32, dbus := 0 }] }

/-- K-D16, K-D16X, K-S32, K-S32B and K-ST of spec/95_test_vectors.md. -/
def kD16 : Params := config 0x00FF#16 0#32
def kD16X : Params := config 0x03FF#16 0#32
def kS32 : Params := config 0x00FE#16 0#32
def kS32B : Params := config 0x02FE#16 0#32
def kST : Params := config 0x04FF#16 100#32

/-- K-BAD: device 1 is Single32 with both OVF and CBEN. -/
def kBAD : Params :=
  { Params.default with
    ctrs := [{ cfg := 0x00FF#16, freqA := 0#32, freqB := 0#32, dbus := 0 },
             { cfg := 0x03FE#16, freqA := 0#32, freqB := 0#32, dbus := 1 }] }

/-- Reset with these parameters and this environment. -/
def fresh (p : Params) (e : Env) : State := { State.ofParams p with env := e }

/-- After INIT at time 1000, with an empty history. -/
def ready (p : Params) (e : Env) : State :=
  { State.ofParams p with
    initDone := true
    ctrs := p.ctrs.map (fun q => (CounterDev.reset q).afterInit 1000#32)
    buses := p.nch.map (fun n => (SerialBus.reset n).afterInit)
    env := e }

/-- The answers a time read at event 0 gives. -/
def atTime (t : Word) : Env := { envOf [] [] with script := answers 60 (fun _ => t) }

def noEnv : Env := envOf [] []

/-- A counter IC on the experiment's signals. -/
def icOf (liveA liveB storeA storeB : Reg16) : CounterIC :=
  { liveA := liveA, liveB := liveB, storeA := storeA, storeB := storeB, clkA := .signal, clkB := .signal }

def withIC (ic : CounterIC) : Env := envOf [some ic] []

/-- Bus 0 with chip 0 MSB-first and chip 1 LSB-first. -/
def withChips : Env :=
  envOf [] [[some { sr := 0#8, out := none, lsbFirst := false }, some { sr := 0#8, out := none, lsbFirst := true }]]

/-- BEN = 0 with CBEN high, as after one TOGB. -/
def disableB (s : State) : State := s.modCtr 0 (fun c => { c with ben := false, cben := .H })

/-- A TICK has come. -/
def ticked (s : State) : State := s.modCtr 0 (fun c => { c with ticked := true })

/-- DLCUR[0][0] = v. -/
def withCur (s : State) (v : Byte) : State := s.modBus 0 (fun b => b.modLine 0 (fun l => { l with cur := v }))

/-- The host issues this word next. -/
def issuing (s : State) (w : Word) : State := { s with program := [.issue w] }

/-- The next state, if there is one. -/
def nextOf : Answer → Option State
  | .next s => some s
  | .fault _ => none
  | .refused _ => none

def outcomesOf (a : Answer) : Option (List Reply) := (nextOf a).map (fun s => s.outcomes)
def histOf (a : Answer) : Option (List Event) := (nextOf a).map (fun s => s.hist)
def statusOf (a : Answer) : Option (List (BitVec 8)) := (nextOf a).map (fun s => s.ctrs.map CounterDev.ctrstat)
def icsOf (a : Answer) : Option (List (Option CounterIC)) := (nextOf a).map (fun s => s.env.ics)
def chipOf (a : Answer) (c : Nat) : Option Byte := ((nextOf a).bind (fun s => s.env.chip? 0 c)).bind DelayChip.out

/-- SDATA[0] at the rising edges of SCLK[0] in a history. -/
def sdataAtEdges : Bool → List Event → List Bool
  | _, [] => []
  | _, .drive (.sdata 0) lv :: l => sdataAtEdges (lv == .H) l
  | v, .drive (.sclk 0) .H :: l => v :: sdataAtEdges v l
  | v, _ :: l => sdataAtEdges v l

/-! ### Well-formedness: each check refuses an ill-formed term -/

theorem test_illformed_counter_index :
    Instr.wellFormed (.latch 256) = false ∧ Instr.wellFormed (.readl 256 .A) = false
      ∧ Instr.wellFormed (.readr 256 .B) = false ∧ Instr.wellFormed (.read32 256) = false
      ∧ Instr.wellFormed (.read 256 .A) = false ∧ Instr.wellFormed (.clear 256) = false
      ∧ Instr.wellFormed (.togb 256) = false ∧ Instr.wellFormed (.ovf 256) = false := by decide

theorem test_illformed_bus_index :
    Instr.wellFormed (.dlwr 256 0 0#8) = false ∧ Instr.wellFormed (.dlinc 256 0 0#8) = false
      ∧ Instr.wellFormed (.dldec 256 0 0#8) = false ∧ Instr.wellFormed (.dlget 256 0) = false := by decide

theorem test_illformed_line_index :
    Instr.wellFormed (.dlwr 0 256 0#8) = false ∧ Instr.wellFormed (.dlinc 0 256 0#8) = false
      ∧ Instr.wellFormed (.dldec 0 256 0#8) = false ∧ Instr.wellFormed (.dlget 0 256) = false := by decide

theorem test_wellformed_at_boundary :
    Instr.wellFormed .init = true ∧ Instr.wellFormed .tick = true ∧ Instr.wellFormed (.ovf 255) = true
      ∧ Instr.wellFormed (.dlget 255 255) = true := by decide

/-! ### Decoding: OP, X, Y, IMM written out bit by bit from R101 and the opcode map of R104 -/

theorem test_decode_init : decode 0b00000001_00000000_00000000_00000000#32 = .ok .init := by decide
theorem test_decode_latch : decode 0b00000010_00000101_00000000_00000000#32 = .ok (.latch 5) := by decide
theorem test_decode_readl : decode 0b00000011_10000001_00000001_00000000#32 = .ok (.readl 129 .B) := by decide
theorem test_decode_readr : decode 0b00000100_00000001_00000000_00000000#32 = .ok (.readr 1 .A) := by decide
theorem test_decode_read32 : decode 0b00000101_11111111_00000000_00000000#32 = .ok (.read32 255) := by decide
theorem test_decode_read : decode 0b00000110_00000010_00000001_00000000#32 = .ok (.read 2 .B) := by decide
theorem test_decode_clear : decode 0b00000111_00000011_00000000_00000000#32 = .ok (.clear 3) := by decide
theorem test_decode_togb : decode 0b00001000_01000000_00000000_00000000#32 = .ok (.togb 64) := by decide
theorem test_decode_ovf : decode 0b00001001_00000010_00000000_00000000#32 = .ok (.ovf 2) := by decide
theorem test_decode_tick : decode 0b00001010_00000000_00000000_00000000#32 = .ok .tick := by decide
theorem test_decode_dlwr : decode 0b00010000_00000001_00000010_11001000#32 = .ok (.dlwr 1 2 200#8) := by decide
theorem test_decode_dlinc : decode 0b00010001_00000000_00000011_00001010#32 = .ok (.dlinc 0 3 10#8) := by decide
theorem test_decode_dldec : decode 0b00010010_00000000_00000001_00101100#32 = .ok (.dldec 0 1 44#8) := by decide
theorem test_decode_dlget : decode 0b00010011_00000111_00001000_00000000#32 = .ok (.dlget 7 8) := by decide

/-- The illegal words of spec/95_test_vectors.md 2.1. -/
theorem test_decode_illegal :
    decode 0x00000000#32 = .error (.reservedOp 0x00#8) ∧ decode 0x01000001#32 = .error (.mustBeZero "INIT")
      ∧ decode 0x02000001#32 = .error (.mustBeZero "LATCH") ∧ decode 0x03000200#32 = .error (.mustBeZero "READL")
      ∧ decode 0x0300FF00#32 = .error (.mustBeZero "READL") ∧ decode 0x05000100#32 = .error (.mustBeZero "READ32")
      ∧ decode 0x0A010000#32 = .error (.mustBeZero "TICK") ∧ decode 0x0B000000#32 = .error (.reservedOp 0x0B#8)
      ∧ decode 0x0F000000#32 = .error (.reservedOp 0x0F#8) ∧ decode 0x14000000#32 = .error (.reservedOp 0x14#8)
      ∧ decode 0xFF000000#32 = .error (.reservedOp 0xFF#8) ∧ decode 0x13000001#32 = .error (.mustBeZero "DLGET") := by
  decide

/-! ### Steps from reset -/

/-- INIT is the first command after reset. -/
theorem test_step_init_from_reset :
    (nextOf (step (State.reset.withFetchWord 32 0x01000000))).map (fun s => s.initDone) = some true := by decide

/-- V-E1: check 2 before check 5. -/
theorem test_step_read32_from_reset :
    outcomesOf (step (State.reset.withFetchWord 32 0x05000000)) = some [.err .notInit none] := by decide

/-- V-E2: check 1 before check 2. -/
theorem test_step_illegal_from_reset :
    outcomesOf (step (State.reset.withFetchWord 32 0x0B000000)) = some [.err .illegal none] := by decide

/-! ### INIT -/

/-- V-I12. -/
theorem test_init_arms_channel :
    statusOf (exec .init (fresh kST (atTime 1000#32))) = some [0x15#8]
      ∧ (nextOf (exec .init (fresh kST (atTime 1000#32)))).map (fun s => (s.ctr 0).chA)
        = some { run := true, lvl := false, half := 5000#32, last := 1000#32, pin := .L } := by decide

/-- V-I13. -/
theorem test_init_halts_bad_device :
    outcomesOf (exec .init (fresh kBAD noEnv)) = some [.err .config (some 1)]
      ∧ statusOf (exec .init (fresh kBAD noEnv)) = some [0x05#8, 0x02#8] := by decide

/-! ### LATCH, READL, READR, READ32, READ -/

/-- V-R1. -/
theorem test_latch_copies :
    icsOf (exec (.latch 0) (ready kD16 (withIC (icOf 5#16 0#16 0x1111#16 0x2222#16))))
      = some [some (icOf 5#16 0#16 5#16 0#16)] := by decide

/-- V-R21: the guard does not apply to LATCH. -/
theorem test_latch_not_guarded :
    outcomesOf (exec (.latch 0) (ready kST noEnv)) = some [.ok .none]
      ∧ histOf (exec (.latch 0) (ready kST noEnv))
        = some [.drive (.rclk 0) .H, .hold 2, .drive (.rclk 0) .L] := by decide

/-- V-R3. -/
theorem test_readl_b :
    outcomesOf (exec (.readl 0 .B) (ready kD16 (withIC (icOf 0#16 0#16 0#16 0xBEEF#16)))) = some [.ok (.reg 0xBEEF#16)]
      ∧ histOf (exec (.readl 0 .B) (ready kD16 (withIC (icOf 0#16 0#16 0#16 0xBEEF#16))))
        = some [.drive (.gate 0 .B .upper) .L, .hold 2, .sampleDB 0 0xBE#8, .drive (.gate 0 .B .upper) .H,
                .drive (.gate 0 .B .lower) .L, .hold 2, .sampleDB 0 0xEF#8, .drive (.gate 0 .B .lower) .H] := by decide

/-- V-R19: half A is read with B disabled. -/
theorem test_readl_a_with_b_disabled :
    outcomesOf (exec (.readl 0 .A) (disableB (ready kS32B (withIC (icOf 0#16 0#16 0x1234#16 0#16)))))
      = some [.ok (.reg 0x1234#16)] := by decide

/-- V-R6, L1-8. -/
theorem test_readr_joins_bytes :
    outcomesOf (exec (.readr 0 .A) (ready kD16 (withIC (icOf 0x0100#16 0#16 7#16 0#16)))) = some [.ok (.reg 0x0100#16)] := by
  decide

/-- V-R20. -/
theorem test_readr_guarded :
    outcomesOf (exec (.readr 0 .A) (ready kST noEnv)) = some [.err .selftest none] := by decide

/-- V-R9. -/
theorem test_read32_value :
    outcomesOf (exec (.read32 0) (ready kS32 (withIC (icOf 0x1234#16 0xABCD#16 0#16 0#16))))
      = some [.ok (.word 0xABCD1234#32)] := by decide

/-- A chained IC that counts once on A before event 11. -/
def tearing : Env :=
  { withIC { icOf 0xFFFF#16 1#16 0#16 0#16 with clkB := .chained } with
    script := (List.range 60).map (fun i => { moves := if i = 11 then [.pulseA 0] else [], draw := some 0#32 }) }

/-- V-R12: chained halves tear, order AB, one count on A between the two latches (event 11). -/
theorem test_read32_tears :
    outcomesOf (exec (.read32 0) { ready kS32 tearing with readOrder := .ab }) = some [.ok (.word 0x0002FFFF#32)] := by
  decide

/-- V-R14: in Single32 the half is ignored. -/
theorem test_read_single32 :
    outcomesOf (exec (.read 0 .A) (ready kS32 (withIC (icOf 3#16 2#16 0#16 0#16)))) = some [.ok (.word 0x00020003#32)] := by
  decide

/-- V-R15. -/
theorem test_read_dual16 :
    outcomesOf (exec (.read 0 .B) (ready kD16 (withIC (icOf 5#16 7#16 0#16 0#16)))) = some [.ok (.reg 7#16)] :=
        by decide

/-! ### CLEAR, TOGB, OVF -/

/-- V-C1; the draw 0 keeps the storage registers (V-C3). -/
theorem test_clear_zeroes_live :
    icsOf (exec (.clear 0) (ready kD16 (withIC (icOf 0x1234#16 9#16 7#16 8#16)))) = some [some (icOf 0#16 0#16 7#16 8#16)]
      ∧ histOf (exec (.clear 0) (ready kD16 noEnv))
        = some [.drive (.clr 0) .L, .hold 2, .drive (.clr 0) .H] := by decide

/-- V-C10. -/
theorem test_clear_not_guarded : outcomesOf (exec (.clear 0) (ready kST noEnv)) = some [.ok .none] := by decide

/-- V-C4. -/
theorem test_togb_disables :
    outcomesOf (exec (.togb 0) (ready kD16X noEnv)) = some [.ok (.bit false)]
      ∧ statusOf (exec (.togb 0) (ready kD16X noEnv)) = some [0x01#8]
      ∧ histOf (exec (.togb 0) (ready kD16X noEnv)) = some [.drive (.cben 0) .H] := by decide

/-- V-C11: check 4 before check 5. -/
theorem test_togb_halted : outcomesOf (exec (.togb 1) (ready kBAD noEnv)) = some [.err .config none] := by decide

/-- V-C7. -/
theorem test_ovf_passes_level_through :
    histOf (exec (.ovf 0) (ready kD16X (atTime 1#32))) = some [.sampleOVF 0 true]
      ∧ outcomesOf (exec (.ovf 0) (ready kD16X (atTime 1#32))) = some [.ok (.bit true)] := by decide

/-- V-C9. -/
theorem test_ovf_missing : outcomesOf (exec (.ovf 0) (ready kD16 noEnv)) = some [.err .noOvf none] := by decide

/-! ### TICK -/

/-- The table of halfPeriod in spec/95_test_vectors.md 2.5. -/
theorem test_half_period :
    halfPeriod 3#32 = 166667#32 ∧ halfPeriod 7#32 = 71429#32 ∧ halfPeriod 64#32 = 7813#32 ∧ halfPeriod 200000#32 = 3#32
      ∧ halfPeriod 333334#32 = 1#32 ∧ halfPeriod 1000000#32 = 1#32 ∧ halfPeriod 1000001#32 = 0#32
      ∧ halfPeriod 0xFFFFFFFF#32 = 0#32 := by decide

/-- V-T6: LAST before the wrap of the clock, t after it. -/
theorem test_tick_across_wrap :
    histOf (exec .tick ((ready kST (atTime 0x388#32)).modCtr 0 (fun c => { c with chA := { c.chA with last :=
        0xFFFFF000#32 } })))
      = some [.now 0x388#32, .drive (.tclk 0 .A) .H] := by decide

/-- V-T1: no toggle at 5999, but TICKED. -/
theorem test_tick_too_early :
    histOf (exec .tick (ready kST (atTime 5999#32))) = some [.now 5999#32]
      ∧ statusOf (exec .tick (ready kST (atTime 5999#32))) = some [0x1D#8] := by decide

/-! ### DLWR, DLINC, DLDEC, DLGET -/

set_option maxRecDepth 20000 in
/-- L1-2 and the event count of section 2.6. -/
theorem test_dlwr_streams_msb_first :
    (histOf (exec (.dlwr 0 0 0b10110000#8) (ready kD16 noEnv))).map (sdataAtEdges false)
        = some [true, false, true, true, false, false, false, false]
      ∧ (histOf (exec (.dlwr 0 0 0b10110000#8) (ready kD16 noEnv))).map List.length = some 50 := by decide

set_option maxRecDepth 20000 in
/-- L1-12: chip 1 shifts LSB-first and gets the reversal; chip 0 is untouched. -/
theorem test_dlwr_lsb_first_chip :
    chipOf (exec (.dlwr 0 1 176#8) (ready kD16 withChips)) 1 = some 13#8
      ∧ chipOf (exec (.dlwr 0 1 176#8) (ready kD16 withChips)) 0 = none := by decide

set_option maxRecDepth 20000 in
/-- L1-1, V-D4. -/
theorem test_dlinc_wraps :
    outcomesOf (exec (.dlinc 0 0 10#8) (withCur (ready kD16 withChips) 250#8)) = some [.ok (.byte 4#8)]
      ∧ chipOf (exec (.dlinc 0 0 10#8) (withCur (ready kD16 withChips) 250#8)) 0 = some 4#8 := by decide

/-- V-D7. -/
theorem test_dldec_wraps :
    outcomesOf (exec (.dldec 0 0 5#8) (withCur (ready kD16 noEnv) 3#8)) = some [.ok (.byte 254#8)] := by decide

/-- V-D11: no event. -/
theorem test_dlget_no_event :
    outcomesOf (exec (.dlget 0 0) (withCur (ready kD16 noEnv) 42#8)) = some [.ok (.byte 42#8)]
      ∧ histOf (exec (.dlget 0 0) (withCur (ready kD16 noEnv) 42#8)) = some [] := by decide

/-- 0x13000200 of section 2.1: NCH[0] = 2. -/
theorem test_dlget_no_such_line : outcomesOf (exec (.dlget 0 2) (ready kD16 noEnv)) = some [.err .noDevice none] := by
  decide

/-! ### Witnesses: for every obligation with hypotheses, a concrete state and operands that meet all of them -/

/-- A channel INIT armed or left idle is settled. -/
theorem settled_channel (q : CtrParams) (x : Half) (t : Word) : (Channel.reset.afterInit q x t).Settled q x := by
  unfold Channel.Settled Channel.afterInit
  split <;> simp [levelOfBit, Channel.reset]

/-- A device INIT made Ready or Halted is settled. -/
theorem settled_device (q : CtrParams) (t : Word) : ((CounterDev.reset q).afterInit t).Settled true := by
  unfold CounterDev.afterInit
  cases hv : (CounterDev.reset q).cfg.valid
  · exact ⟨rfl, hv, ⟨rfl, rfl, rfl, rfl, rfl, rfl⟩, rfl, rfl⟩
  · refine ⟨rfl, hv, ⟨rfl, rfl, rfl⟩, ?_, settled_channel q .A t, settled_channel q .B t⟩
    simp only [if_true, CounterDev.BenSettled]
    cases hc : (CounterDev.reset q).cfg.hasCben <;> simp [CounterDev.reset]

/-- Every state built by `ready` is settled. -/
theorem settled_ready_state (p : Params) (e : Env) : (ready p e).Settled := by
  constructor
  · intro c hc
    simp only [ready, List.mem_map] at hc
    obtain ⟨q, _, rfl⟩ := hc
    exact settled_device q 1000#32
  · intro b hb
    simp only [ready, List.mem_map] at hb
    obtain ⟨n, _, rfl⟩ := hb
    simp [ready, SerialBus.Settled, SerialBus.afterInit]

/-- The same with TICKED set. -/
theorem settled_ticked : (ticked (ready kST noEnv)).Settled := by
  refine ⟨?_, (settled_ready_state kST noEnv).2⟩
  have h := (settled_ready_state kST noEnv).1
  intro c hc
  simp only [ticked, State.modCtr, ready, kST, config, List.map_cons, List.map_nil, List.modify_zero_cons,
    List.mem_singleton] at hc
  have := settled_device { cfg := 0x04FF#16, freqA := 100#32, freqB := 0#32, dbus := 0 } 1000#32
  subst hc
  exact this

/-- Dual16 with CBEN high and B disabled. -/
theorem settled_disabled : (disableB (ready kD16X noEnv)).Settled := by
  refine ⟨?_, (settled_ready_state kD16X noEnv).2⟩
  intro c hc
  simp only [disableB, State.modCtr, ready, kD16X, config, List.map_cons, List.map_nil, List.modify_zero_cons,
    List.mem_singleton] at hc
  subst hc
  obtain ⟨h1, h2, h3, _, h5, h6⟩ :=
    settled_device { cfg := 0x03FF#16, freqA := 0#32, freqB := 0#32, dbus := 0 } 1000#32
  exact ⟨h1, h2, h3, ⟨by decide, by decide⟩, h5, h6⟩

/-! #### Encoding and steps -/

theorem witness_DecodeOfEncode :
    (Instr.latch 255).WellFormed ∧ (Instr.readl 0 .B).WellFormed ∧ (Instr.dlwr 255 255 0xFF#8).WellFormed := by
  simp [Instr.WellFormed]

theorem witness_EncodeOfDecode : decode 0x12FFFFFF#32 = .ok (.dldec 255 255 0xFF#8) := by decide

theorem witness_DecodeFollowsOpcodeMap :
    (∃ r ∈ opcodeTable, 0x13FFFF00#32 &&& r.mask = r.pattern) ∧ ∀ r ∈ opcodeTable,
        0x13000001#32 &&& r.mask ≠ r.pattern := by
  decide

theorem witness_StepRunsDecoded :
    (issuing (ready kD16 noEnv) 0x02000000#32).params.legal = true
      ∧ (issuing (ready kD16 noEnv) 0x02000000#32).program[0]? = some (.issue 0x02000000#32)
      ∧ decode 0x02000000#32 = .ok (.latch 0) := by decide

theorem witness_IllegalWordAnswered :
    (issuing (ready kD16 noEnv) 0x01000001#32).params.legal = true
      ∧ (issuing (ready kD16 noEnv) 0x01000001#32).program[0]? = some (.issue 0x01000001#32)
      ∧ (∀ r ∈ opcodeTable, 0x01000001#32 &&& r.mask ≠ r.pattern)
      ∧ ∃ r ∈ opcodeTable, 0x01000000#32 &&& r.mask = r.pattern := by decide

theorem witness_IllegalWordsListed : decode 0x0300FF00#32 = .error (.mustBeZero "READL") := by decide

/-- The largest and the smallest fields. -/
theorem witness_OperandsFromFields :
    decode 0x10FFFFFF#32 = .ok (.dlwr 255 255 0xFF#8) ∧ decode 0x03FF0100#32 = .ok (.readl 255 .B)
      ∧ decode 0x03000000#32 = .ok (.readl 0 .A) := by decide

theorem witness_WaitsWithoutAction : State.reset.params.legal = true ∧ State.reset.program[State.reset.pc]? = none := by
  decide

/-- Both sides of each bound of R7 and R33: NCTR, the lowest and the highest reserved bit, DBUS, NBUS, NCH. -/
theorem witness_IllegalParametersRefused_bounds :
    { kD16 with ctrs := [] }.legal = false
      ∧ (config 0x0FFF#16 0#32).legal = true ∧ (config 0x10FF#16 0#32).legal = false
      ∧ (config 0x80FF#16 0#32).legal = false
      ∧ kBAD.legal = true ∧ { kBAD with ctrs := kBAD.ctrs.take 1 ++ [{ kBAD.ctrs[1] with dbus := 2 }] }.legal = false
      ∧ { kD16 with nch := [] }.legal = false ∧ { kD16 with nch := [0] }.legal = false
      ∧ { kD16 with nch := [1, 256] }.legal = true ∧ { kD16 with nch := [1, 257] }.legal = false := by decide

set_option maxRecDepth 20000 in
/-- The same bounds at 256 and 257 devices and buses. -/
theorem witness_IllegalParametersRefused_counts :
    { kD16 with ctrs := List.replicate 256 kD16.ctrs[0] }.legal = true
      ∧ { kD16 with ctrs := List.replicate 257 kD16.ctrs[0] }.legal = false
      ∧ { kD16 with nch := List.replicate 256 1 }.legal = true
      ∧ { kD16 with nch := List.replicate 257 1 }.legal = false := by decide

/-- The refusal: bit 12 of CTRCFG is 1 in the state; and the host asks for such parameters. -/
theorem witness_IllegalParametersRefused :
    (State.ofParams (config 0x10FF#16 0#32)).params.legal = false ∧ State.reset.params.legal = true
      ∧ (config 0x10FF#16 0#32).legal = false
      ∧ ({ State.reset with program := [.powerCycle (config 0x10FF#16 0#32)] } : State).program[0]?
        = some (.powerCycle (config 0x10FF#16 0#32)) := by decide

theorem witness_PowerCycleResets :
    State.reset.params.legal = true ∧ kBAD.legal = true
      ∧ ({ State.reset with program := [.powerCycle kBAD] } : State).program[0]? = some (.powerCycle kBAD) := by decide

/-! #### Errors -/

theorem witness_NotInitRefused : Instr.ovf 0 ≠ .init ∧ State.reset.initDone = false := by decide

theorem witness_SecondInitRefused : (ready kD16 noEnv).initDone = true := by decide

/-- Each clause at its boundary: d = NCTR, b = NBUS, c = NCH[b]. -/
theorem witness_MissingDeviceRefused :
    (ready kD16 noEnv).initDone = true
      ∧ (ctrIndex (.clear 1) = some 1 ∧ (ready kD16 noEnv).ctrs.length ≤ 1)
      ∧ (lineIndex (.dlget 1 0) = some (1, 0) ∧ (ready kD16 noEnv).buses.length ≤ 1)
      ∧ (lineIndex (.dlwr 0 2 5#8) = some (0, 2) ∧ ((ready kD16 noEnv).bus 0).lines.length ≤ 2) := by decide

theorem witness_HaltedDeviceRefused :
    ctrIndex (.togb 1) = some 1 ∧ (ready kBAD noEnv).initDone = true ∧ 1 < (ready kBAD noEnv).ctrs.length
      ∧ ((ready kBAD noEnv).ctr 1).life = .halted := by decide

theorem ready_device_0 (p : Params) (h0 : 0 < p.ctrs.length) (h1 : ((ready p noEnv).ctr 0).life = .ready) (e : Env) :
    (ready p e).CounterReady 0 := by
  refine ⟨rfl, by simpa [ready] using h0, ?_⟩
  change ((ready p noEnv).ctr 0).life ≠ .halted
  rw [h1]; decide

theorem witness_ModeAndCapabilityRefused :
    (ready kD16 noEnv).CounterReady 0 ∧ ((ready kD16 noEnv).ctr 0).cfg.dual16 = true
      ∧ ((ready kD16 noEnv).ctr 0).cfg.hasCben = false ∧ ((ready kD16 noEnv).ctr 0).cfg.hasOvf = false :=
  ⟨ready_device_0 kD16 (by decide) (by decide) _, by decide, by decide, by decide⟩

/-- Clause 1 in both modes; clause 2 in Dual16. -/
theorem witness_DisabledBRefused :
    ((disableB (ready kD16X noEnv)).CounterReady 0 ∧ ((disableB (ready kD16X noEnv)).ctr 0).ben = false
        ∧ ((disableB (ready kD16X noEnv)).ctr 0).cfg.dual16 = true)
      ∧ ((disableB (ready kS32B noEnv)).CounterReady 0 ∧ ((disableB (ready kS32B noEnv)).ctr 0).ben = false
        ∧ ((disableB (ready kS32B noEnv)).ctr 0).cfg.dual16 = false)
      ∧ ∃ t, exec (.readl 0 .A) (disableB (ready kD16X noEnv)) = .next t :=
  ⟨⟨⟨by decide, by decide, by decide⟩, by decide, by decide⟩, ⟨⟨by decide, by decide, by decide⟩, by decide, by decide⟩,
    _, rfl⟩

/-- Clause 1 in Dual16 and in Single32; clause 2. -/
theorem witness_SelfTestGuards :
    ((ready kST noEnv).CounterReady 0 ∧ ((ready kST noEnv).ctr 0).chA.run = true
        ∧ ((ready kST noEnv).ctr 0).ticked = false
        ∧ (ready kST noEnv).HalfEnabled 0 .B ∧ ((ready kST noEnv).ctr 0).cfg.dual16 = true)
      ∧ ((ready (config 0x04FE#16 100#32) noEnv).CounterReady 0
        ∧ ((ready (config 0x04FE#16 100#32) noEnv).ctr 0).chA.run = true
        ∧ ((ready (config 0x04FE#16 100#32) noEnv).ctr 0).ticked = false
        ∧ ((ready (config 0x04FE#16 100#32) noEnv).ctr 0).cfg.dual16 = false
        ∧ ((ready (config 0x04FE#16 100#32) noEnv).ctr 0).ben = true)
      ∧ outcomesOf (exec (.readl 0 .B) (ready kST noEnv)) = some [.err .selftest none] :=
  ⟨⟨ready_device_0 kST (by decide) (by decide) _, by decide, by decide, fun _ => by decide, by decide⟩,
    ⟨ready_device_0 _ (by decide) (by decide) _, by decide, by decide, by decide, by decide⟩, by decide⟩

/-- A usage error, and an E_CONFIG that is not INIT's. -/
theorem witness_UsageErrorChangesNothing :
    outcomesOf (exec (.read32 0) (ready kD16 noEnv)) = some [.err .mode none] ∧ ErrCode.tier .mode = .usage
      ∧ outcomesOf (exec (.latch 1) (ready kBAD noEnv)) = some [.err .config none] ∧ Instr.latch 1 ≠ .init := by decide

/-! #### Results of the counter commands -/

/-- LATCH and CLEAR: also while the self-test guard would stop a read. -/
theorem witness_LatchCompletes : (ready kST noEnv).Settled ∧ (ready kST noEnv).CounterReady 0 :=
  ⟨settled_ready_state _ _, ready_device_0 kST (by decide) (by decide) _⟩

theorem witness_ClearCompletes : (ready kD16 noEnv).Settled ∧ (ready kD16 noEnv).CounterReady 0 :=
  ⟨settled_ready_state _ _, ready_device_0 kD16 (by decide) (by decide) _⟩

theorem no_channel_runs (s : State) (d : Nat) (ha : (s.ctr d).chA.run = false) (hb : (s.ctr d).chB.run = false) :
    s.SelfTestOk d := by
  rintro (h | h)
  · rw [ha] at h; cases h
  · rw [hb] at h; cases h

/-- READL of half A with B disabled, and of half B with B enabled. -/
theorem witness_ReadlCompletes :
    ((disableB (ready kD16X noEnv)).Settled ∧ (disableB (ready kD16X noEnv)).CounterReady 0
        ∧ (disableB (ready kD16X noEnv)).HalfEnabled 0 .A ∧ (disableB (ready kD16X noEnv)).SelfTestOk 0)
      ∧ ((ready kD16X noEnv).Settled ∧ (ready kD16X noEnv).CounterReady 0 ∧ (ready kD16X noEnv).HalfEnabled 0 .B
        ∧ (ready kD16X noEnv).SelfTestOk 0) :=
  ⟨⟨settled_disabled, ⟨by decide, by decide, by decide⟩, (fun h => by cases h),
      no_channel_runs _ _ (by decide) (by decide)⟩,
    settled_ready_state _ _, ready_device_0 kD16X (by decide) (by decide) _, fun _ => by decide,
    no_channel_runs _ _ (by decide) (by decide)⟩

/-- READR with a running self-test channel, after a TICK. -/
theorem witness_ReadrCompletes :
    (ticked (ready kST noEnv)).Settled ∧ (ticked (ready kST noEnv)).CounterReady 0
      ∧ (ticked (ready kST noEnv)).HalfEnabled 0 .B ∧ (ticked (ready kST noEnv)).SelfTestOk 0 :=
  ⟨settled_ticked, ⟨by decide, by decide, by decide⟩, fun _ => by decide, fun _ => by decide⟩

theorem witness_Read32Completes :
    (ready kS32 noEnv).Settled ∧ (ready kS32 noEnv).CounterReady 0 ∧ ((ready kS32 noEnv).ctr 0).cfg.dual16 = false
      ∧ (ready kS32 noEnv).HalfEnabled 0 .B ∧ (ready kS32 noEnv).SelfTestOk 0 :=
  ⟨settled_ready_state _ _, ready_device_0 kS32 (by decide) (by decide) _, by decide, fun _ => by decide,
    no_channel_runs _ _ (by decide) (by decide)⟩

/-- READ: clause 1 in Dual16, with half A of a disabled B and with half B; clause 2 in Single32. -/
theorem witness_ReadCompletes :
    ((disableB (ready kD16X noEnv)).Settled ∧ (disableB (ready kD16X noEnv)).CounterReady 0
        ∧ (disableB (ready kD16X noEnv)).SelfTestOk 0 ∧ ((disableB (ready kD16X noEnv)).ctr 0).cfg.dual16 = true
        ∧ (disableB (ready kD16X noEnv)).HalfEnabled 0 .A)
      ∧ ((ready kD16 noEnv).Settled ∧ (ready kD16 noEnv).CounterReady 0 ∧ (ready kD16 noEnv).SelfTestOk 0
        ∧ ((ready kD16 noEnv).ctr 0).cfg.dual16 = true ∧ (ready kD16 noEnv).HalfEnabled 0 .B)
      ∧ ((ready kS32 noEnv).Settled ∧ (ready kS32 noEnv).CounterReady 0 ∧ (ready kS32 noEnv).SelfTestOk 0
        ∧ ((ready kS32 noEnv).ctr 0).cfg.dual16 = false ∧ (ready kS32 noEnv).HalfEnabled 0 .B) :=
  ⟨⟨settled_disabled, ⟨by decide, by decide, by decide⟩, no_channel_runs _ _ (by decide) (by decide), by decide,
      fun h => by cases h⟩,
    ⟨settled_ready_state _ _, ready_device_0 kD16 (by decide) (by decide) _,
        no_channel_runs _ _ (by decide) (by decide),
      by decide, fun _ => by decide⟩,
    settled_ready_state _ _, ready_device_0 kS32 (by decide) (by decide) _, no_channel_runs _ _ (by decide) (by decide),
    by decide, fun _ => by decide⟩

/-- TOGB from both levels of CBEN. -/
theorem witness_TogbCompletes :
    ((ready kD16X noEnv).CounterReady 0 ∧ ((ready kD16X noEnv).ctr 0).cfg.hasCben = true
        ∧ ((ready kD16X noEnv).ctr 0).cben = .L)
      ∧ ((disableB (ready kD16X noEnv)).CounterReady 0 ∧ ((disableB (ready kD16X noEnv)).ctr 0).cfg.hasCben = true
        ∧ ((disableB (ready kD16X noEnv)).ctr 0).cben = .H) :=
  ⟨⟨ready_device_0 kD16X (by decide) (by decide) _, by decide, by decide⟩, ⟨by decide, by decide, by decide⟩, by decide,
    by decide⟩

theorem witness_TwoTogbsRestore :
    (ready kS32B noEnv).Settled ∧ (ready kS32B noEnv).CounterReady 0 ∧ ((ready kS32B noEnv).ctr 0).cfg.hasCben = true :=
  ⟨settled_ready_state _ _, ready_device_0 kS32B (by decide) (by decide) _, by decide⟩

theorem witness_OvfCompletes : (ready kD16X noEnv).CounterReady 0 ∧ ((ready kD16X noEnv).ctr 0).cfg.hasOvf = true :=
  ⟨ready_device_0 kD16X (by decide) (by decide) _, by decide⟩

/-! #### Self-test -/

theorem witness_TickCompletes : (ready kST noEnv).initDone = true := by decide

/-- A running channel last reloaded just before the clock wraps. -/
def nearWrap : Channel := { run := true, lvl := false, half := 5000#32, last := 0xFFFFF000#32, pin := .L }

/-- K-ST with this self-test channel A in device 0, and this time source. -/
def withChanA (ch : Channel) (t : Word) : State :=
  { ready kST (atTime t) with ctrs := (ready kST noEnv).ctrs.map (fun c => { c with chA := ch }) }

/-- Each clause across the wrap of the 32-bit count: due at elapsed = HALF; not due at HALF - 1, nor where the
channel is idle, as channel B here. -/
theorem witness_ChannelTogglesWhenDue :
    ((withChanA nearWrap 0#32).ctr 0).chan .A = nearWrap
      ∧ (nearWrap.run = true ∧ nearWrap.half.toNat ≤ ((0x388#32 : Word).toNat + (2 ^ 32 - nearWrap.last.toNat)) % 2 ^ 32)
      ∧ ¬ (nearWrap.run = true
        ∧ nearWrap.half.toNat ≤ ((0x387#32 : Word).toNat + (2 ^ 32 - nearWrap.last.toNat)) % 2 ^ 32)
      ∧ ¬ ((((withChanA nearWrap 0#32).ctr 0).chan .B).run = true
        ∧ (((withChanA nearWrap 0#32).ctr 0).chan .B).half.toNat
          ≤ ((0x388#32 : Word).toNat + (2 ^ 32 - (((withChanA nearWrap 0#32).ctr 0).chan .B).last.toNat)) % 2 ^ 32) := by
  decide

theorem witness_OneTogglePerTick : ∃ t, exec .tick (ready kST (atTime 20000#32)) = .next t := ⟨_, rfl⟩

theorem witness_HalfPeriodRoundsToNearest : (1#32 : Word) ≠ 0#32 ∧ (0xFFFFFFFF#32 : Word) ≠ 0#32 := by decide

/-- V-T6: T1 before the wrap of the 32-bit count, T2 after it; the TICK drives TCLKA. -/
theorem witness_TogglesAreHalfApart :
    (0xFFFFF000 : Nat) ≤ 0x100000388
      ∧ (((withChanA nearWrap 0x388#32).ctr 0).chan .A).last = BitVec.ofNat 32 0xFFFFF000
      ∧ histOf (exec .tick (withChanA nearWrap 0x388#32))
        = some ((withChanA nearWrap 0x388#32).hist ++ [.now (BitVec.ofNat 32 0x100000388), .drive (.tclk 0 .A) .H])
      ∧ Event.drive (.tclk 0 .A) .H ∈ [Event.drive (.tclk 0 .A) .H] := by decide

/-- V-T8: f = 1000001 gives half-period 0. -/
theorem witness_ZeroHalfTogglesAlways :
    let s := ready (config 0x04FF#16 1000001#32) noEnv
    s.initDone = true ∧ 0 < s.ctrs.length ∧ (s.ctr 0).life = .ready ∧ ((s.ctr 0).chan .A).run = true
      ∧ ((s.ctr 0).chan .A).half = 0#32 := by decide

/-! #### Delay lines: the last line of the bus -/

theorem witness_DlwrCompletes : (ready kD16 noEnv).LineReady 0 1 := ⟨by decide, by decide, by decide⟩
theorem witness_DlincCompletes : (ready kD16 noEnv).LineReady 0 0 := ⟨by decide, by decide, by decide⟩
theorem witness_DldecCompletes : (withCur (ready kD16 noEnv) 3#8).LineReady 0 0 := ⟨by decide, by decide, by decide⟩

/-- Delay lines need no Ready counter device: device 1 of K-BAD is Halted. -/
theorem witness_DlgetCompletes : (ready kBAD noEnv).LineReady 0 1 := ⟨by decide, by decide, by decide⟩

set_option maxRecDepth 20000 in
/-- Clause 1: DLCUR changes from 0 to 5. Clause 2: the same write answers ok(5). -/
theorem witness_DlcurIsLastWritten :
    (nextOf (exec (.dlwr 0 1 5#8) (ready kD16 noEnv))).map (fun t => (t.line 0 1).cur) = some 5#8
      ∧ ((ready kD16 noEnv).line 0 1).cur = 0#8
      ∧ outcomesOf (exec (.dlwr 0 1 5#8) (ready kD16 noEnv)) = some ((ready kD16 noEnv).outcomes ++ [.ok (.byte 5#8)]) := by
  decide

set_option maxRecDepth 20000 in
/-- Clause 2 for DLINC and DLDEC, at the wrap of the 8-bit value. -/
theorem witness_DlcurIsLastWritten_wrap :
    outcomesOf (exec (.dlinc 0 0 10#8) (withCur (ready kD16 noEnv) 250#8)) = some [.ok (.byte 4#8)]
      ∧ outcomesOf (exec (.dldec 0 0 5#8) (withCur (ready kD16 noEnv) 3#8)) = some [.ok (.byte 254#8)] := by decide

/-! #### INIT, frames and invariants -/

/-- Every device valid; and a lowest bad device, 1. -/
theorem witness_InitCompletes :
    (fresh kD16 noEnv).initDone = false ∧ (∀ d, d < (fresh kD16 noEnv).ctrs.length →
        ((fresh kD16 noEnv).ctr d).cfg.valid = true)
      ∧ (fresh kBAD noEnv).initDone = false ∧ 1 < (fresh kBAD noEnv).ctrs.length
      ∧ ((fresh kBAD noEnv).ctr 1).cfg.valid = false ∧ ∀ d', d' < 1 → ((fresh kBAD noEnv).ctr d').cfg.valid = true := by
  decide

/-- A TOGB, which may write BEN, and a CLEAR, which may not. -/
theorem witness_CounterCommandFrame :
    ctrIndex (.togb 0) = some 0 ∧ (∃ t, exec (.togb 0) (ready kD16X noEnv) = .next t)
      ∧ ctrIndex (.clear 0) = some 0 ∧ (∃ t, exec (.clear 0) (ready kD16X noEnv) = .next t) ∧ Instr.clear 0 ≠ .togb 0 :=
  ⟨by decide, ⟨_, rfl⟩, by decide, ⟨_, rfl⟩, by decide⟩

theorem witness_DelayCommandFrame :
    lineIndex (.dlinc 0 1 10#8) = some (0, 1) ∧ (ready kD16 noEnv).LineReady 0 1
      ∧ ∃ t, exec (.dlinc 0 1 10#8) (ready kD16 noEnv) = .next t :=
  ⟨by decide, ⟨by decide, by decide, by decide⟩, _, rfl⟩

theorem witness_ParametersNeverWritten : ∃ t, exec .init (fresh kST noEnv) = .next t := ⟨_, rfl⟩

/-- INIT, and a command that is not INIT. -/
theorem witness_InitDoneWrittenByInitOnly :
    (∃ t, exec .init (fresh kBAD noEnv) = .next t) ∧ ∃ t, exec .tick (fresh kBAD noEnv) = .next t := ⟨⟨_, rfl⟩, _, rfl⟩

/-- A Ready device and a Halted one. -/
theorem witness_LifeIsFinal :
    (ready kBAD noEnv).Settled ∧ (∃ t, exec .tick (ready kBAD noEnv) = .next t)
      ∧ ((ready kBAD noEnv).ctr 0).life = .ready ∧ ((ready kBAD noEnv).ctr 1).life = .halted :=
  ⟨settled_ready_state _ _, ⟨_, rfl⟩, by decide, by decide⟩

theorem witness_TimeReadByInitAndTickOnly :
    (nextOf (exec .tick (ready kD16 (atTime 7#32)))).map (fun t => t.hist) = some [.now 7#32] := by decide

theorem witness_MinimumDurations :
    outcomesOf (exec (.clear 0) (ready kD16 noEnv)) = some [.ok .none]
      ∧ outcomesOf (exec (.read 0 .A) (ready kS32 noEnv)) = some [.ok (.word 0#32)]
      ∧ outcomesOf (exec (.read 0 .A) (ready kD16 noEnv)) = some [.ok (.reg 0#16)] := by decide

/-- A command, and a power cycle. -/
theorem witness_SettledKeptByStep :
    (issuing (ready kD16X noEnv) 0x08000000#32).Settled ∧ (∃ t,
        step (issuing (ready kD16X noEnv) 0x08000000#32) = .next t)
      ∧ ({ State.reset with program := [.powerCycle kBAD] } : State).Settled
      ∧ ∃ t, step { State.reset with program := [.powerCycle kBAD] } = .next t := by
  refine ⟨settled_ready_state kD16X noEnv, ⟨_, rfl⟩, ⟨?_, ?_⟩, _, rfl⟩
  · intro c hc
    simp only [State.reset, State.ofParams, Params.default, List.map_cons, List.map_nil, List.mem_singleton] at hc
    subst hc
    exact ⟨rfl, ⟨rfl, rfl, rfl, rfl, rfl, rfl⟩, rfl, rfl, rfl, rfl⟩
  · intro b hb
    simp only [State.reset, State.ofParams, Params.default, List.map_cons, List.map_nil, List.mem_singleton] at hb
    subst hb
    exact ⟨rfl, rfl, by decide⟩

theorem witness_BusExclusiveAtEveryEvent :
    (ready kS32 noEnv).Settled ∧ ∃ t, exec (.read32 0) (ready kS32 noEnv) = .next t := ⟨settled_ready_state _ _, _, rfl⟩

/-! #### The attached devices -/

def sampleIC : CounterIC := icOf 0x1234#16 0xABCD#16 7#16 8#16

theorem witness_LatchCopiesBothHalves :
    (ready kD16 (withIC sampleIC)).Settled ∧ (ready kD16 (withIC sampleIC)).CounterReady 0
      ∧ (ready kD16 (withIC sampleIC)).envNow.ic? 0 = some sampleIC :=
  ⟨settled_ready_state _ _, ready_device_0 kD16 (by decide) (by decide) _, by decide⟩

/-- Both halves of READL, READR and of a READR after a CLEAR. -/
theorem witness_ReadlReturnsStorage :
    (ready kD16 (withIC sampleIC)).Settled ∧ (ready kD16 (withIC sampleIC)).CounterReady 0
      ∧ (∀ h, (ready kD16 (withIC sampleIC)).HalfEnabled 0 h) ∧ (ready kD16 (withIC sampleIC)).SelfTestOk 0
      ∧ busQuiet (ready kD16 (withIC sampleIC)).ctrs 0 = true
          ∧ (ready kD16 (withIC sampleIC)).env.ic? 0 = some sampleIC :=
  ⟨settled_ready_state _ _, ready_device_0 kD16 (by decide) (by decide) _, fun _ _ => by decide,
    no_channel_runs _ _ (by decide) (by decide), by decide, by decide⟩

theorem witness_ReadrReturnsLiveCount :
    (ready kD16 (withIC sampleIC)).Settled ∧ (ready kD16 (withIC sampleIC)).CounterReady 0
      ∧ (∀ h, (ready kD16 (withIC sampleIC)).HalfEnabled 0 h) ∧ (ready kD16 (withIC sampleIC)).SelfTestOk 0
      ∧ busQuiet (ready kD16 (withIC sampleIC)).ctrs 0 = true
          ∧ (ready kD16 (withIC sampleIC)).envNow.ic? 0 = some sampleIC :=
  ⟨settled_ready_state _ _, ready_device_0 kD16 (by decide) (by decide) _, fun _ _ => by decide,
    no_channel_runs _ _ (by decide) (by decide), by decide, by decide⟩

theorem witness_Read32OfStillCounter :
    (ready kS32 (withIC sampleIC)).Settled ∧ (ready kS32 (withIC sampleIC)).CounterReady 0
      ∧ ((ready kS32 (withIC sampleIC)).ctr 0).cfg.dual16 = false ∧ (ready kS32 (withIC sampleIC)).HalfEnabled 0 .B
      ∧ (ready kS32 (withIC sampleIC)).SelfTestOk 0 ∧ busQuiet (ready kS32 (withIC sampleIC)).ctrs 0 = true
      ∧ (ready kS32 (withIC sampleIC)).env.ic? 0 = some sampleIC ∧ (ready kS32 (withIC sampleIC)).QuietFor 22 :=
  ⟨settled_ready_state _ _, ready_device_0 kS32 (by decide) (by decide) _, by decide, fun _ => by decide,
    no_channel_runs _ _ (by decide) (by decide), by decide, by decide,
    show ∀ i, i < 22 → (ready kS32 (withIC sampleIC)).env.movesBefore (0 + i) = [] by decide⟩

theorem witness_ReadAfterClearIsZero :
    (ready kD16 (withIC sampleIC)).Settled ∧ (ready kD16 (withIC sampleIC)).CounterReady 0
      ∧ (∀ h, (ready kD16 (withIC sampleIC)).HalfEnabled 0 h) ∧ (ready kD16 (withIC sampleIC)).SelfTestOk 0
      ∧ busQuiet (ready kD16 (withIC sampleIC)).ctrs 0 = true ∧ (ready kD16 (withIC sampleIC)).env.ic? 0 = some sampleIC
      ∧ (ready kD16 (withIC sampleIC)).env.movesBefore ((ready kD16 (withIC sampleIC)).hist.length + 3) = [] :=
  ⟨settled_ready_state _ _, ready_device_0 kD16 (by decide) (by decide) _, fun _ _ => by decide,
    no_channel_runs _ _ (by decide) (by decide), by decide, by decide, by decide⟩

/-- An MSB-first chip and an LSB-first one. -/
theorem witness_WriteReachesOneChip :
    (ready kD16 withChips).Settled ∧ (ready kD16 withChips).LineReady 0 0 ∧ (ready kD16 withChips).LineReady 0 1
      ∧ (ready kD16 withChips).env.chip? 0 0 = some { sr := 0#8, out := none, lsbFirst := false }
      ∧ (ready kD16 withChips).env.chip? 0 1 = some { sr := 0#8, out := none, lsbFirst := true } :=
  ⟨settled_ready_state _ _, ⟨by decide, by decide, by decide⟩, ⟨by decide, by decide, by decide⟩, by decide, by decide⟩

end Sys2Proof.Tests
end

section
/-! The reset state and what no command but a few may write: INIT_DONE, LIFE and DLCUR
(spec/10_state.md R31, R39, R45, R48). -/

namespace Sys2Proof.Machine

/-! ### The state after reset (R48) -/

theorem ofParams_ctr (p : Params) (d : Nat) : ∃ q, (State.ofParams p).ctr d = CounterDev.reset q :=
  ⟨_, List.getD_map _ _ CounterDev.reset⟩

theorem ofParams_bus (p : Params) (b : Nat) : ∃ n, (State.ofParams p).bus b = SerialBus.reset n :=
  ⟨_, List.getD_map _ _ SerialBus.reset⟩

theorem mem_reset_lines {n : Nat} {l : DelayLine} (h : l ∈ (SerialBus.reset n).lines) : l = DelayLine.reset :=
  List.eq_of_mem_replicate h

theorem ofParams_line (p : Params) (b c : Nat) : (State.ofParams p).line b c = DelayLine.reset := by
  obtain ⟨n, hn⟩ := ofParams_bus p b
  simp only [State.line, hn, SerialBus.reset, List.getD_eq_getElem?_getD, List.getElem?_replicate]
  split <;> rfl

/-- No output pin is driven before the first command. -/
theorem ofParams_level (p : Params) (pin : Pin) : (State.ofParams p).level pin = .Z := by
  have ctrPin (d : Nat) (f : CounterDev → Level) (hf : ∀ q, f (CounterDev.reset q) = .Z) :
      f ((State.ofParams p).ctr d) = .Z := by
    obtain ⟨q, hq⟩ := ofParams_ctr p d
    rw [hq, hf]
  have busPin (b : Nat) (f : SerialBus → Level) (hf : ∀ n, f (SerialBus.reset n) = .Z) :
      f ((State.ofParams p).bus b) = .Z := by
    obtain ⟨n, hn⟩ := ofParams_bus p b
    rw [hn, hf]
  cases pin with
  | gate d h k => exact ctrPin d (fun c => c.gates.get h k) (fun _ => by cases h <;> cases k <;> rfl)
  | rclk d => exact ctrPin d CounterDev.rclk (fun _ => rfl)
  | clr d => exact ctrPin d CounterDev.clr (fun _ => rfl)
  | cben d => exact ctrPin d CounterDev.cben (fun _ => rfl)
  | tclk d x => exact ctrPin d (fun c => (c.chan x).pin) (fun _ => by cases x <;> rfl)
  | sclk b => exact busPin b SerialBus.sclk (fun _ => rfl)
  | sdata b => exact busPin b SerialBus.sdata (fun _ => rfl)
  | latch b c => exact congrArg DelayLine.latch (ofParams_line p b c)

/-- The state after reset holds the parameters it was reset with. -/
theorem ofParams_params (p : Params) : (State.ofParams p).params = p := by
  simp [State.params, State.ofParams, Function.comp_def, CounterDev.reset, SerialBus.reset]

theorem CounterDev.reset_ctrstat (q : CtrParams) : (CounterDev.reset q).ctrstat = 0x00#8 := by
  simp [CounterDev.ctrstat, CounterDev.reset, Channel.reset, Life.code]

/-- Settles O11: every device after reset is CounterDev.reset, every line DelayLine.reset. -/
theorem resetLeavesSpecValues : Obligations.ResetLeavesSpecValues := by
  intro p
  refine ⟨rfl, ?_, ofParams_level p, ?_, ofParams_params p⟩
  · intro c hc
    obtain ⟨q, -, rfl⟩ := List.mem_map.mp hc
    exact ⟨CounterDev.reset_ctrstat q, rfl, rfl, rfl, rfl, rfl, rfl, rfl⟩
  · intro bus hbus l hl
    obtain ⟨n, -, rfl⟩ := List.mem_map.mp hbus
    rw [mem_reset_lines hl]
    rfl

/-! ### A field that an update of the list keeps -/

theorem getD_modify_field {α β : Type} (field : α → β) {f : α → α} (hf : ∀ a, field (f a) = field a)
    (l : List α) (i j : Nat) (x : α) : field ((l.modify i f).getD j x) = field (l.getD j x) := by
  rw [getD_modify]
  split
  · exact hf _
  · rfl

theorem getD_map_field {α β : Type} (field : α → β) {f : α → α} (hf : ∀ a, field (f a) = field a)
    (l : List α) (j : Nat) (x : α) : field ((l.map f).getD j x) = field (l.getD j x) := by
  simp only [List.getD_eq_getElem?_getD, List.getElem?_map]
  cases l[j]? with
  | none => rfl
  | some a => exact hf a

/-! ### INIT_DONE (R31) -/

theorem ne_init_of_ctrIndex {i : Instr} {d : Nat} (h : ctrIndex i = some d) : i ≠ .init := by
  rintro rfl
  cases h

theorem ne_init_of_lineIndex {i : Instr} {b c : Nat} (h : lineIndex i = some (b, c)) : i ≠ .init := by
  rintro rfl
  cases h

/-- Of the commands that pass their checks only INIT writes INIT_DONE. -/
theorem bodyOf_initDone (s : State) (i : Instr) :
    (bodyOf s i).initDone = if i = .init then true else s.initDone := by
  obtain rfl | rfl | ⟨d, hd⟩ | ⟨b, c, hbc⟩ := command_kinds i
  · obtain ⟨e, he⟩ := bodyInit_spec s
    simp [bodyOf, he]
  · obtain ⟨e, he⟩ := bodyTick_spec s
    simp [bodyOf, he]
  · obtain ⟨f, e, evs, r, he, -⟩ := ctr_body (s := s) hd
    rw [he, if_neg (ne_init_of_ctrIndex hd)]
  · rw [if_neg (ne_init_of_lineIndex hbc)]
    obtain ⟨v, e, he, -⟩ | ⟨-, he⟩ := line_body (s := s) hbc <;> rw [he]

/-- INIT is refused exactly when INIT_DONE is 1 (R240). -/
theorem firstFailed_init (s : State) :
    firstFailed (checksOf s .init) = if s.initDone = true then some .reinit else none := by
  cases hs : s.initDone <;> simp [checksOf, State.checkReinit, firstFailed, hs]

/-- Settles O48: a refused command writes nothing, and INIT is refused only when INIT_DONE is already 1. -/
theorem initDoneWrittenByInitOnly : Obligations.InitDoneWrittenByInitOnly := by
  refine ⟨fun _ => rfl, fun i s t h => ?_⟩
  obtain ⟨-, rfl⟩ | ⟨c, hc, rfl⟩ := exec_cases h
  · exact bodyOf_initDone s i
  · rw [State.raise_initDone]
    split
    next hi =>
      subst hi
      by_contra hs
      simp [firstFailed_init, hs] at hc
    next => rfl

/-! ### LIFE (R39) -/

theorem CounterDev.afterTick_life (t : Word) (c : CounterDev) : (c.afterTick t).life = c.life := by
  unfold CounterDev.afterTick
  split <;> rfl

/-- Of the commands that pass their checks only INIT writes LIFE. -/
theorem bodyOf_life (s : State) {i : Instr} (hi : i ≠ .init) (d : Nat) :
    ((bodyOf s i).ctr d).life = (s.ctr d).life := by
  obtain rfl | rfl | ⟨d', hd'⟩ | ⟨b, c, hbc⟩ := command_kinds i
  · exact absurd rfl hi
  · obtain ⟨e, he⟩ := bodyTick_spec s
    simp only [bodyOf, he]
    exact getD_map_field CounterDev.life (CounterDev.afterTick_life _) _ _ _
  · obtain ⟨f, e, evs, r, he, hf⟩ := ctr_body (s := s) hd'
    have hlife (c : CounterDev) : (f c).life = c.life := by
      obtain ⟨-, hlife, -⟩ := hf c
      exact hlife
    rw [he]
    exact getD_modify_field CounterDev.life hlife _ _ _ _
  · obtain ⟨v, e, he, -⟩ | ⟨-, he⟩ := line_body (s := s) hbc <;> rw [he] <;> rfl

/-- A settled device has left Uninit only by an INIT (R39). -/
theorem initDone_of_life {s : State} {d : Nat} (hs : s.Settled) (h : (s.ctr d).life ≠ .uninit) :
    s.initDone = true := by
  have hd : d < s.ctrs.length := by
    by_contra hd
    exact h (by rw [State.ctr, List.getD_eq_default _ _ (by omega)]; rfl)
  have hc : (s.ctr d).Settled s.initDone := hs.1 _ (getD_mem s.ctrs d CounterDev.absent hd)
  unfold CounterDev.Settled at hc
  split at hc
  next hu => exact absurd hu h
  next => exact hc.1
  next => exact hc.1

/-- Settles O49: only INIT writes LIFE, and it is refused in a settled state with a device that is not Uninit. -/
theorem lifeIsFinal : Obligations.LifeIsFinal := by
  intro i s t d hs h hl
  obtain ⟨hc, rfl⟩ | ⟨c, -, rfl⟩ := exec_cases h
  · apply bodyOf_life
    rintro rfl
    simp [firstFailed_init, initDone_of_life hs hl] at hc
  · rfl

/-! ### DLCUR (R45) -/

/-- The command is a DLWR, DLINC or DLDEC of line (b, c). -/
def WritesLine (i : Instr) (b c : Nat) : Prop := ∃ v, i = .dlwr b c v ∨ i = .dlinc b c v ∨ i = .dldec b c v

theorem WritesLine.lineIndex {i : Instr} {b c : Nat} (h : WritesLine i b c) : lineIndex i = some (b, c) := by
  obtain ⟨v, rfl | rfl | rfl⟩ := h <;> rfl

theorem SerialBus.afterInit_cur (c : Nat) (bus : SerialBus) :
    (bus.afterInit.lines.getD c DelayLine.reset).cur = (bus.lines.getD c DelayLine.reset).cur :=
  getD_map_field DelayLine.cur (f := fun l => { l with latch := .L }) (fun _ => rfl) _ _ _

/-- A serial write to another line leaves DLCUR of (b, c). -/
theorem afterWrite_line_ne {s t : State} {b c b' c' : Nat} {v : Byte}
    (ht : t.buses = s.buses.modify b' (SerialBus.afterWrite c' v)) (hne : (b', c') ≠ (b, c)) :
    t.line b c = s.line b c := by
  obtain ⟨hbus, hline, -⟩ := afterWrite_bus ht
  by_cases hb : b = b'
  · subst hb
    exact hline c (fun hc => hne (by rw [hc]))
  · simp only [State.line, hbus b hb]

/-- A command that does not write line (b, c) leaves its DLCUR. -/
theorem bodyOf_cur_of_not_writes (s : State) {i : Instr} {b c : Nat} (hw : ¬ WritesLine i b c) :
    ((bodyOf s i).line b c).cur = (s.line b c).cur := by
  obtain rfl | rfl | ⟨d, hd⟩ | ⟨b', c', hbc⟩ := command_kinds i
  · obtain ⟨e, he⟩ := bodyInit_spec s
    simp only [bodyOf, he]
    exact getD_map_field (fun bus : SerialBus => (bus.lines.getD c DelayLine.reset).cur) (SerialBus.afterInit_cur c) _ _ _
  · obtain ⟨e, he⟩ := bodyTick_spec s
    simp only [bodyOf, he]
    rfl
  · obtain ⟨f, e, evs, r, he, -⟩ := ctr_body (s := s) hd
    rw [he]
    rfl
  · obtain ⟨v, e, he, hi⟩ | ⟨-, he⟩ := line_body (s := s) hbc
    · have hne : (b', c') ≠ (b, c) := by
        rintro ⟨⟩
        exact hw hi
      exact congrArg DelayLine.cur (afterWrite_line_ne (v := v) (by rw [he]) hne)
    · rw [he]
      rfl

/-- A write that passes its checks answers the new DLCUR (R202, R211). -/
theorem bodyOf_answers_cur {s : State} {i : Instr} {b c : Nat} (hw : WritesLine i b c) (hr : s.LineReady b c) :
    (bodyOf s i).outcomes = s.outcomes ++ [.ok (.byte ((bodyOf s i).line b c).cur)] := by
  obtain ⟨-, hb, hc⟩ := hr
  obtain ⟨v, e, he, -⟩ | ⟨rfl, -⟩ := line_body (s := s) hw.lineIndex
  · obtain ⟨-, -, hcur⟩ := afterWrite_bus (s := s) (t := bodyOf s i) (by rw [he])
    rw [hcur hb hc, he]
  · obtain ⟨v, h | h | h⟩ := hw <;> cases h

theorem checksOf_of_writesLine {s : State} {i : Instr} {b c : Nat} (hw : WritesLine i b c) :
    checksOf s i = s.checksLine b c := by
  obtain ⟨v, rfl | rfl | rfl⟩ := hw <;> rfl

/-- Settles O42: a refused command writes nothing, a write that runs answers the DLCUR it leaves, and no other
command writes DLCUR. -/
theorem dlcurIsLastWritten : Obligations.DlcurIsLastWritten := by
  intro i s t b c h
  obtain ⟨hpass, rfl⟩ | ⟨e, -, rfl⟩ := exec_cases h
  · have answers (hw : WritesLine i b c) :=
      bodyOf_answers_cur hw (lineReady_of_checks (checksOf_of_writesLine hw ▸ hpass))
    constructor
    · intro hne
      have hw : WritesLine i b c := by
        by_contra hw
        exact hne (bodyOf_cur_of_not_writes s hw)
      exact ⟨hw, answers hw⟩
    · intro imm v hi hv
      rw [answers ⟨imm, hi⟩] at hv
      simpa using hv.symm
  · exact ⟨fun hne => absurd rfl hne, fun imm v _ hv => by simp at hv⟩

end Sys2Proof.Machine
end

section
/-! The decoder's answer row by row: what a word that decodes holds, which words are illegal, and what a step makes
of either (spec/30_encoding.md R102 to R106, R111); and what check 3 answers (R103). -/

namespace Sys2Proof

/-! ### Rows of the opcode map -/

/-- A decoded command is the one its word's row builds. -/
theorem build_of_decode {w : Word} {i : Instr} (h : decode w = .ok i) : ∃ r ∈ opcodeTable, r.build w = i := by
  unfold decode at h
  split at h
  next r hr => exact ⟨r, List.mem_of_find?_eq_some hr, Except.ok.inj h⟩
  next => cases h

/-- A word is illegal exactly when no row selects it (R105). -/
theorem decode_error_iff {w : Word} :
    (∃ err, decode w = .error err) ↔ ∀ r ∈ opcodeTable, w &&& r.mask ≠ r.pattern := by
  have hnone : (∀ r ∈ opcodeTable, w &&& r.mask ≠ r.pattern) ↔ opcodeTable.find? (fun r => r.selects w) = none := by
    simp [List.find?_eq_none, OpRow.selects]
  rw [hnone]
  unfold decode
  cases opcodeTable.find? (fun r => r.selects w) <;> simp

theorem fieldOp_and (w m : Word) : fieldOp (w &&& m) = fieldOp w &&& fieldOp m := BitVec.extractLsb'_and

/-- Every mask covers the whole OP field (R104). -/
theorem fieldOp_mask : ∀ r ∈ opcodeTable, fieldOp r.mask = 0xFF#8 := by decide

theorem fieldOp_of_selects {r : OpRow} {w : Word} (hr : r ∈ opcodeTable) (h : w &&& r.mask = r.pattern) :
    fieldOp r.pattern = fieldOp w := by
  rw [← h, fieldOp_and, fieldOp_mask r hr, byte_and_ones]

/-- The fourteen rows have fourteen OP values (R104). -/
theorem fieldOps_nodup : (opcodeTable.map (fun r => fieldOp r.pattern)).Nodup := by decide

theorem row_eq_of_fieldOp_eq {r r' : OpRow} (hr : r ∈ opcodeTable) (hr' : r' ∈ opcodeTable)
    (h : fieldOp r.pattern = fieldOp r'.pattern) : r = r' := List.inj_on_of_nodup_map fieldOps_nodup hr hr' h

/-- At most one row matches a word (R105). -/
theorem row_eq_of_selects {r r' : OpRow} {w : Word} (hr : r ∈ opcodeTable) (hr' : r' ∈ opcodeTable)
    (h : w &&& r.mask = r.pattern) (h' : w &&& r'.mask = r'.pattern) : r = r' :=
  row_eq_of_fieldOp_eq hr hr' ((fieldOp_of_selects hr h).trans (fieldOp_of_selects hr' h').symm)

/-- Of a word with a row's OP only that row decides whether it is legal. -/
theorem decode_error_iff_of_fieldOp {r : OpRow} {w : Word} (hr : r ∈ opcodeTable)
    (hop : fieldOp r.pattern = fieldOp w) : (∃ err, decode w = .error err) ↔ w &&& r.mask ≠ r.pattern := by
  rw [decode_error_iff]
  constructor
  · exact fun hnone h => hnone r hr h
  · intro hne r' hr' h'
    obtain rfl := row_eq_of_fieldOp_eq hr hr' (hop.trans (fieldOp_of_selects hr' h').symm)
    exact hne h'

/-- A word with no row's OP is illegal. -/
theorem decode_error_of_fieldOp_ne {w : Word} (h : ∀ r ∈ opcodeTable, fieldOp r.pattern ≠ fieldOp w) :
    ∃ err, decode w = .error err :=
  decode_error_iff.mpr (fun r hr hsel => h r hr (fieldOp_of_selects hr hsel))

/-! ### Fields -/

theorem operandHalf_eq (w : Word) : operandHalf w = if w.getLsbD 8 = false then Half.A else Half.B := by
  have hbit : (fieldY w).getLsbD 0 = w.getLsbD 8 := by simp [fieldY]
  unfold operandHalf
  rw [hbit]
  cases w.getLsbD 8 <;> rfl

/-- The bits of Y that READL, READR and READ require to be 0 are Y[7:1] (R104). -/
theorem byte_and_fe_eq_zero_iff (y : Byte) : y &&& 0xFE#8 = 0#8 ↔ y.extractLsb' 1 7 = 0#7 := by
  revert y; decide

/-- The OP values R106 lists as reserved. -/
abbrev ReservedOp (op : Byte) : Prop := op = 0x00#8 ∨ (0x0B#8 ≤ op ∧ op ≤ 0x0F#8) ∨ 0x14#8 ≤ op

/-- The reserved OP values are those of no row. -/
theorem reservedOp_iff (op : Byte) : ReservedOp op ↔ ∀ r ∈ opcodeTable, fieldOp r.pattern ≠ op := by
  revert op; decide

/-! ### Which command a word is -/

/-- Settles O4: every row builds its command from the fields, and the half selector is bit 8 of the word. -/
theorem operandsFromFields : Obligations.OperandsFromFields := by
  intro w i hd
  obtain ⟨r, hr, rfl⟩ := build_of_decode hd
  have hh := operandHalf_eq w
  simp only [opcodeTable, List.mem_cons, List.not_mem_nil, or_false] at hr
  obtain rfl | rfl | rfl | rfl | rfl | rfl | rfl | rfl | rfl | rfl | rfl | rfl | rfl | rfl := hr
  · trivial
  · rfl
  · exact ⟨rfl, hh⟩
  · exact ⟨rfl, hh⟩
  · rfl
  · exact ⟨rfl, hh⟩
  · rfl
  · rfl
  · rfl
  · trivial
  · exact ⟨rfl, rfl, rfl⟩
  · exact ⟨rfl, rfl, rfl⟩
  · exact ⟨rfl, rfl, rfl⟩
  · exact ⟨rfl, rfl⟩

end Sys2Proof

namespace Sys2Proof.Machine

/-! ### What the machine does with a word -/

theorem runWord_of_decode {w : Word} {i : Instr} (h : decode w = .ok i) (s : State) : runWord w s = exec i s := by
  unfold runWord
  rw [h]

/-- An illegal word only answers E_ILLEGAL (R105). -/
theorem runWord_of_illegal {w : Word} {err : DecodeError} (h : decode w = .error err) (s : State) :
    runWord w s = .next (s.onlyAnswered (.err .illegal none)) := by
  unfold runWord
  rw [h]
  rfl

/-- A step at an issued word handles that word (R52, R111). -/
theorem step_issue {s : State} {w : Word} (hl : s.params.legal = true) (hw : s.program[s.pc]? = some (.issue w)) :
    step s = runWord w s := by
  unfold step State.legalStep State.hostStep State.nextAction
  rw [if_pos hl, hw]

/-- Settles O7: the step is runWord of the issued word, which is exec of its command. -/
theorem stepRunsDecoded : Obligations.StepRunsDecoded := by
  intro s w i hl hw hd
  rw [step_issue hl hw, runWord_of_decode hd]

/-- Settles O8: every mask covers OP, so a word selects only rows of its own OP value, and no two rows share one. -/
theorem illegalWordAnswered : Obligations.IllegalWordAnswered := by
  refine ⟨fun r hr r' hr' h => ?_, fun w r hr r' hr' h h' => ?_, fun s w hl hw hnone => ?_⟩
  · rw [row_eq_of_fieldOp_eq hr hr' h]
  · rw [row_eq_of_selects hr hr' h h']
  · obtain ⟨err, he⟩ := decode_error_iff.mpr hnone
    rw [step_issue hl hw]
    exact runWord_of_illegal he s

/-- Settles O5: a word with no row's OP is illegal, and of a word with a row's OP that row's mask names the fields
that must be 0 (Y[7:1] where the mask has 0xFE). -/
theorem illegalWordsListed : Obligations.IllegalWordsListed := by
  intro w
  refine ⟨?_, fun err s h => runWord_of_illegal h s⟩
  obtain ⟨op, x, y, imm, rfl⟩ : ∃ op x y imm, w = assemble op x y imm := ⟨_, _, _, _, (assemble_fields w).symm⟩
  have hop : (assemble op x y imm).extractLsb' 24 8 = op := fieldOp_assemble op x y imm
  have hx : (assemble op x y imm).extractLsb' 16 8 = x := fieldX_assemble op x y imm
  have hy : (assemble op x y imm).extractLsb' 8 8 = y := fieldY_assemble op x y imm
  have himm : (assemble op x y imm).extractLsb' 0 8 = imm := fieldImm_assemble op x y imm
  simp only [hop, hx, hy, himm]
  clear hop hx hy himm
  by_cases hres : ReservedOp op
  · have hne : ∀ r ∈ opcodeTable, fieldOp r.pattern ≠ fieldOp (assemble op x y imm) := by
      rw [fieldOp_assemble]
      exact (reservedOp_iff op).mp hres
    exact iff_of_true (decode_error_of_fieldOp_ne hne) (.inl hres)
  · obtain ⟨r, hr, hop⟩ : ∃ r ∈ opcodeTable, fieldOp r.pattern = op := by
      simpa only [reservedOp_iff, ne_eq, not_forall, not_not, exists_prop] using hres
    rw [decode_error_iff_of_fieldOp hr (by rw [hop, fieldOp_assemble])]
    simp only [opcodeTable_fields, List.mem_cons, List.not_mem_nil, or_false] at hr
    obtain rfl | rfl | rfl | rfl | rfl | rfl | rfl | rfl | rfl | rfl | rfl | rfl | rfl | rfl := hr
    all_goals
      simp only [fieldOp_assemble] at hop
      subst hop
      simp [and_assemble, assemble_inj, byte_and_fe_eq_zero_iff, imp_iff_not_or]

/-! ### Indexes that name no device (R103) -/

/-- The checks of a counter command begin with checks 2 to 4. -/
theorem checksOf_of_ctrIndex (s : State) {i : Instr} {d : Nat} (h : ctrIndex i = some d) :
    ∃ later, checksOf s i = s.checksCounter d ++ later := by
  cases i <;> cases h
  case latch => exact ⟨[], rfl⟩
  case clear => exact ⟨[], rfl⟩
  all_goals exact ⟨_, rfl⟩

/-- The checks of a delay-line command are checks 2 and 3. -/
theorem checksOf_of_lineIndex (s : State) {i : Instr} {b c : Nat} (h : lineIndex i = some (b, c)) :
    checksOf s i = s.checksLine b c := by
  cases i <;> cases h <;> rfl

theorem checkInit_pass {s : State} (hi : s.initDone = true) : s.checkInit = none := if_pos hi

/-- Check 3 of a counter command (R103). -/
theorem firstFailed_noDevice_of_ctr {s : State} {d : Nat} (hi : s.initDone = true) (hd : s.ctrs.length ≤ d)
    (later : List (Option ErrCode)) : firstFailed (s.checksCounter d ++ later) = some .noDevice := by
  have h3 : s.checkCtr d = some .noDevice := by simp [State.checkCtr, hd]
  simp [State.checksCounter, firstFailed, checkInit_pass hi, h3]

/-- Check 3 of a delay-line command (R103). -/
theorem firstFailed_noDevice_of_line {s : State} {b c : Nat} (hi : s.initDone = true)
    (hbc : s.buses.length ≤ b ∨ (s.bus b).lines.length ≤ c) : firstFailed (s.checksLine b c) = some .noDevice := by
  have h3 : s.checkLine b c = some .noDevice := if_neg (by omega)
  simp [State.checksLine, firstFailed, checkInit_pass hi, h3]

/-- Settles O17: after INIT check 3 is the first to fail. -/
theorem missingDeviceRefused : Obligations.MissingDeviceRefused := by
  intro i s hi h
  apply exec_raise
  obtain ⟨d, hd, hlen⟩ | ⟨b, c, hbc, hlen⟩ := h
  · obtain ⟨later, hc⟩ := checksOf_of_ctrIndex s hd
    rw [hc, firstFailed_noDevice_of_ctr hi hlen]
  · rw [checksOf_of_lineIndex s hbc, firstFailed_noDevice_of_line hi hlen]

end Sys2Proof.Machine
end

section
/-! Which pins take a bus: a counter's gate at L drives its data bus, a delay line's latch at H listens to its serial
bus. Every command takes a bus for one pin at a time and gives it back (spec/10_state.md R53,
spec/40_counter_read.md R133). -/

namespace Sys2Proof.Machine

/-! ### Pins that take a bus -/

/-- At level lv the pin takes its bus: a gate at L (R36), a latch at H (R201). -/
@[simp] def Pin.Takes : Pin → Level → Prop
  | .gate _ _ _, lv => lv = .L
  | .latch _ _, lv => lv = .H
  | .rclk _, _ => False
  | .clr _, _ => False
  | .cben _, _ => False
  | .tclk _ _, _ => False
  | .sclk _, _ => False
  | .sdata _, _ => False

/-- Only pins of S take a bus. -/
def TakenWithin (S : Set Pin) (level : Pin → Level) : Prop := ∀ p, p.Takes (level p) → p ∈ S

theorem TakenWithin.mono {S T : Set Pin} {level : Pin → Level} (h : TakenWithin S level) (hST : S ⊆ T) :
    TakenWithin T level := fun p hp => hST (h p hp)

/-- One pin alone is exclusive on every bus (R53 a, b). -/
theorem exclusive_of_takenWithin {p : Pin} {level : Pin → Level} (h : TakenWithin {p} level) (dbus : Nat → Nat) :
    Exclusive dbus level := by
  constructor
  · intro d x k d' x' k' _ hg hg'
    have hp : Pin.gate d x k = p := h _ hg
    have hp' : Pin.gate d' x' k' = p := h _ hg'
    simpa using hp.trans hp'.symm
  · intro b c c' hl hl'
    have hp : Pin.latch b c = p := h _ hl
    have hp' : Pin.latch b c' = p := h _ hl'
    simpa using hp.trans hp'.symm

/-! ### Settled states -/

theorem ctr_mem_or_absent (s : State) (d : Nat) : s.ctr d ∈ s.ctrs ∨ s.ctr d = CounterDev.absent := by
  by_cases hd : d < s.ctrs.length
  · exact .inl (getD_mem _ _ _ hd)
  · exact .inr (List.getD_eq_default _ _ (by omega))

theorem bus_mem_or_absent (s : State) (b : Nat) : s.bus b ∈ s.buses ∨ s.bus b = SerialBus.absent := by
  by_cases hb : b < s.buses.length
  · exact .inl (getD_mem _ _ _ hb)
  · exact .inr (List.getD_eq_default _ _ (by omega))

theorem line_mem_or_reset (s : State) (b c : Nat) : s.line b c ∈ (s.bus b).lines ∨ s.line b c = DelayLine.reset := by
  by_cases hc : c < (s.bus b).lines.length
  · exact .inl (getD_mem _ _ _ hc)
  · exact .inr (List.getD_eq_default _ _ (by omega))

/-- The gates of a settled device are all released or all undriven (R43, R235). -/
theorem CounterDev.Settled.gates {initDone : Bool} {c : CounterDev} (h : c.Settled initDone) :
    c.gates = Gates.idle ∨ c.gates = CounterDev.absent.gates := by
  unfold CounterDev.Settled at h
  split at h
  next =>
    obtain ⟨-, ⟨hg, -⟩, -⟩ := h
    exact .inr hg
  next =>
    obtain ⟨-, -, ⟨hg, -⟩, -⟩ := h
    exact .inl hg
  next =>
    obtain ⟨-, -, ⟨hg, -⟩, -⟩ := h
    exact .inr hg

theorem settled_gate_ne_L {s : State} (hs : s.Settled) (d : Nat) (h : Half) (k : BytePart) :
    s.level (.gate d h k) ≠ .L := by
  have hg : (s.ctr d).gates = Gates.idle ∨ (s.ctr d).gates = CounterDev.absent.gates := by
    obtain hmem | habs := ctr_mem_or_absent s d
    · exact (hs.1 _ hmem).gates
    · exact .inr (congrArg CounterDev.gates habs)
  change (s.ctr d).gates.get h k ≠ .L
  obtain hg | hg := hg <;> rw [hg] <;> cases h <;> cases k <;> decide

/-- A latch of a settled bus is low or undriven (R43). -/
theorem SerialBus.Settled.latch_ne_H {initDone : Bool} {bus : SerialBus} (h : bus.Settled initDone)
    {l : DelayLine} (hl : l ∈ bus.lines) : l.latch ≠ .H := by
  unfold SerialBus.Settled at h
  split at h
  next =>
    obtain ⟨-, -, hlow⟩ := h
    simp [hlow l hl]
  next =>
    obtain ⟨-, -, hreset⟩ := h
    simp [hreset l hl, DelayLine.reset]

theorem settled_latch_ne_H {s : State} (hs : s.Settled) (b c : Nat) : s.level (.latch b c) ≠ .H := by
  change (s.line b c).latch ≠ .H
  obtain hline | hline := line_mem_or_reset s b c
  · obtain hbus | hbus := bus_mem_or_absent s b
    · exact (hs.2 _ hbus).latch_ne_H hline
    · rw [hbus] at hline
      cases hline
  · rw [hline]
    decide

/-- Between commands no pin takes a bus (R53 c). -/
theorem settled_takenWithin {s : State} (hs : s.Settled) : TakenWithin ∅ s.level := by
  intro p hp
  cases p with
  | gate d h k => exact settled_gate_ne_L hs d h k hp
  | latch b c => exact settled_latch_ne_H hs b c hp
  | rclk d => exact hp
  | clr d => exact hp
  | cben d => exact hp
  | tclk d x => exact hp
  | sclk b => exact hp
  | sdata b => exact hp

/-! ### Events that take a bus -/

/-- The event drives a pin to the level at which it takes its bus. -/
@[simp] def Event.Takes : Event → Prop
  | .drive p lv => p.Takes lv
  | .hold _ => False
  | .sampleDB _ _ => False
  | .sampleOVF _ _ => False
  | .now _ => False
  | .powerOn => False

/-- None of the events takes a bus. -/
def TakesNone (evs : List Event) : Prop := ∀ e ∈ evs, ¬ e.Takes

theorem TakesNone.take {evs : List Event} (h : TakesNone evs) (n : Nat) : TakesNone (evs.take n) :=
  fun e he => h e (List.mem_of_mem_take he)

/-- The levels of all pins after the events. -/
def levelsAfter (level : Pin → Level) (evs : List Event) (p : Pin) : Level := evs.foldl (levelAfter p) (level p)

theorem levelDuring_eq (s : State) (evs : List Event) : s.levelDuring evs = levelsAfter s.level evs := rfl

theorem levelsAfter_append (level : Pin → Level) (evs evs' : List Event) :
    levelsAfter level (evs ++ evs') = levelsAfter (levelsAfter level evs) evs' :=
  funext fun _ => List.foldl_append

theorem levelsAfter_cons (level : Pin → Level) (e : Event) (evs : List Event) :
    levelsAfter level (e :: evs) = levelsAfter (levelsAfter level [e]) evs := rfl

/-- A pin that takes its bus after an event did so before, or the event made it. -/
theorem takes_levelAfter {p : Pin} {lv : Level} {e : Event} (h : p.Takes (levelAfter p lv e)) :
    p.Takes lv ∨ e.Takes := by
  cases e with
  | drive q new =>
    by_cases hq : q = p
    · subst hq
      exact .inr (by simpa [levelAfter] using h)
    · exact .inl (by simpa [levelAfter, hq] using h)
  | hold n => exact .inl h
  | sampleDB d v => exact .inl h
  | sampleOVF d v => exact .inl h
  | now t => exact .inl h
  | powerOn => cases p <;> simp [levelAfter] at h

/-- Driving p changes the level of no other pin. -/
theorem takes_after_drive {p q : Pin} {lv : Level} {level : Pin → Level}
    (h : q.Takes (levelsAfter level [.drive p lv] q)) : (q = p ∧ p.Takes lv) ∨ (q ≠ p ∧ q.Takes (level q)) := by
  by_cases hq : q = p
  · subst hq
    exact .inl ⟨rfl, by simpa [levelsAfter, levelAfter] using h⟩
  · exact .inr ⟨hq, by simpa [levelsAfter, levelAfter, Ne.symm hq] using h⟩

theorem TakenWithin.after_takesNone {S : Set Pin} {evs : List Event} (hevs : TakesNone evs) {level : Pin → Level}
    (h : TakenWithin S level) : TakenWithin S (levelsAfter level evs) := by
  induction evs generalizing level with
  | nil => exact h
  | cons e evs ih =>
    rw [levelsAfter_cons]
    obtain ⟨he, hevs⟩ := List.forall_mem_cons.mp hevs
    exact ih hevs fun p hp => h p ((takes_levelAfter hp).resolve_right he)

theorem TakenWithin.after_drive {level : Pin → Level} (h : TakenWithin ∅ level) (p : Pin) (lv : Level) :
    TakenWithin {p} (levelsAfter level [.drive p lv]) := by
  intro q hq
  obtain ⟨rfl, -⟩ | ⟨-, hq⟩ := takes_after_drive hq
  · rfl
  · exact (h q hq).elim

theorem TakenWithin.after_release {p : Pin} {level : Pin → Level} (h : TakenWithin {p} level) {lv : Level}
    (hlv : ¬ p.Takes lv) : TakenWithin ∅ (levelsAfter level [.drive p lv]) := by
  intro q hq
  obtain ⟨-, hp⟩ | ⟨hne, hq⟩ := takes_after_drive hq
  · exact hlv hp
  · exact hne (h q hq)

/-! ### Sequences that take one bus at a time -/

/-- From levels at which no pin takes a bus, at most one pin takes one after any of the events, and none at the
end. -/
structure OneAtATime (evs : List Event) : Prop where
  during : ∀ level, TakenWithin ∅ level → ∀ n, ∃ p, TakenWithin {p} (levelsAfter level (evs.take n))
  atEnd : ∀ level, TakenWithin ∅ level → TakenWithin ∅ (levelsAfter level evs)

theorem TakesNone.oneAtATime {evs : List Event} (h : TakesNone evs) : OneAtATime evs where
  during _ hl n := ⟨.rclk 0, (hl.after_takesNone (h.take n)).mono (Set.empty_subset _)⟩
  atEnd _ hl := hl.after_takesNone h

theorem OneAtATime.append {evs evs' : List Event} (h : OneAtATime evs) (h' : OneAtATime evs') :
    OneAtATime (evs ++ evs') where
  during level hl n := by
    by_cases hn : n ≤ evs.length
    · rw [List.take_append_of_le_length hn]
      exact h.during level hl n
    · rw [List.take_append, List.take_of_length_le (by omega), levelsAfter_append]
      exact h'.during _ (h.atEnd level hl) _
  atEnd level hl := by
    rw [levelsAfter_append]
    exact h'.atEnd _ (h.atEnd level hl)

/-- One pin may take its bus, if it releases it at the end and the events between take none. -/
theorem oneAtATime_bracket {p : Pin} {evs : List Event} {released : Level} (taken : Level) (hevs : TakesNone evs)
    (hr : ¬ p.Takes released) : OneAtATime ([.drive p taken] ++ evs ++ [.drive p released]) where
  during level hl n := by
    refine ⟨p, ?_⟩
    have hrest : TakesNone (evs ++ [.drive p released]) := List.forall_mem_append.mpr ⟨hevs, by simpa using hr⟩
    rw [List.append_assoc]
    cases n with
    | zero => exact hl.mono (Set.empty_subset _)
    | succ n => exact (hl.after_drive p taken).after_takesNone (hrest.take n)
  atEnd level hl := by
    rw [levelsAfter_append, levelsAfter_append]
    exact ((hl.after_drive p taken).after_takesNone hevs).after_release hr

/-! ### The sequences of the commands -/

theorem takesNone_nil : TakesNone [] := fun _ he => nomatch he

theorem takesNone_singleton {e : Event} : TakesNone [e] ↔ ¬ e.Takes := List.forall_mem_singleton

theorem takesNone_optional (q : Bool) {e : Event} (he : ¬ e.Takes) : TakesNone (if q then [e] else []) := by
  split
  · exact takesNone_singleton.mpr he
  · exact takesNone_nil

theorem takesNone_append {evs evs' : List Event} : TakesNone (evs ++ evs') ↔ TakesNone evs ∧ TakesNone evs' :=
  List.forall_mem_append

theorem takesNone_flatMap {α : Type} {l : List α} {f : α → List Event} (h : ∀ a ∈ l, TakesNone (f a)) :
    TakesNone (l.flatMap f) := by
  intro e he
  obtain ⟨a, ha, he⟩ := List.mem_flatMap.mp he
  exact h a ha e he

theorem takesNone_latchEvents (d n : Nat) : TakesNone (latchEvents d n) := by simp [TakesNone, latchEvents]

theorem takesNone_clearEvents (d n : Nat) : TakesNone (clearEvents d n) := by simp [TakesNone, clearEvents]

theorem takesNone_bitEvents (b n : Nat) (v : Bool) : TakesNone (bitEvents b n v) := by simp [TakesNone, bitEvents]

theorem takesNone_toggleEvents (d : Nat) (x : Half) (ch : Channel) (t : Word) :
    TakesNone (toggleEvents d x ch t) := by
  unfold toggleEvents
  split
  · simp [TakesNone]
  · exact takesNone_nil

theorem takesNone_tickDeviceEvents (t : Word) (d : Nat) (c : CounterDev) : TakesNone (tickDeviceEvents t d c) := by
  unfold tickDeviceEvents
  split
  · exact takesNone_append.mpr ⟨takesNone_toggleEvents _ _ _ _, takesNone_toggleEvents _ _ _ _⟩
  · exact takesNone_nil

theorem takesNone_initDeviceEvents (d : Nat) (p : CtrParams) : TakesNone (initDeviceEvents d p) := by
  unfold initDeviceEvents
  split
  · simp only [takesNone_append]
    exact ⟨⟨⟨by simp [TakesNone], takesNone_optional _ (by simp)⟩, takesNone_optional _ (by simp)⟩,
      takesNone_optional _ (by simp)⟩
  · exact takesNone_nil

theorem takesNone_initBusEvents (b n : Nat) : TakesNone (initBusEvents b n) := by
  simp [TakesNone, initBusEvents, or_imp, forall_and]

theorem oneAtATime_byteEvents (d : Nat) (h : Half) (k : BytePart) (n : Nat) (v : Byte) :
    OneAtATime (byteEvents d h k n v) :=
  oneAtATime_bracket (evs := [.hold n, .sampleDB d v]) .L (by simp [TakesNone]) (by simp)

theorem oneAtATime_halfEvents (d : Nat) (h : Half) (n : Nat) (u l : Byte) : OneAtATime (halfEvents d h n u l) :=
  (oneAtATime_byteEvents d h .upper n u).append (oneAtATime_byteEvents d h .lower n l)

theorem oneAtATime_regEvents (d : Nat) (h : Half) (n : Nat) (u l : Byte) : OneAtATime (regEvents d h n u l) :=
  (takesNone_latchEvents d n).oneAtATime.append (oneAtATime_halfEvents d h n u l)

theorem oneAtATime_writeEvents (b c n : Nat) (v : Byte) : OneAtATime (writeEvents b c n v) :=
  oneAtATime_bracket .H (takesNone_flatMap fun _ _ => takesNone_bitEvents _ _ _) (by simp)

/-- Every command that runs takes one bus at a time. -/
theorem body_oneAtATime (s : State) (i : Instr) : ∃ evs, (bodyOf s i).hist = s.hist ++ evs ∧ OneAtATime evs := by
  obtain ⟨evs, hhist, hevs⟩ := body_hist s i
  refine ⟨evs, hhist, ?_⟩
  have twoReads {d : Nat} (h : ∃ h h' u l u' l', evs = regEvents d h s.tHold u l ++ regEvents d h' s.tHold u' l') :
      OneAtATime evs := by
    obtain ⟨h, h', u, l, u', l', rfl⟩ := h
    exact (oneAtATime_regEvents _ _ _ _ _).append (oneAtATime_regEvents _ _ _ _ _)
  have write {b c : Nat} (h : ∃ v, evs = writeEvents b c s.tSer v) : OneAtATime evs := by
    obtain ⟨v, rfl⟩ := h
    exact oneAtATime_writeEvents _ _ _ _
  cases i with
  | init =>
    subst hevs
    apply TakesNone.oneAtATime
    simp only [takesNone_append]
    exact ⟨⟨by simp [TakesNone], takesNone_flatMap fun _ _ => takesNone_initDeviceEvents _ _⟩,
      takesNone_flatMap fun _ _ => takesNone_initBusEvents _ _⟩
  | latch d =>
    subst hevs
    exact (takesNone_latchEvents _ _).oneAtATime
  | readl d h =>
    obtain ⟨u, l, rfl⟩ := hevs
    exact oneAtATime_halfEvents _ _ _ _ _
  | readr d h =>
    obtain ⟨u, l, rfl⟩ := hevs
    exact oneAtATime_regEvents _ _ _ _ _
  | read32 d => exact twoReads hevs
  | read d h =>
    simp only at hevs
    split at hevs
    · obtain ⟨u, l, rfl⟩ := hevs
      exact oneAtATime_regEvents _ _ _ _ _
    · exact twoReads hevs
  | clear d =>
    subst hevs
    exact (takesNone_clearEvents _ _).oneAtATime
  | togb d =>
    subst hevs
    exact TakesNone.oneAtATime (by simp [TakesNone])
  | ovf d =>
    subst hevs
    exact TakesNone.oneAtATime (by simp [TakesNone])
  | tick =>
    subst hevs
    apply TakesNone.oneAtATime
    rw [takesNone_append]
    exact ⟨by simp [TakesNone], takesNone_flatMap fun _ _ => takesNone_tickDeviceEvents _ _ _⟩
  | dlwr b c v => exact write hevs
  | dlinc b c delta => exact write hevs
  | dldec b c delta => exact write hevs
  | dlget b c =>
    subst hevs
    exact takesNone_nil.oneAtATime

/-- Settles O54: a settled state takes no bus, and every command from there takes one at a time. -/
theorem busExclusiveAtEveryEvent : Obligations.BusExclusiveAtEveryEvent := by
  intro i s t hs h
  obtain ⟨evs, hhist, hone⟩ : ∃ evs, t.hist = s.hist ++ evs ∧ OneAtATime evs := by
    obtain ⟨-, rfl⟩ | ⟨c, -, rfl⟩ := exec_cases h
    · exact body_oneAtATime s i
    · exact ⟨[], by simp, takesNone_nil.oneAtATime⟩
  refine ⟨evs, hhist, fun n => ?_⟩
  obtain ⟨p, hp⟩ := hone.during s.level (settled_takenWithin hs) n
  rw [levelDuring_eq]
  exact exclusive_of_takenWithin hp _

end Sys2Proof.Machine
end

section
/-! Check 6: which reads E_B_DISABLED refuses (spec/40_counter_read.md R141). -/

namespace Sys2Proof.Machine

/-- Once checks 2 to 4 pass, the later ones decide. -/
theorem firstFailed_checksCounter_append {s : State} {d : Nat} (r : s.CounterReady d)
    (later : List (Option ErrCode)) : firstFailed (s.checksCounter d ++ later) = firstFailed later := by
  obtain ⟨h2, h3, h4⟩ := checksCounter_pass r
  simp [State.checksCounter, firstFailed, h2, h3, h4]

theorem checkBEnabled_fail {s : State} {d : Nat} (hb : (s.ctr d).ben = false) :
    s.checkBEnabled d = some .bDisabled := by simp [State.checkBEnabled, hb]

theorem checkSingle32_pass {s : State} {d : Nat} (hm : (s.ctr d).cfg.dual16 = false) : s.checkSingle32 d = none := by
  simp [State.checkSingle32, hm]

/-- Checks 2 to 5 pass for a read of half B, and check 6 fails. -/
theorem firstFailed_bDisabled {s : State} {d : Nat} (r : s.CounterReady d) (hb : (s.ctr d).ben = false)
    (later : List (Option ErrCode)) :
    firstFailed (s.checksCounter d ++ s.checkBEnabled d :: later) = some .bDisabled := by
  rw [firstFailed_checksCounter_append r, checkBEnabled_fail hb]
  rfl

/-- A READ that resolves to half B makes check 6 on it: in Single32 always, in Dual16 if it names B (R140). -/
theorem checksRead_of_readsB {s : State} {d : Nat} {h : Half} (hB : (s.ctr d).cfg.dual16 = false ∨ h = .B) :
    s.checksRead d h = s.checksCounter d ++ [s.checkBEnabled d, s.checkSelfTest d] := by
  unfold State.checksRead
  obtain hm | rfl := hB
  · simp [hm]
  · simp [State.checkHalf]

/-- A Dual16 READ has the checks of READR (R140). -/
theorem checksRead_of_dual16 {s : State} {d : Nat} {h : Half} (hm : (s.ctr d).cfg.dual16 = true) :
    s.checksRead d h = s.checksRead16 d h := by simp [State.checksRead, State.checksRead16, hm]

/-- No check of a read of half A gives E_B_DISABLED. -/
theorem bDisabled_notMem_checksRead16_A (s : State) (d : Nat) : some .bDisabled ∉ s.checksRead16 d .A := by
  simp [State.checksRead16, State.checksCounter, State.checkInit, State.checkCtr, State.checkHalted, State.checkHalf,
    State.checkSelfTest]

theorem bodyReadl_answers (d : Nat) (h : Half) (s : State) :
    ∃ v, (s.bodyReadl d h).outcomes = s.outcomes ++ [.ok v] := by
  obtain ⟨e, u, l, he⟩ := bodyReadl_spec d h s
  exact ⟨_, by rw [he]⟩

theorem bodyReadr_answers (d : Nat) (h : Half) (s : State) :
    ∃ v, (s.bodyReadr d h).outcomes = s.outcomes ++ [.ok v] := by
  obtain ⟨e, u, l, he⟩ := bodyReadr_spec d h s
  exact ⟨_, by rw [he]⟩

/-- Settles O20: a read of half B comes to check 6 and fails it; a read of half A makes no check that gives
E_B_DISABLED, and if it runs it answers a value. -/
theorem disabledBRefused : Obligations.DisabledBRefused := by
  constructor
  · intro s d h i r hb hi
    apply exec_raise
    obtain rfl | rfl | ⟨rfl, hm⟩ | ⟨rfl, hB⟩ := hi
    · exact firstFailed_bDisabled r hb _
    · exact firstFailed_bDisabled r hb _
    · change firstFailed (s.checksRead32 d) = _
      rw [State.checksRead32, checkSingle32_pass hm, firstFailed_checksCounter_append r, checkBEnabled_fail hb]
      rfl
    · change firstFailed (s.checksRead d h) = _
      rw [checksRead_of_readsB hB]
      exact firstFailed_bDisabled r hb _
  · intro s t d i hi ht hout
    have hchecks : checksOf s i = s.checksRead16 d .A := by
      obtain rfl | rfl | ⟨rfl, hm⟩ := hi
      · rfl
      · rfl
      · exact checksRead_of_dual16 hm
    have hbody : ∃ v, (bodyOf s i).outcomes = s.outcomes ++ [.ok v] := by
      obtain rfl | rfl | ⟨rfl, hm⟩ := hi
      · exact bodyReadl_answers d .A s
      · exact bodyReadr_answers d .A s
      · simpa [bodyOf, State.bodyRead, hm] using bodyReadr_answers d .A s
    obtain ⟨-, rfl⟩ | ⟨c, hc, rfl⟩ := exec_cases ht
    · obtain ⟨v, hv⟩ := hbody
      simp [hv] at hout
    · have hcode : c = .bDisabled := by simpa using hout
      rw [hchecks, hcode] at hc
      exact bDisabled_notMem_checksRead16_A s d (firstFailed_mem hc)

end Sys2Proof.Machine
end

section
/-! CLEAR, TOGB and OVF: what each does to the block, and what a clear leaves an attached IC with
(spec/41_counter_control.md R160 to R165). -/

namespace Sys2Proof.Machine

/-- Checks 2 to 4 pass, and so does the one check after them. -/
theorem firstFailed_checksCounter_last {s : State} {d : Nat} (r : s.CounterReady d) {check : Option ErrCode}
    (h : check = none) : firstFailed (s.checksCounter d ++ [check]) = none := by
  rw [firstFailed_checksCounter_append r, h]
  rfl

/-! ### CLEAR (R160) -/

theorem exec_clear {s : State} {d : Nat} (r : s.CounterReady d) : exec (.clear d) s = .next (s.bodyClear d) :=
  exec_run (checksCounter_allPass r)

/-- CLR idles at H, so on a settled device the clear pulse writes no field of the block. -/
theorem bodyClear_of_settled {s : State} {d : Nat} (hs : s.Settled) (r : s.CounterReady d) :
    ∃ e, s.bodyClear d =
      { s with env := e, hist := s.hist ++ clearEvents d s.tHold, outcomes := s.outcomes ++ [.ok .none]
               pc := s.pc + 1 } := by
  obtain ⟨e, he⟩ := bodyClear_spec d s
  obtain ⟨-, -, -, -, hclr⟩ := pulses_restore hs r
  exact ⟨e, by rw [he, hclr]⟩

/-- Settles O28: the checks pass, and the pulse brings CLR back to H. -/
theorem clearCompletes : Obligations.ClearCompletes := by
  intro s d hs r
  obtain ⟨e, he⟩ := bodyClear_of_settled hs r
  exact ⟨e, by rw [exec_clear r, he]; rfl⟩

/-! ### TOGB (R162, R163) -/

theorem checkCben_pass {s : State} {d : Nat} (h : (s.ctr d).cfg.hasCben = true) : s.checkCben d = none := if_pos h

theorem exec_togb {s : State} {d : Nat} (r : s.CounterReady d) (h : (s.ctr d).cfg.hasCben = true) :
    exec (.togb d) s = .next (s.bodyTogb d) :=
  exec_run (firstFailed_checksCounter_last r (checkCben_pass h))

theorem benOfLevel_eq_decide (lv : Level) : benOfLevel lv = decide (lv = .L) := by cases lv <;> rfl

/-- Settles O29: the new level is flipLevel of the old one, and BEN is benOfLevel of the new one. -/
theorem togbCompletes : Obligations.TogbCompletes := by
  intro s d r hcben
  obtain ⟨e, he⟩ := bodyTogb_spec d s
  refine ⟨e, s.togbLevel d, rfl, ?_⟩
  rw [exec_togb r hcben, he, benOfLevel_eq_decide]

/-- A counter device after a TOGB. -/
def CounterDev.afterTogb (c : CounterDev) : CounterDev :=
  { c with cben := flipLevel c.cben, ben := benOfLevel (flipLevel c.cben) }

theorem bodyTogb_ctrs (d : Nat) (s : State) : (s.bodyTogb d).ctrs = s.ctrs.modify d CounterDev.afterTogb := by
  obtain ⟨e, he⟩ := bodyTogb_spec d s
  rw [he]
  exact modify_congr_at _ _ _ _ CounterDev.absent (fun _ => rfl)

theorem bodyTogb_buses (d : Nat) (s : State) : (s.bodyTogb d).buses = s.buses := by
  obtain ⟨e, he⟩ := bodyTogb_spec d s
  rw [he]

theorem bodyTogb_ctr {s : State} {d : Nat} (r : s.CounterReady d) :
    (s.bodyTogb d).ctr d = (s.ctr d).afterTogb := by
  obtain ⟨-, hd, -⟩ := r
  rw [State.ctr, bodyTogb_ctrs, getD_modify_self _ _ _ _ hd]
  rfl

/-- A device that passed checks 1 to 4 still passes them after a TOGB. -/
theorem bodyTogb_counterReady {s : State} {d : Nat} (r : s.CounterReady d) : (s.bodyTogb d).CounterReady d := by
  have hctr := bodyTogb_ctr r
  obtain ⟨hi, hd, hl⟩ := r
  refine ⟨?_, ?_, ?_⟩
  · exact hi
  · rw [bodyTogb_ctrs, List.length_modify]
    exact hd
  · rw [hctr]
    exact hl

theorem flipLevel_ne (lv : Level) : flipLevel lv ≠ lv := by cases lv <;> decide

/-- A driven level flips back. -/
theorem flipLevel_flipLevel {lv : Level} (h : lv ≠ .Z) : flipLevel (flipLevel lv) = lv := by
  cases lv with
  | L => rfl
  | H => rfl
  | Z => exact absurd rfl h

theorem CounterDev.afterTogb_ne (c : CounterDev) : c.afterTogb ≠ c := fun h =>
  flipLevel_ne c.cben (congrArg CounterDev.cben h)

/-- CBEN is driven and BEN follows it (R40), so both come back with the second flip. -/
theorem CounterDev.afterTogb_afterTogb {c : CounterDev} (hb : c.BenSettled) (hcben : c.cfg.hasCben = true) :
    c.afterTogb.afterTogb = c := by
  rw [CounterDev.BenSettled, if_pos hcben] at hb
  obtain ⟨hdriven, hben⟩ := hb
  have hlv : flipLevel (flipLevel c.cben) = c.cben := flipLevel_flipLevel hdriven
  have hbit : benOfLevel c.cben = c.ben := by
    rw [benOfLevel_eq_decide, Bool.eq_iff_iff, decide_eq_true_iff]
    exact hben.symm
  simp [CounterDev.afterTogb, hlv, hbit]

/-- Settles O30: the first TOGB changes CBEN's level, and the second changes it and BEN back. -/
theorem twoTogbsRestore : Obligations.TwoTogbsRestore := by
  intro s d hs r hcben
  have hctr := bodyTogb_ctr r
  obtain ⟨-, -, -, -, hben, -⟩ := settled_ready hs r
  have hcben' : ((s.bodyTogb d).ctr d).cfg.hasCben = true := by rw [hctr]; exact hcben
  refine ⟨_, _, exec_togb r hcben, exec_togb (bodyTogb_counterReady r) hcben', ?_, ?_, ?_⟩
  · intro heq
    apply (s.ctr d).afterTogb_ne
    rw [← hctr, State.ctr, heq]
    rfl
  · rw [bodyTogb_ctrs, bodyTogb_ctrs, modify_modify]
    exact ctr_modify_id (CounterDev.afterTogb_afterTogb hben hcben)
  · rw [bodyTogb_buses, bodyTogb_buses]

/-! ### OVF (R164, R165) -/

theorem checkOvf_pass {s : State} {d : Nat} (h : (s.ctr d).cfg.hasOvf = true) : s.checkOvf d = none := if_pos h

theorem exec_ovf {s : State} {d : Nat} (r : s.CounterReady d) (h : (s.ctr d).cfg.hasOvf = true) :
    exec (.ovf d) s = .next (s.bodyOvf d) :=
  exec_run (firstFailed_checksCounter_last r (checkOvf_pass h))

/-- Settles O31: the value is the sampled level. -/
theorem ovfCompletes : Obligations.OvfCompletes := by
  intro s d r hovf
  exact ⟨s.envNow, s.ovfSample, by rw [exec_ovf r hovf, bodyOvf_spec]⟩

/-! ### Live counts under a clear (R272) -/

theorem pulseA_of_clr_low {c : CounterDev} (hclr : c.clr = .L) (ic : CounterIC) : CounterIC.pulseA c ic = ic := by
  simp [CounterIC.pulseA, CounterDev.mayCount, hclr]

theorem pulseB_of_clr_low {c : CounterDev} (hclr : c.clr = .L) (ic : CounterIC) : CounterIC.pulseB c ic = ic := by
  simp [CounterIC.pulseB, CounterDev.mayCount, hclr]

/-- The IC of device d after a change of the IC of device i that would leave d's alone. -/
theorem ic?_modIC_of_fixed {e : Env} {d i : Nat} {f : CounterIC → CounterIC} (hf : i = d → ∀ ic, f ic = ic) :
    (e.modIC i f).ic? d = e.ic? d := by
  rw [ic?_modIC]
  split
  next h => rw [show f = id from funext (hf h), Option.map_id]; rfl
  next => rfl

/-- With CLR at L no move of the environment changes the device's IC. -/
theorem ic?_move_of_clr_low {ctrs : List CounterDev} {d : Nat} (hclr : (ctrs.getD d CounterDev.absent).clr = .L)
    (e : Env) (m : EnvMove) : (e.move ctrs m).ic? d = e.ic? d := by
  cases m with
  | pulseA i => exact ic?_modIC_of_fixed (fun h => h ▸ pulseA_of_clr_low hclr)
  | pulseB i => exact ic?_modIC_of_fixed (fun h => h ▸ pulseB_of_clr_low hclr)
  | elapse n => rfl

theorem ic?_advance_of_clr_low {ctrs : List CounterDev} {d : Nat} (hclr : (ctrs.getD d CounterDev.absent).clr = .L)
    (e : Env) (n : Nat) : (e.advance ctrs n).ic? d = e.ic? d := by
  unfold Env.advance
  induction e.movesBefore n generalizing e with
  | nil => rfl
  | cons m ms ih => rw [List.foldl_cons, ih, ic?_move_of_clr_low hclr]

/-- Driving CLR low zeroes both live counts of the attached IC, whatever it counted before. -/
theorem lives_zero_of_clr_low {s : State} {d : Nat} {ic : CounterIC} (hic : s.env.ic? d = some ic) :
    (s.drive (.clr d) .L).env.Lives d 0#16 0#16 := by
  obtain ⟨ic', hic', -, -⟩ : s.envNow.Stores d ic.storeA ic.storeB := Stores_advance ⟨ic, hic, rfl, rfl⟩
  exact ⟨ic'.clearBoth s.drawNow, by simp [Env.onDrive, ic?_modIC, hic'], rfl, rfl⟩

/-- CLEAR leaves both live counts at 0: what comes while CLR is at L is not counted. -/
theorem bodyClear_lives_zero {s : State} {d : Nat} {ic : CounterIC} (hd : d < s.ctrs.length)
    (hic : s.env.ic? d = some ic) : (s.bodyClear d).env.Lives d 0#16 0#16 := by
  obtain ⟨ic₀, hic₀, hA, hB⟩ := lives_zero_of_clr_low hic
  have hclr : ((s.drive (.clr d) .L).ctrs.getD d CounterDev.absent).clr = .L := by
    rw [State.drive_ctrs, setCtrPin, getD_modify_self _ _ _ _ hd]
  have hhold : ((s.drive (.clr d) .L).hold s.tHold).env.ic? d = some ic₀ :=
    (ic?_advance_of_clr_low hclr _ _).trans hic₀
  exact ⟨ic₀, (ic?_advance_of_clr_low hclr _ _).trans hhold, hA, hB⟩

theorem bodyClear_env_script (d : Nat) (s : State) : (s.bodyClear d).env.script = s.env.script := by
  rw [State.bodyClear, State.ret_env, drive_env_script, hold_env_script, drive_env_script]

/-! ### A read after a clear -/

theorem pickHalf_self (a : Reg16) (h : Half) : pickHalf a a h = a := by cases h <;> rfl

/-- READR answers the live count of its half as it is at the pulse (R137). -/
theorem readr_answers_live {s : State} {d : Nat} {h : Half} {a b : Reg16} (hs : s.Settled) (r : s.CounterReady d)
    (hb : s.HalfEnabled d h) (hst : s.SelfTestOk d) (hq : busQuiet s.ctrs d = true) (hl : s.envNow.Lives d a b) :
    ∃ t, exec (.readr d h) s = .next t ∧ t.outcomes = s.outcomes ++ [.ok (.reg (pickHalf a b h))] := by
  obtain ⟨-, hg, hr, -⟩ := settled_ready hs r
  have ⟨_, hd, _⟩ := r
  obtain ⟨hv, -⟩ := readReg_view hd hl hr hg hq h
  refine ⟨_, exec_run (checksRead16_pass r hb hst), ?_⟩
  change ((s.readReg d h).ret (.reg (s.regValue d h))).outcomes = _
  rw [State.ret_outcomes, (keeps_readReg s d h).outcomes, hv]

/-- Settles O59: the clear leaves the live counts at 0, and with no move before the latch READR answers them. -/
theorem readAfterClearIsZero : Obligations.ReadAfterClearIsZero := by
  intro s d h ic hs r hb hst hq hic hquiet
  obtain ⟨e, he⟩ := bodyClear_of_settled hs r
  have ⟨_, hd, _⟩ := r
  have hlive := bodyClear_lives_zero hd hic
  have hscript := bodyClear_env_script d s
  rw [he] at hlive hscript
  have hstill : e.movesBefore (s.hist ++ clearEvents d s.tHold).length = [] := by
    rw [movesBefore_of_script hscript, List.length_append]
    exact hquiet
  have hnow : (e.advance s.ctrs (s.hist ++ clearEvents d s.tHold).length).Lives d 0#16 0#16 := by
    rw [advance_of_no_moves hstill]
    exact hlive
  obtain ⟨u, hu, hout⟩ := readr_answers_live (s := { s with
      env := e, hist := s.hist ++ clearEvents d s.tHold, outcomes := s.outcomes ++ [.ok .none], pc := s.pc + 1 })
    hs r hb hst hq hnow
  refine ⟨_, u, by rw [exec_clear r, he], hu, ?_⟩
  rw [hout, pickHalf_self, List.append_assoc]
  rfl

end Sys2Proof.Machine
end

section
/-! Check 7: which reads E_SELFTEST refuses, and that it refuses nothing else (spec/42_selftest.md R187). -/

namespace Sys2Proof.Machine

/-- Check 7 fails exactly while a channel of the device runs and no TICK has come. -/
theorem checkSelfTest_eq_selftest_iff {s : State} {d : Nat} :
    s.checkSelfTest d = some .selftest
      ↔ ((s.ctr d).chA.run = true ∨ (s.ctr d).chB.run = true) ∧ (s.ctr d).ticked = false := by
  simp [State.checkSelfTest]

/-- Checks 2 to 6 pass for a READ: in Single32 check 6 is on BEN, in Dual16 on half h (R140, R141). -/
theorem firstFailed_checksRead {s : State} {d : Nat} {h : Half} (r : s.CounterReady d)
    (hS : (s.ctr d).cfg.dual16 = false → (s.ctr d).ben = true)
    (hD : (s.ctr d).cfg.dual16 = true → s.HalfEnabled d h) :
    firstFailed (s.checksRead d h) = firstFailed [s.checkSelfTest d] := by
  cases hm : (s.ctr d).cfg.dual16 with
  | false =>
    rw [checksRead_of_readsB (.inl hm), firstFailed_checksCounter_append r, checkBEnabled_pass (fun _ => hS hm)]
    rfl
  | true =>
    rw [checksRead_of_dual16 hm, State.checksRead16, firstFailed_checksCounter_append r, checkHalf_pass (hD hm)]
    rfl

theorem firstFailed_checksRead16 {s : State} {d : Nat} {h : Half} (r : s.CounterReady d) (hb : s.HalfEnabled d h) :
    firstFailed (s.checksRead16 d h) = firstFailed [s.checkSelfTest d] := by
  rw [State.checksRead16, firstFailed_checksCounter_append r, checkHalf_pass hb]
  rfl

theorem firstFailed_checksRead32 {s : State} {d : Nat} (r : s.CounterReady d) (hm : (s.ctr d).cfg.dual16 = false)
    (hb : (s.ctr d).ben = true) : firstFailed (s.checksRead32 d) = firstFailed [s.checkSelfTest d] := by
  rw [State.checksRead32, firstFailed_checksCounter_append r, checkSingle32_pass hm, checkBEnabled_pass (fun _ => hb)]
  rfl

theorem selftest_ne_checkBEnabled (s : State) (d : Nat) : some .selftest ≠ s.checkBEnabled d := by
  simp [State.checkBEnabled]

theorem selftest_ne_checkHalf (s : State) (d : Nat) (h : Half) : some .selftest ≠ s.checkHalf d h := by
  cases h with
  | A => simp [State.checkHalf]
  | B => exact selftest_ne_checkBEnabled s d

theorem selftest_ne_check5 (s : State) (d : Nat) :
    some .selftest ≠ s.checkSingle32 d ∧ some .selftest ≠ s.checkCben d ∧ some .selftest ≠ s.checkOvf d := by
  simp [State.checkSingle32, State.checkCben, State.checkOvf]

theorem selftest_notMem_checksCounter (s : State) (d : Nat) : some .selftest ∉ s.checksCounter d := by
  simp [State.checksCounter, State.checkInit, State.checkCtr, State.checkHalted]

theorem selftest_notMem_checksLine (s : State) (b c : Nat) : some .selftest ∉ s.checksLine b c := by
  simp [State.checksLine, State.checkInit, State.checkLine]

/-- The command reads device d. -/
def ReadsDevice (i : Instr) (d : Nat) : Prop := ∃ h, i = .readl d h ∨ i = .readr d h ∨ i = .read32 d ∨ i = .read d h

/-- Of the counter commands only the reads make check 7. -/
theorem selftest_mem_checksOf_ctr {s : State} {i : Instr} {d : Nat} (hd : ctrIndex i = some d)
    (h : some .selftest ∈ checksOf s i) : ReadsDevice i d ∧ some .selftest = s.checkSelfTest d := by
  have hC := selftest_notMem_checksCounter s d
  have hB := selftest_ne_checkBEnabled s d
  have hH := selftest_ne_checkHalf s d
  obtain ⟨h32, hcben, hovf⟩ := selftest_ne_check5 s d
  cases i <;> cases hd
  case latch => exact absurd h hC
  case clear => exact absurd h hC
  case togb => simp [checksOf, hC, hcben] at h
  case ovf => simp [checksOf, hC, hovf] at h
  case readl k => exact ⟨⟨k, .inl rfl⟩, by simpa [checksOf, State.checksRead16, hC, hH] using h⟩
  case readr k => exact ⟨⟨k, .inr (.inl rfl)⟩, by simpa [checksOf, State.checksRead16, hC, hH] using h⟩
  case read32 => exact ⟨⟨.A, .inr (.inr (.inl rfl))⟩, by simpa [checksOf, State.checksRead32, hC, h32, hB] using h⟩
  case read k =>
    have h6 : some .selftest ≠ if (s.ctr d).cfg.dual16 then s.checkHalf d k else s.checkBEnabled d := by
      split
      · exact hH k
      · exact hB
    exact ⟨⟨k, .inr (.inr (.inr rfl))⟩, by simpa [checksOf, State.checksRead, hC, h6] using h⟩

/-- Only a read makes check 7, and of its own device. -/
theorem selftest_mem_checksOf {s : State} {i : Instr} (h : some .selftest ∈ checksOf s i) :
    ∃ d, ReadsDevice i d ∧ some .selftest = s.checkSelfTest d := by
  obtain rfl | rfl | ⟨d, hd⟩ | ⟨b, c, hbc⟩ := command_kinds i
  · simp [checksOf, State.checkReinit] at h
  · simp [checksOf, State.checkInit] at h
  · exact ⟨d, selftest_mem_checksOf_ctr hd h⟩
  · rw [checksOf_of_lineIndex s hbc] at h
    exact absurd h (selftest_notMem_checksLine s b c)

/-- Every sequence but INIT's ends by returning a value. -/
theorem bodyOf_eq_ret (s : State) {i : Instr} (hi : i ≠ .init) : ∃ u v, bodyOf s i = State.ret u v := by
  have read32 (d : Nat) : ∃ u v, s.bodyRead32 d = State.ret u v := by
    unfold State.bodyRead32
    split <;> exact ⟨_, _, rfl⟩
  cases i
  case init => exact absurd rfl hi
  case read32 d => exact read32 d
  case read d h =>
    simp only [bodyOf, State.bodyRead]
    split
    · exact ⟨_, _, rfl⟩
    · exact read32 d
  all_goals exact ⟨_, _, rfl⟩

/-- No command that passes its checks answers E_SELFTEST. -/
theorem bodyOf_outcomes_ne_selftest (s : State) (i : Instr) :
    (bodyOf s i).outcomes ≠ s.outcomes ++ [.err .selftest none] := by
  intro h
  by_cases hi : i = .init
  · subst hi
    obtain ⟨e, he⟩ := bodyInit_spec s
    cases hbad : s.firstBad <;> simp [bodyOf, he, hbad, initReply] at h
  · obtain ⟨u, v, hu⟩ := bodyOf_eq_ret s hi
    rw [hu, State.ret_outcomes] at h
    obtain ⟨-, hlast⟩ := List.append_inj' h rfl
    simp at hlast

/-- Settles O21: a read that passed checks 1 to 6 comes to check 7 and fails it; and E_SELFTEST comes from no
sequence and no other check. -/
theorem selfTestGuards : Obligations.SelfTestGuards := by
  constructor
  · intro s d h i r hrun ht hi
    have hfail : firstFailed [s.checkSelfTest d] = some .selftest := by
      rw [checkSelfTest_eq_selftest_iff.mpr ⟨hrun, ht⟩]
      rfl
    apply exec_raise
    rw [← hfail]
    obtain ⟨rfl | rfl, hb⟩ | ⟨rfl, hm, hb⟩ | ⟨rfl, hS, hD⟩ := hi
    · exact firstFailed_checksRead16 r hb
    · exact firstFailed_checksRead16 r hb
    · exact firstFailed_checksRead32 r hm hb
    · exact firstFailed_checksRead r hS hD
  · intro s t i ht hout
    obtain ⟨-, rfl⟩ | ⟨c, hc, rfl⟩ := exec_cases ht
    · exact absurd hout (bodyOf_outcomes_ne_selftest s i)
    · have hcode : c = .selftest := by simpa using hout
      rw [hcode] at hc
      obtain ⟨d, ⟨h, hi⟩, hcheck⟩ := selftest_mem_checksOf (firstFailed_mem hc)
      exact ⟨d, h, hi, checkSelfTest_eq_selftest_iff.mp hcheck.symm⟩

end Sys2Proof.Machine
end

section
/-! The self-test generator: one channel's step, what a TICK does to every device and pin, and the half-period
(spec/42_selftest.md R181 to R190). -/

namespace Sys2Proof.Machine

/-! ### The half-period (R181) -/

/-- Settles O35: the quotient is below 2^32, and its bounds are those of Euclidean division. -/
theorem halfPeriodRoundsToNearest : Obligations.HalfPeriodRoundsToNearest := by
  intro f hf
  have hpos : 0 < f.toNat := by
    apply Nat.pos_of_ne_zero
    exact fun h => hf (BitVec.eq_of_toNat_eq h)
  have hle : (1000000 + f.toNat) / (2 * f.toNat) ≤ 500000 :=
    Nat.lt_succ_iff.mp (Nat.div_lt_of_lt_mul (by omega))
  have hval : (halfPeriod f).toNat = (1000000 + f.toNat) / (2 * f.toNat) := by
    rw [halfPeriod, BitVec.toNat_ofNat, Nat.mod_eq_of_lt (by omega)]
  rw [hval]
  exact ⟨rfl, Nat.mul_div_le _ _, Nat.lt_mul_div_succ _ (by omega), hle⟩

/-! ### When a channel is due (R182, R184) -/

theorem elapsed_eq (t last : Word) : elapsed t last = (t.toNat + (2 ^ 32 - last.toNat)) % 2 ^ 32 := by
  rw [elapsed, BitVec.toNat_sub, Nat.add_comm]

theorem Channel.due_iff {ch : Channel} {t : Word} :
    ch.due t = true ↔ ch.run = true ∧ ch.half.toNat ≤ (t.toNat + (2 ^ 32 - ch.last.toNat)) % 2 ^ 32 := by
  rw [Channel.due, Bool.and_eq_true, decide_eq_true_iff, elapsed_eq]

/-- Between real times t1 and t2 at most t2 - t1 elapses in the 32-bit count (R184). -/
theorem elapsed_ofNat_le {t1 t2 : Nat} (h : t1 ≤ t2) : elapsed (BitVec.ofNat 32 t2) (BitVec.ofNat 32 t1) ≤ t2 - t1 := by
  rw [elapsed_eq, BitVec.toNat_ofNat, BitVec.toNat_ofNat]
  omega

theorem Channel.afterTick_of_due {ch : Channel} {t : Word} (h : ch.due t = true) :
    ch.afterTick t = { ch with lvl := !ch.lvl, pin := if ch.lvl then .L else .H, last := t } := if_pos h

theorem Channel.afterTick_of_not_due {ch : Channel} {t : Word} (h : ¬ ch.due t = true) : ch.afterTick t = ch := if_neg h

theorem toggleEvents_of_due {ch : Channel} {t : Word} (h : ch.due t = true) (d : Nat) (x : Half) :
    toggleEvents d x ch t = [.drive (.tclk d x) (if ch.lvl then .L else .H)] := if_pos h

theorem toggleEvents_of_not_due {ch : Channel} {t : Word} (h : ¬ ch.due t = true) (d : Nat) (x : Half) :
    toggleEvents d x ch t = [] := if_neg h

/-! ### One channel's step (R182) -/

/-- tickChannel in full, but for the attached device. -/
theorem tickChannel_spec (t : Word) (d : Nat) (s : State) (x : Half) :
    ∃ e, s.tickChannel t d x =
      { s with ctrs := s.ctrs.modify d (fun c => c.modChan x (Channel.afterTick t)), env := e
               hist := s.hist ++ toggleEvents d x ((s.ctr d).chan x) t } := by
  refine ⟨(s.tickChannel t d x).env, ?_⟩
  rw [(keeps_tickChannel t d s x).eq, tickChannel_ctrs, tickChannel_hist, tickChannel_buses]

theorem tickChannel_of_not_due {t : Word} {d : Nat} {s : State} {x : Half} (h : ¬ ((s.ctr d).chan x).due t = true) :
    s.tickChannel t d x = s := if_neg h

theorem CounterDev.modChan_const (c : CounterDev) (x : Half) (f : Channel → Channel) :
    c.modChan x (fun _ => f (c.chan x)) = c.modChan x f := by cases x <;> rfl

/-- Settles O33: due is R182's condition, and each clause is one branch of the step. -/
theorem channelTogglesWhenDue : Obligations.ChannelTogglesWhenDue := by
  intro t d x
  refine ⟨fun s => ?_, fun ch => ?_⟩
  · dsimp only
    rw [← Channel.due_iff]
    refine ⟨fun hdue => ?_, tickChannel_of_not_due⟩
    obtain ⟨e, he⟩ := tickChannel_spec t d s x
    refine ⟨e, ?_⟩
    rw [he, toggleEvents_of_due hdue, ← Channel.afterTick_of_due hdue]
    congr 1
    exact modify_congr_at _ _ _ _ CounterDev.absent fun _ => ((s.ctr d).modChan_const x (Channel.afterTick t)).symm
  · rw [← Channel.due_iff]
    exact ⟨fun h => ⟨Channel.afterTick_of_due h, toggleEvents_of_due h d x⟩,
      fun h => ⟨Channel.afterTick_of_not_due h, toggleEvents_of_not_due h d x⟩⟩

/-! ### A whole TICK (R183, R189) -/

theorem exec_tick {s : State} (hi : s.initDone = true) : exec .tick s = .next s.bodyTick :=
  exec_run (by rw [checksOf, checkInit_pass hi]; rfl)

/-- Settles O32: the check passes, and the loop's effect on each device is afterTick. -/
theorem tickCompletes : Obligations.TickCompletes := by
  intro s hi
  obtain ⟨e, he⟩ := bodyTick_spec s
  exact ⟨e, s.timeNow, by rw [exec_tick hi, he]; rfl⟩

theorem CounterDev.chan_afterTick {c : CounterDev} (hl : c.life = .ready) (t : Word) (x : Half) :
    (c.afterTick t).chan x = (c.chan x).afterTick t := by
  rw [CounterDev.afterTick, if_pos hl]
  cases x <;> rfl

theorem bodyTick_ctr (s : State) (d : Nat) : (s.bodyTick).ctr d = (s.ctr d).afterTick s.timeNow := by
  obtain ⟨e, he⟩ := bodyTick_spec s
  rw [he]
  exact List.getD_map _ CounterDev.absent (CounterDev.afterTick s.timeNow)

/-- A running channel with half-period 0 is always due (R190). -/
theorem Channel.due_of_half_zero {ch : Channel} (hr : ch.run = true) (hh : ch.half = 0#32) (t : Word) :
    ch.due t = true := by simp [Channel.due, hr, hh]

/-- Settles O37: the channel is due whatever the time is. -/
theorem zeroHalfTogglesAlways : Obligations.ZeroHalfTogglesAlways := by
  intro s d x hi _ hl hr hh
  refine ⟨_, exec_tick hi, ?_⟩
  rw [bodyTick_ctr, CounterDev.chan_afterTick hl, Channel.afterTick_of_due (Channel.due_of_half_zero hr hh _)]

/-! ### The drives of one self-test pin within a TICK (R185) -/

/-- The event drives TCLKx of device d, to whatever level. -/
def drivesTclk (d : Nat) (x : Half) : Event → Bool
  | .drive p _ => p == .tclk d x
  | _ => false

/-- TICK's events on TCLKx of device d (R182, R183). -/
def tickPinEvents (t : Word) (d : Nat) (x : Half) (c : CounterDev) : List Event :=
  if c.life = .ready then toggleEvents d x (c.chan x) t else []

theorem filter_toggleEvents (t : Word) (d d' : Nat) (x x' : Half) (ch : Channel) :
    (toggleEvents d' x' ch t).filter (drivesTclk d x) = if d' = d ∧ x' = x then toggleEvents d' x' ch t else [] := by
  unfold toggleEvents
  split
  · by_cases h : d' = d ∧ x' = x <;> cases ch.lvl <;> simp [drivesTclk, h]
  · simp

theorem filter_tickDeviceEvents (t : Word) (d d' : Nat) (x : Half) (c : CounterDev) :
    (tickDeviceEvents t d' c).filter (drivesTclk d x) = if d' = d then tickPinEvents t d x c else [] := by
  unfold tickDeviceEvents tickPinEvents
  split
  · rw [List.filter_append, filter_toggleEvents, filter_toggleEvents]
    by_cases h : d' = d
    · subst h
      cases x <;> simp [CounterDev.chan]
    · simp [h]
  · simp

/-- Of a loop over the indexes below n in which only index d adds events, the events are d's. -/
theorem flatMap_range_ite_eq {α : Type} (n d : Nat) (f : Nat → List α) :
    ((List.range n).flatMap fun i => if i = d then f i else []) = if d < n then f d else [] := by
  induction n with
  | zero => simp
  | succ n ih =>
    rw [List.range_succ, List.flatMap_append, ih, List.flatMap_singleton]
    by_cases h : n = d
    · subst h
      simp
    · have hlt : d < n + 1 ↔ d < n := by omega
      simp [h, hlt]

/-- Within a TICK, TCLKx of device d is driven by that channel's own step only. -/
theorem filter_tickEvents (t : Word) (d : Nat) (x : Half) (s : State) :
    ((List.range s.ctrs.length).flatMap fun i => tickDeviceEvents t i (s.ctr i)).filter (drivesTclk d x)
      = if d < s.ctrs.length then tickPinEvents t d x (s.ctr d) else [] := by
  rw [List.filter_flatMap]
  simp only [filter_tickDeviceEvents]
  exact flatMap_range_ite_eq _ _ _

theorem length_tickPinEvents_le (t : Word) (d : Nat) (x : Half) (c : CounterDev) :
    (tickPinEvents t d x c).length ≤ 1 := by
  unfold tickPinEvents toggleEvents
  split
  · split <;> simp
  · simp

/-- Settles O34: a refused TICK adds no event, and in one that runs only the channel's own step drives the pin. -/
theorem oneTogglePerTick : Obligations.OneTogglePerTick := by
  intro s t d x h
  obtain ⟨-, rfl⟩ | ⟨c, -, rfl⟩ := exec_cases h
  · obtain ⟨e, he⟩ := bodyTick_spec s
    refine ⟨_, by rw [bodyOf, he], ?_⟩
    calc _ ≤ List.countP (drivesTclk d x) _ := List.countP_mono_left fun ev _ hev => by
            obtain rfl | rfl := by simpa using hev
            · simp [drivesTclk]
            · simp [drivesTclk]
      _ = (if d < s.ctrs.length then tickPinEvents s.timeNow d x (s.ctr d) else []).length := by
            rw [List.countP_eq_length_filter, List.filter_append, filter_tickEvents]
            rfl
      _ ≤ 1 := by
            split
            · exact length_tickPinEvents_le _ _ _ _
            · exact Nat.zero_le 1
  · exact ⟨[], by simp, by simp⟩

/-! ### Two toggles in real time (R188) -/

theorem due_of_mem_tickPinEvents {t : Word} {d : Nat} {x : Half} {c : CounterDev} {ev : Event}
    (h : ev ∈ tickPinEvents t d x c) : c.life = .ready ∧ (c.chan x).due t = true := by
  unfold tickPinEvents at h
  split at h
  next hl =>
    refine ⟨hl, ?_⟩
    by_contra hdue
    simp [toggleEvents_of_not_due hdue] at h
  next => simp at h

/-- A TICK that drives TCLKx found the channel of a Ready device due. -/
theorem due_of_drive_mem {t : Word} {d : Nat} {x : Half} {s : State} {lv : Level}
    (h : .drive (.tclk d x) lv ∈ (List.range s.ctrs.length).flatMap fun i => tickDeviceEvents t i (s.ctr i)) :
    (s.ctr d).life = .ready ∧ ((s.ctr d).chan x).due t = true := by
  have hpin := List.mem_filter_of_mem h (show drivesTclk d x _ = true by simp [drivesTclk])
  rw [filter_tickEvents] at hpin
  split at hpin
  next => exact due_of_mem_tickPinEvents hpin
  next => simp at hpin

/-- Settles O36: the TICK found the channel due, and the 32-bit count never shows more time than has really passed. -/
theorem togglesAreHalfApart : Obligations.TogglesAreHalfApart := by
  intro s t d x t1 t2 evs lv hle hlast h hhist hdrive
  obtain ⟨-, rfl⟩ | ⟨c, -, rfl⟩ := exec_cases h
  · obtain ⟨e, he⟩ := bodyTick_spec s
    obtain ⟨hnow, rfl⟩ := by simpa [bodyOf, he] using hhist
    obtain ⟨hl, hdue⟩ := due_of_drive_mem hdrive
    have hhalf : ((s.ctr d).chan x).half.toNat ≤ elapsed s.timeNow ((s.ctr d).chan x).last := by
      rw [elapsed_eq]
      exact (Channel.due_iff.mp hdue).2
    constructor
    · rw [hnow, hlast] at hhalf
      exact hhalf.trans (elapsed_ofNat_le hle)
    · rw [bodyOf, bodyTick_ctr, CounterDev.chan_afterTick hl, Channel.afterTick_of_due hdue, hnow]
  · simp at hhist

end Sys2Proof.Machine
end

section
/-! The delay-line commands: what a DLWR does to the block, and what no delay-line command touches
(spec/43_delay_line.md R200 to R203, R209). -/

namespace Sys2Proof.Machine

/-! ### Checks 2 and 3 are all a delay-line command makes -/

/-- Where its line exists after INIT, a delay-line command passes its checks. -/
theorem firstFailed_of_lineReady {s : State} {i : Instr} {b c : Nat} (hi : lineIndex i = some (b, c))
    (r : s.LineReady b c) : firstFailed (checksOf s i) = none := by
  rw [checksOf_of_lineIndex s hi, checksLine_pass r]

/-! ### DLWR (R202) -/

theorem exec_dlwr {s : State} {b c : Nat} (r : s.LineReady b c) (v : Byte) :
    exec (.dlwr b c v) s = .next (s.writeLine b c v) :=
  exec_run (firstFailed_of_lineReady rfl r)

/-- Settles O38: the checks pass, and DelayLine.write is the whole command. -/
theorem dlwrCompletes : Obligations.DlwrCompletes := by
  intro s b c v r
  obtain ⟨e, he⟩ := writeLine_spec b c v s
  exact ⟨e, by rw [exec_dlwr r, he]⟩

/-! ### The frame (R209) -/

/-- Settles O46: a command that runs is a serial write to its own line or a DLGET, which only answers; a refused
command only answers too, and its line does not exist or INIT is still to come. -/
theorem delayCommandFrame : Obligations.DelayCommandFrame := by
  intro i s t b c hi h
  obtain ⟨-, rfl⟩ | ⟨err, herr, rfl⟩ := exec_cases h
  · obtain ⟨v, e, he, -⟩ | ⟨-, he⟩ := line_body (s := s) hi
    · obtain ⟨hbus, hline, -⟩ := afterWrite_bus (s := s) (t := bodyOf s i) (by rw [he])
      have hparams : (bodyOf s i).params = s.params := by simp only [he, State.params, modify_lines]
      exact ⟨fun _ => ⟨v, by rw [he]⟩, by rw [he], by rw [he], hparams, hbus, hline, writeEvents b c s.tSer v,
        by rw [he], write_drives b c s.tSer v⟩
    · rw [he]
      exact ⟨fun _ => ⟨_, rfl⟩, rfl, rfl, rfl, fun _ _ => rfl, fun _ _ => rfl, [], by simp, by simp⟩
  · refine ⟨fun r => ?_, rfl, rfl, rfl, fun _ _ => rfl, fun _ _ => rfl, [], by simp, by simp⟩
    simp [firstFailed_of_lineReady hi r] at herr

end Sys2Proof.Machine
end

section
/-! Every step keeps the settled invariant (spec/10_state.md R40, R43, R53, spec/44_lifecycle.md R233): first what one
device and one bus become under each update a command makes of them, then the commands, then the host's step. -/

namespace Sys2Proof.Machine

/-! ### A settled device by its LIFE (R39) -/

theorem CounterDev.settled_iff_of_uninit {c : CounterDev} (hl : c.life = .uninit) (initDone : Bool) :
    c.Settled initDone ↔ initDone = false ∧ c.PinsUndriven ∧ c.ben = false ∧ c.ticked = false ∧ c.chA.run = false
      ∧ c.chB.run = false := by simp only [CounterDev.Settled, hl]

theorem CounterDev.settled_iff_of_ready {c : CounterDev} (hl : c.life = .ready) (initDone : Bool) :
    c.Settled initDone ↔ initDone = true ∧ c.cfg.valid = true ∧ c.PinsIdle ∧ c.BenSettled ∧ c.chA.Settled c.cfg .A
      ∧ c.chB.Settled c.cfg .B := by simp only [CounterDev.Settled, hl]

theorem CounterDev.settled_iff_of_halted {c : CounterDev} (hl : c.life = .halted) (initDone : Bool) :
    c.Settled initDone ↔ initDone = true ∧ c.cfg.valid = false ∧ c.PinsUndriven ∧ c.chA.run = false
      ∧ c.chB.run = false := by simp only [CounterDev.Settled, hl]

/-- Before INIT a settled device is Uninit: no pin is driven and no channel runs. -/
theorem CounterDev.Settled.before_init {c : CounterDev} (h : c.Settled false) :
    c.PinsUndriven ∧ c.chA.run = false ∧ c.chB.run = false := by
  cases hl : c.life with
  | uninit =>
    obtain ⟨-, hz, -, -, hruns⟩ := (settled_iff_of_uninit hl _).mp h
    exact ⟨hz, hruns⟩
  | ready => cases ((settled_iff_of_ready hl _).mp h).1
  | halted => cases ((settled_iff_of_halted hl _).mp h).1

/-! ### Reset (R48) -/

theorem CounterDev.reset_settled (q : CtrParams) : (CounterDev.reset q).Settled false :=
  (settled_iff_of_uninit rfl _).mpr ⟨rfl, ⟨rfl, rfl, rfl, rfl, rfl, rfl⟩, rfl, rfl, rfl, rfl⟩

theorem SerialBus.reset_settled (n : Nat) : (SerialBus.reset n).Settled false :=
  ⟨rfl, rfl, fun _ => mem_reset_lines⟩

theorem ofParams_settled (p : Params) : (State.ofParams p).Settled :=
  ⟨List.forall_mem_map.mpr fun q _ => CounterDev.reset_settled q,
    List.forall_mem_map.mpr fun n _ => SerialBus.reset_settled n⟩

/-! ### INIT (R234, R235, R237) -/

/-- INIT drives the pin of a configured channel and leaves an idle one's pin at Z. -/
theorem Channel.afterInit_settled {ch : Channel} (hpin : ch.pin = .Z) (p : CtrParams) (x : Half) (t : Word) :
    (ch.afterInit p x t).Settled p x := by
  unfold Channel.Settled Channel.afterInit
  split
  · exact ⟨rfl, rfl, rfl⟩
  · exact ⟨rfl, hpin⟩

/-- INIT leaves B enabled, with CBEN at L where there is one. -/
theorem CounterDev.afterInit_benSettled {c : CounterDev} (hv : c.cfg.valid = true) (hcben : c.cben = .Z) (t : Word) :
    (c.afterInit t).BenSettled := by
  rw [CounterDev.afterInit, if_pos hv, CounterDev.BenSettled]
  cases h : c.cfg.hasCben <;> simp [hcben]

/-- INIT makes an undriven device Ready at its idle levels, or Halted and still undriven. -/
theorem CounterDev.Settled.afterInit {c : CounterDev} (h : c.Settled false) (t : Word) :
    (c.afterInit t).Settled true := by
  obtain ⟨hz, hruns⟩ := h.before_init
  cases hv : c.cfg.valid with
  | true =>
    obtain ⟨-, -, -, hcben, hA, hB⟩ := hz
    have hben := afterInit_benSettled hv hcben t
    rw [CounterDev.afterInit, if_pos hv] at hben ⊢
    exact (settled_iff_of_ready rfl _).mpr
      ⟨rfl, hv, ⟨rfl, rfl, rfl⟩, hben, Channel.afterInit_settled hA _ _ t, Channel.afterInit_settled hB _ _ t⟩
  | false =>
    rw [CounterDev.afterInit, if_neg (by simp [hv])]
    exact (settled_iff_of_halted rfl _).mpr ⟨rfl, hv, hz, hruns⟩

theorem SerialBus.afterInit_settled (bus : SerialBus) : bus.afterInit.Settled true :=
  ⟨rfl, by simp [SerialBus.afterInit], List.forall_mem_map.mpr fun _ _ => rfl⟩

/-- INIT brings a state from the invariant's clauses for INIT_DONE = 0 to those for INIT_DONE = 1 (R233). -/
theorem bodyInit_settled {s : State} (hs : s.Settled) (hi : s.initDone = false) : s.bodyInit.Settled := by
  obtain ⟨hctrs, -⟩ := hs
  rw [hi] at hctrs
  obtain ⟨e, he⟩ := bodyInit_spec s
  rw [he]
  exact ⟨List.forall_mem_map.mpr fun c hc => (hctrs c hc).afterInit _,
    List.forall_mem_map.mpr fun bus _ => bus.afterInit_settled⟩

/-! ### TICK (R182, R183) -/

/-- A toggle moves pin and level together; an idle channel is never due. -/
theorem Channel.Settled.afterTick {ch : Channel} {p : CtrParams} {x : Half} (h : ch.Settled p x) (t : Word) :
    (ch.afterTick t).Settled p x := by
  by_cases hdue : ch.due t = true
  · obtain ⟨hrun, -⟩ := Channel.due_iff.mp hdue
    rw [Channel.afterTick_of_due hdue]
    by_cases hconf : p.configured x = true
    · rw [Channel.Settled, if_pos hconf] at h ⊢
      obtain ⟨-, hhalf, -⟩ := h
      exact ⟨hrun, hhalf, by cases ch.lvl <;> rfl⟩
    · rw [Channel.Settled, if_neg hconf] at h
      simp [hrun] at h
  · rwa [Channel.afterTick_of_not_due hdue]

theorem CounterDev.Settled.afterTick {c : CounterDev} {initDone : Bool} (h : c.Settled initDone) (t : Word) :
    (c.afterTick t).Settled initDone := by
  unfold CounterDev.afterTick
  split
  next hl =>
    obtain ⟨hi, hv, hpins, hben, hA, hB⟩ := (settled_iff_of_ready hl _).mp h
    refine (settled_iff_of_ready ?_ _).mpr ⟨hi, hv, hpins, hben, hA.afterTick t, hB.afterTick t⟩
    exact hl
  next => exact h

theorem bodyTick_settled {s : State} (hs : s.Settled) : s.bodyTick.Settled := by
  obtain ⟨hctrs, hbuses⟩ := hs
  obtain ⟨e, he⟩ := bodyTick_spec s
  rw [he]
  exact ⟨List.forall_mem_map.mpr fun c hc => (hctrs c hc).afterTick _, hbuses⟩

/-! ### The counter commands -/

/-- Every counter command but TOGB brings each pin it drives back to its idle level. -/
theorem bodyOf_ctrs_of_settled {s : State} {i : Instr} {d : Nat} (hs : s.Settled) (r : s.CounterReady d)
    (hd : ctrIndex i = some d) (hi : i ≠ .togb d) : (bodyOf s i).ctrs = s.ctrs := by
  obtain ⟨hlatch, hhalf, hreg, hall, hclr⟩ := pulses_restore hs r
  have read32 : (s.bodyRead32 d).ctrs = s.ctrs := by
    obtain ⟨e, u, l, u', l', he⟩ := bodyRead32_spec d s
    rw [he, hall]
  have readr (h : Half) : (s.bodyReadr d h).ctrs = s.ctrs := by
    obtain ⟨e, u, l, he⟩ := bodyReadr_spec d h s
    rw [he, hreg]
  cases i <;> cases hd
  case latch =>
    obtain ⟨e, he⟩ := bodyLatch_spec d s
    rw [bodyOf, he, hlatch]
  case readl h =>
    obtain ⟨e, u, l, he⟩ := bodyReadl_spec d h s
    rw [bodyOf, he, hhalf]
  case readr h => exact readr h
  case read32 => exact read32
  case read h =>
    rw [bodyOf, State.bodyRead]
    split
    · exact readr h
    · exact read32
  case clear =>
    obtain ⟨e, he⟩ := bodyClear_spec d s
    rw [bodyOf, he, hclr]
  case togb => exact absurd rfl hi
  case ovf => rfl

/-- TOGB leaves CBEN driven and BEN its inverse (R163). -/
theorem CounterDev.afterTogb_benSettled {c : CounterDev} (hcben : c.cfg.hasCben = true) : c.afterTogb.BenSettled := by
  rw [CounterDev.BenSettled, if_pos (show c.afterTogb.cfg.hasCben = true from hcben)]
  cases h : c.cben <;> simp [CounterDev.afterTogb, flipLevel, benOfLevel, h]

theorem CounterDev.Settled.afterTogb {c : CounterDev} {initDone : Bool} (h : c.Settled initDone) (hl : c.life = .ready)
    (hcben : c.cfg.hasCben = true) : c.afterTogb.Settled initDone := by
  obtain ⟨hi, hv, hpins, -, hA, hB⟩ := (settled_iff_of_ready hl _).mp h
  exact (settled_iff_of_ready (c := c.afterTogb) hl _).mpr ⟨hi, hv, hpins, afterTogb_benSettled hcben, hA, hB⟩

/-- A TOGB that runs found a CBEN pin. -/
theorem hasCben_of_checks {s : State} {d : Nat} (h : firstFailed (checksOf s (.togb d)) = none) :
    (s.ctr d).cfg.hasCben = true := by
  have h5 := firstFailed_eq_none.mp h (s.checkCben d) (by simp [checksOf])
  by_contra hc
  simp [State.checkCben, hc] at h5

/-- TOGB keeps the settled form of its device; every other counter command leaves the devices as they were. -/
theorem bodyOf_settled_of_ctrIndex {s : State} {i : Instr} {d : Nat} (hs : s.Settled) (hd : ctrIndex i = some d)
    (hpass : firstFailed (checksOf s i) = none) : (bodyOf s i).Settled := by
  have r : s.CounterReady d := by
    obtain ⟨later, hlater⟩ := checksOf_of_ctrIndex s hd
    exact counterReady_of_checks (hlater ▸ hpass)
  have hctrs : ∀ c ∈ (bodyOf s i).ctrs, c.Settled s.initDone := by
    by_cases hi : i = .togb d
    · subst hi
      obtain ⟨hl, -⟩ := settled_ready hs r
      rw [bodyOf, bodyTogb_ctrs]
      refine forall_mem_modify _ _ _ CounterDev.absent hs.1 fun hlt => ?_
      exact (hs.1 _ (getD_mem _ _ _ hlt)).afterTogb hl (hasCben_of_checks hpass)
    · rw [bodyOf_ctrs_of_settled hs r hd hi]
      exact hs.1
  obtain ⟨f, e, evs, reply, he, -⟩ := ctr_body (s := s) hd
  rw [he] at hctrs ⊢
  exact ⟨hctrs, hs.2⟩

/-! ### The delay-line commands (R203) -/

/-- A serial write leaves the clock and every latch low. -/
theorem SerialBus.Settled.afterWrite {bus : SerialBus} (h : bus.Settled true) (c : Nat) (v : Byte) :
    (bus.afterWrite c v).Settled true := by
  obtain ⟨-, -, hlow⟩ := h
  refine ⟨rfl, ?_, forall_mem_modify _ _ _ DelayLine.reset hlow fun _ => rfl⟩
  change (if v.getLsbD 0 then Level.H else .L) ≠ .Z
  split <;> decide

/-- A delay-line command that runs is a serial write to its own line, or only answers. -/
theorem bodyOf_settled_of_lineIndex {s : State} {i : Instr} {b c : Nat} (hs : s.Settled)
    (hi : lineIndex i = some (b, c)) (r : s.LineReady b c) : (bodyOf s i).Settled := by
  obtain ⟨hdone, -⟩ := r
  obtain ⟨hctrs, hbuses⟩ := hs
  obtain ⟨v, e, he, -⟩ | ⟨-, he⟩ := line_body (s := s) hi
  · rw [hdone] at hbuses
    rw [he]
    refine ⟨hctrs, ?_⟩
    rw [hdone]
    exact forall_mem_modify _ _ _ SerialBus.absent hbuses fun hlt => (hbuses _ (getD_mem _ _ _ hlt)).afterWrite c v
  · rw [he]
    exact ⟨hctrs, hbuses⟩

/-! ### Every command and every step -/

theorem bodyOf_settled {s : State} {i : Instr} (hs : s.Settled) (hpass : firstFailed (checksOf s i) = none) :
    (bodyOf s i).Settled := by
  obtain rfl | rfl | ⟨d, hd⟩ | ⟨b, c, hbc⟩ := command_kinds i
  · refine bodyInit_settled hs ?_
    by_contra hi
    simp [firstFailed_init, hi] at hpass
  · exact bodyTick_settled hs
  · exact bodyOf_settled_of_ctrIndex hs hd hpass
  · exact bodyOf_settled_of_lineIndex hs hbc (lineReady_of_checks (checksOf_of_lineIndex s hbc ▸ hpass))

/-- Every command keeps the invariant; a refused one writes nothing. -/
theorem exec_settled {s t : State} {i : Instr} (hs : s.Settled) (h : exec i s = .next t) : t.Settled := by
  obtain ⟨hpass, rfl⟩ | ⟨c, -, rfl⟩ := exec_cases h
  · exact bodyOf_settled hs hpass
  · exact hs

/-- Everything a step can do: run a decoded word, refuse an illegal one, power-cycle, or wait. -/
theorem step_cases {s t : State} (h : step s = .next t) :
    (∃ w i, s.nextAction = some (.issue w) ∧ decode w = .ok i ∧ exec i s = .next t)
      ∨ (∃ w err, s.nextAction = some (.issue w) ∧ decode w = .error err ∧ t = s.raise .illegal)
      ∨ (∃ p, s.nextAction = some (.powerCycle p) ∧ p.legal = true ∧ t = s.powerCycle p)
      ∨ (s.nextAction = none ∧ t = s) := by
  unfold step State.legalStep at h
  split at h
  case isFalse => cases h
  unfold State.hostStep at h
  split at h
  next w hw =>
    cases hd : decode w with
    | ok i => exact .inl ⟨w, i, hw, hd, by rwa [runWord_of_decode hd] at h⟩
    | error err =>
      rw [runWord_of_illegal hd] at h
      cases h
      exact .inr (.inl ⟨w, err, hw, hd, rfl⟩)
  next p hp =>
    unfold State.hostPowerCycle at h
    split at h
    next hl =>
      cases h
      exact .inr (.inr (.inl ⟨p, hp, hl, rfl⟩))
    next => cases h
  next hn =>
    cases h
    exact .inr (.inr (.inr ⟨hn, rfl⟩))

/-- Settles O53: a command keeps the invariant, an illegal word and waiting write no pin, and a power cycle leaves the
reset state. -/
theorem settledKeptByStep : Obligations.SettledKeptByStep := by
  intro s t hs h
  obtain ⟨w, i, -, -, hexec⟩ | ⟨w, err, -, -, rfl⟩ | ⟨p, -, -, rfl⟩ | ⟨-, rfl⟩ := step_cases h
  · exact exec_settled hs hexec
  · exact hs
  · exact ofParams_settled p
  · exact hs

end Sys2Proof.Machine
end

section
/-! The lifecycle: what is refused before INIT, after it and on a Halted device, what INIT does, which configurations
it accepts, and when the time source is read (spec/44_lifecycle.md R230 to R241). -/

namespace Sys2Proof.Machine

/-! ### Refusals (R235, R240, R241) -/

theorem checkInit_fail {s : State} (hi : s.initDone = false) : s.checkInit = some .notInit := by
  simp [State.checkInit, hi]

/-- Every command but INIT makes check 2 first. -/
theorem checksOf_of_ne_init (s : State) {i : Instr} (hi : i ≠ .init) :
    ∃ later, checksOf s i = s.checkInit :: later := by
  obtain rfl | rfl | ⟨d, hd⟩ | ⟨b, c, hbc⟩ := command_kinds i
  · exact absurd rfl hi
  · exact ⟨[], rfl⟩
  · obtain ⟨later, hlater⟩ := checksOf_of_ctrIndex s hd
    exact ⟨_, hlater⟩
  · exact ⟨_, checksOf_of_lineIndex s hbc⟩

/-- Settles O15: check 2 is the first check and fails. -/
theorem notInitRefused : Obligations.NotInitRefused := by
  intro i s hi hdone
  obtain ⟨later, hlater⟩ := checksOf_of_ne_init s hi
  apply exec_raise
  rw [hlater, checkInit_fail hdone]
  rfl

/-- Settles O16: INIT's only check fails. -/
theorem secondInitRefused : Obligations.SecondInitRefused := by
  intro s hdone
  apply exec_raise
  rw [firstFailed_init, if_pos hdone]

/-- Checks 2 and 3 pass for an existing device after INIT, and check 4 fails on a Halted one (R235). -/
theorem firstFailed_config_of_halted {s : State} {d : Nat} (hi : s.initDone = true) (hd : d < s.ctrs.length)
    (hl : (s.ctr d).life = .halted) (later : List (Option ErrCode)) :
    firstFailed (s.checksCounter d ++ later) = some .config := by
  have h3 : s.checkCtr d = none := if_pos hd
  have h4 : s.checkHalted d = some .config := if_pos hl
  simp [State.checksCounter, firstFailed, checkInit_pass hi, h3, h4]

/-- Settles O18: after checks 2 and 3 check 4 is the first to fail. -/
theorem haltedDeviceRefused : Obligations.HaltedDeviceRefused := by
  intro i s d hi hdone hd hl
  obtain ⟨later, hlater⟩ := checksOf_of_ctrIndex s hi
  apply exec_raise
  rw [hlater, firstFailed_config_of_halted hdone hd hl]

/-! ### INIT (R230 to R237) -/

theorem exec_init {s : State} (hi : s.initDone = false) : exec .init s = .next s.bodyInit :=
  exec_run (by simp [firstFailed_init, hi])

theorem firstBad_eq_none {s : State} (h : ∀ d, d < s.ctrs.length → (s.ctr d).cfg.valid = true) : s.firstBad = none :=
  List.find?_range_eq_none.mpr fun d hd => by simp [h d hd]

theorem firstBad_eq_some {s : State} {d : Nat} (hd : d < s.ctrs.length) (hbad : (s.ctr d).cfg.valid = false)
    (hlow : ∀ d', d' < d → (s.ctr d').cfg.valid = true) : s.firstBad = some d :=
  List.find?_range_eq_some.mpr ⟨by simp [hbad], List.mem_range.mpr hd, fun d' hd' => by simp [hlow d' hd']⟩

/-- Settles O43: the check passes, the loops' effect on each device and bus is afterInit, and the answer names the
first device that is not valid. -/
theorem initCompletes : Obligations.InitCompletes := by
  intro s hi
  obtain ⟨e, he⟩ := bodyInit_spec s
  refine ⟨e, s.timeNow, initReply s.firstBad, by rw [exec_init hi, he], fun h => ?_, fun d hd hbad hlow => ?_⟩
  · rw [firstBad_eq_none h]
    rfl
  · rw [firstBad_eq_some hd hbad hlow]
    rfl

end Sys2Proof.Machine

namespace Sys2Proof

/-! ### The configuration word (R33, R34, R232) -/

/-- Bit k of a word is 1 exactly if masking with that bit alone leaves something. -/
theorem getLsbD_iff_and_twoPow_ne_zero {w k : Nat} (hk : k < w) (x : BitVec w) :
    x.getLsbD k = true ↔ x &&& BitVec.twoPow w k ≠ 0#w := by
  have hne : BitVec.twoPow w k ≠ 0#w := fun h => by simpa [hk] using congrArg (fun y => y.getLsbD k) h
  rw [BitVec.and_twoPow]
  cases x.getLsbD k <;> simp [hne]

/-- A masked word has a given value exactly if it has its bits under the mask, and the value has none elsewhere. -/
theorem and_eq_iff_getLsbD {w : Nat} (x m v : BitVec w) :
    x &&& m = v ↔ ∀ k < w, (x.getLsbD k && m.getLsbD k) = v.getLsbD k := by
  simp only [BitVec.eq_of_getLsbD_eq_iff, BitVec.getLsbD_and]

/-- The seven pins every device needs are bits 1 to 7 (R37). -/
theorem requiredPins_iff (p : CtrParams) :
    (p.hasGal && p.hasGau && p.hasGbl && p.hasGbu && p.hasRclk && p.hasClr && p.hasDb) = true
      ↔ p.cfg &&& 0x00FE#16 = 0x00FE#16 := by
  simp only [and_eq_iff_getLsbD, Nat.forall_lt_succ_left]
  simp [and_assoc, CtrParams.hasGal, CtrParams.hasGau, CtrParams.hasGbl, CtrParams.hasGbu, CtrParams.hasRclk,
    CtrParams.hasClr, CtrParams.hasDb]

/-- Single32 with both OVF and CBEN is bit 0 at 0, bits 8 and 9 at 1 (R232). -/
theorem single32WithBoth_iff (p : CtrParams) :
    (!p.dual16 && p.hasOvf && p.hasCben) = true ↔ p.cfg &&& 0x0301#16 = 0x0300#16 := by
  simp only [and_eq_iff_getLsbD, Nat.forall_lt_succ_left]
  simp [and_assoc, CtrParams.dual16, CtrParams.hasOvf, CtrParams.hasCben]

theorem CtrParams.valid_iff (p : CtrParams) :
    p.valid = true ↔ p.cfg &&& 0x00FE#16 = 0x00FE#16 ∧ p.cfg &&& 0x0301#16 ≠ 0x0300#16 := by
  rw [CtrParams.valid, Bool.and_eq_true, requiredPins_iff, Bool.not_eq_true', ← Bool.not_eq_true, single32WithBoth_iff]

theorem CtrParams.configured_iff (p : CtrParams) (x : Half) :
    p.configured x = true ↔ p.hasTclk x = true ∧ p.freq x ≠ 0#32 := by simp [CtrParams.configured]

/-- Settles O44: each field is one bit, and valid(d) asks for two masked values. -/
theorem validConfiguration : Obligations.ValidConfiguration := by
  intro p
  have bit (k : Nat) (hk : k < 16) : p.cfg.getLsbD k = true ↔ p.cfg &&& BitVec.twoPow 16 k ≠ 0#16 :=
    getLsbD_iff_and_twoPow_ne_zero hk p.cfg
  refine ⟨⟨bit 0 (by decide), bit 1 (by decide), bit 2 (by decide), bit 3 (by decide), bit 4 (by decide),
    bit 5 (by decide), bit 6 (by decide), bit 7 (by decide), bit 8 (by decide), bit 9 (by decide), bit 10 (by decide),
    bit 11 (by decide)⟩, ?_, ?_, ⟨rfl, rfl⟩, p.valid_iff⟩
  · exact (p.configured_iff .A).trans (and_congr_left' (bit 10 (by decide)))
  · exact (p.configured_iff .B).trans (and_congr_left' (bit 11 (by decide)))

end Sys2Proof

namespace Sys2Proof.Machine

/-! ### Reads of the time source (R183, R231) -/

/-- None of the events reads the time. -/
def ReadsNoTime (evs : List Event) : Prop := ∀ n, Event.now n ∉ evs

@[simp] theorem readsNoTime_nil : ReadsNoTime [] := fun _ => List.not_mem_nil

@[simp] theorem readsNoTime_append {evs evs' : List Event} :
    ReadsNoTime (evs ++ evs') ↔ ReadsNoTime evs ∧ ReadsNoTime evs' := by
  simp [ReadsNoTime, forall_and]

@[simp] theorem readsNoTime_flatMap {α : Type} {l : List α} {f : α → List Event} :
    ReadsNoTime (l.flatMap f) ↔ ∀ a ∈ l, ReadsNoTime (f a) := by
  simp only [ReadsNoTime, List.mem_flatMap, not_exists, not_and]
  exact forall_comm.trans (forall_congr' fun _ => forall_comm)

@[simp] theorem readsNoTime_latchEvents (d n : Nat) : ReadsNoTime (latchEvents d n) := by
  simp [ReadsNoTime, latchEvents]

@[simp] theorem readsNoTime_clearEvents (d n : Nat) : ReadsNoTime (clearEvents d n) := by
  simp [ReadsNoTime, clearEvents]

@[simp] theorem readsNoTime_halfEvents (d : Nat) (h : Half) (n : Nat) (u l : Byte) :
    ReadsNoTime (halfEvents d h n u l) := by simp [ReadsNoTime, halfEvents, byteEvents]

@[simp] theorem readsNoTime_regEvents (d : Nat) (h : Half) (n : Nat) (u l : Byte) :
    ReadsNoTime (regEvents d h n u l) := by simp [regEvents]

@[simp] theorem readsNoTime_writeEvents (b c n : Nat) (v : Byte) : ReadsNoTime (writeEvents b c n v) := by
  simp [ReadsNoTime, writeEvents, bitEvents]

@[simp] theorem readsNoTime_initDeviceEvents (d : Nat) (p : CtrParams) : ReadsNoTime (initDeviceEvents d p) := by
  simp [ReadsNoTime, initDeviceEvents]

@[simp] theorem readsNoTime_initBusEvents (b n : Nat) : ReadsNoTime (initBusEvents b n) := by
  simp [ReadsNoTime, initBusEvents]

@[simp] theorem readsNoTime_tickDeviceEvents (t : Word) (d : Nat) (c : CounterDev) :
    ReadsNoTime (tickDeviceEvents t d c) := by
  simp [ReadsNoTime, tickDeviceEvents, toggleEvents]

/-- INIT and TICK read the time first and not again. -/
theorem body_hist_of_init_or_tick (s : State) {i : Instr} (hi : i = .init ∨ i = .tick) :
    ∃ rest, (bodyOf s i).hist = s.hist ++ .now s.timeNow :: rest ∧ ReadsNoTime rest := by
  obtain rfl | rfl := hi
  · obtain ⟨e, he⟩ := bodyInit_spec s
    exact ⟨_, by rw [bodyOf, he, List.append_assoc, List.singleton_append], by simp⟩
  · obtain ⟨e, he⟩ := bodyTick_spec s
    exact ⟨_, by rw [bodyOf, he, List.singleton_append], by simp⟩

/-- No other command reads the time. -/
theorem body_readsNoTime (s : State) {i : Instr} (hi : ¬ (i = .init ∨ i = .tick)) :
    ∃ evs, (bodyOf s i).hist = s.hist ++ evs ∧ ReadsNoTime evs := by
  obtain ⟨evs, hhist, hevs⟩ := body_hist s i
  refine ⟨evs, hhist, ?_⟩
  have reg {d : Nat} {h : Half} (hreg : ∃ u l, evs = regEvents d h s.tHold u l) : ReadsNoTime evs := by
    obtain ⟨u, l, rfl⟩ := hreg
    simp
  have twoReads {d : Nat} (h : ∃ h h' u l u' l', evs = regEvents d h s.tHold u l ++ regEvents d h' s.tHold u' l') :
      ReadsNoTime evs := by
    obtain ⟨h, h', u, l, u', l', rfl⟩ := h
    simp
  have write {b c : Nat} (h : ∃ v, evs = writeEvents b c s.tSer v) : ReadsNoTime evs := by
    obtain ⟨v, rfl⟩ := h
    simp
  cases i with
  | init => exact absurd (.inl rfl) hi
  | tick => exact absurd (.inr rfl) hi
  | latch d => simp [hevs]
  | readl d h =>
    obtain ⟨u, l, rfl⟩ := hevs
    simp
  | readr d h => exact reg hevs
  | read32 d => exact twoReads hevs
  | read d h =>
    simp only at hevs
    split at hevs
    · exact reg hevs
    · exact twoReads hevs
  | clear d => simp [hevs]
  | togb d => simp [hevs, ReadsNoTime]
  | ovf d => simp [hevs, ReadsNoTime]
  | dlwr b c v => exact write hevs
  | dlinc b c delta => exact write hevs
  | dldec b c delta => exact write hevs
  | dlget b c => simp [hevs]

/-- Settles O50: INIT and TICK begin with their one time read, and neither another command nor a refused one makes
any. -/
theorem timeReadByInitAndTickOnly : Obligations.TimeReadByInitAndTickOnly := by
  intro i s t n h
  obtain ⟨-, rfl⟩ | ⟨c, -, rfl⟩ := exec_cases h
  · by_cases hi : i = .init ∨ i = .tick
    · obtain ⟨rest, hhist, hrest⟩ := body_hist_of_init_or_tick s hi
      refine ⟨_, hhist, fun hn => ⟨hi, ?_, hrest n⟩⟩
      obtain hn | hn := List.mem_cons.mp hn
      · rw [hn, List.head?_cons]
      · exact absurd hn (hrest n)
    · obtain ⟨evs, hhist, hevs⟩ := body_readsNoTime s hi
      exact ⟨evs, hhist, fun hn => absurd hn (hevs n)⟩
  · exact ⟨[], by simp, by simp⟩

end Sys2Proof.Machine
end

section
/-! Counter commands with the IC attached (spec/60_exceptions.md R270, R271): what a latch pulse leaves in the storage
registers, and what a latched and an unlatched read answer. -/

namespace Sys2Proof.Machine

/-! ### LATCH (R270) -/

/-- The rising edge copies the live counts; neither a count nor the falling edge touches the copy. -/
theorem pulseLatch_stores {s : State} {d : Nat} {a b : Reg16} (hl : s.envNow.Lives d a b)
    (hr : (s.ctr d).rclk = .L) : (s.pulseLatch d).env.Stores d a b := by
  have hrise : (s.drive (.rclk d) .H).env.Stores d a b := by
    simp only [State.drive_env, Env.onDrive, State.level, hr]
    exact Stores_of_Lives hl
  have hhold : ((s.drive (.rclk d) .H).hold s.tHold).env.Stores d a b := Stores_advance hrise
  rw [State.pulseLatch, State.drive_env]
  simp only [Env.onDrive, isRise_low]
  exact Stores_advance hhold

/-- Settles O55: LATCH is one pulse of a register clock that rests at L. -/
theorem latchCopiesBothHalves : Obligations.LatchCopiesBothHalves := by
  intro s d ic hs r hic
  obtain ⟨-, -, hr, -⟩ := settled_ready hs r
  obtain ⟨ic', hic', hA, hB⟩ := pulseLatch_stores ⟨ic, hic, rfl, rfl⟩ hr
  exact ⟨_, ic', exec_run (checksCounter_allPass r), hic', hA, hB⟩

/-! ### READL (R271) -/

/-- Between commands every gate is released, so a device with a modelled IC and a quiet bus can be read. -/
theorem readView_of_settled {s : State} {d : Nat} {a b : Reg16} (hs : s.Settled) (r : s.CounterReady d)
    (hq : busQuiet s.ctrs d = true) (hst : s.env.Stores d a b) : ReadView s d a b := by
  obtain ⟨-, hg, -⟩ := settled_ready hs r
  obtain ⟨-, hd, -⟩ := r
  exact ⟨hd, hst, hg, hq⟩

theorem exec_readl {s : State} {d : Nat} {h : Half} (r : s.CounterReady d) (hb : s.HalfEnabled d h)
    (hst : s.SelfTestOk d) :
    exec (.readl d h) s = .next ((s.readHalf d h).ret (.reg (s.halfValue d h))) :=
  exec_run (checksRead16_pass r hb hst)

/-- Settles O56: the sequence is one latched read, which sees the storage register and keeps it. -/
theorem readlReturnsStorage : Obligations.ReadlReturnsStorage := by
  intro s d h ic hs r hb hst hq hic
  obtain ⟨hv, hview⟩ := readHalf_view (readView_of_settled hs r hq ⟨ic, hic, rfl, rfl⟩) h
  obtain ⟨ic', hic', hA, hB⟩ := hview.stores
  refine ⟨_, ic', exec_readl r hb hst, ?_, by rw [State.ret_env, hic'], hA, hB⟩
  rw [State.ret_outcomes, (keeps_readHalf s d h).outcomes, hv]
  rfl

/-! ### READR (R137) -/

/-- Settles O57: READR answers the live count at its pulse. -/
theorem readrReturnsLiveCount : Obligations.ReadrReturnsLiveCount := by
  intro s d h ic hs r hb hst hq hic
  exact readr_answers_live hs r hb hst hq ⟨ic, hic, rfl, rfl⟩

end Sys2Proof.Machine
end

section
/-! A serial write with the delay chips attached (spec/60_exceptions.md R273, spec/70_reset_and_hazards.md R291): the
chip with the latch high shifts eight bits in and commits them, and no other chip sees an edge. -/

namespace Sys2Proof.Machine

/-! ### The bits a chip takes (R204, R273, R291) -/

/-- The chip after a byte is streamed into it. -/
def DelayChip.shiftByte (chip : DelayChip) (v : Byte) : DelayChip := (msbFirst v).foldl DelayChip.shiftIn chip

/-- Eight shifts replace the whole register, in the order the chip clocks. -/
theorem shiftByte_sr (chip : DelayChip) (v : Byte) :
    (chip.shiftByte v).sr = if chip.lsbFirst then v.reverse else v := by
  simp only [DelayChip.shiftByte, msbFirst, List.foldl_cons, List.foldl_nil]
  apply BitVec.eq_of_getLsbD_eq
  intro i hi
  cases hl : chip.lsbFirst
  case false => interval_cases i <;> simp [DelayChip.shiftIn, hl]
  case true =>
    rw [if_pos rfl, BitVec.getLsbD_reverse, BitVec.getMsbD]
    interval_cases i <;> simp [DelayChip.shiftIn, hl]

/-! ### One chip at a time -/

theorem chip?_of_chips {e e' : Env} (h : e'.chips = e.chips) (b c : Nat) : e'.chip? b c = e.chip? b c := by
  simp only [Env.chip?, h]

theorem chip?_commitChip (e : Env) (b c b' c' : Nat) :
    (e.commitChip b c).chip? b' c' =
      if b = b' ∧ c = c' then (e.chip? b' c').map DelayChip.commit else e.chip? b' c' := by
  simp only [Env.commitChip, Env.chip?, List.getElem?_modify]
  rcases e.chips[b']? with _ | row
  · simp
  · by_cases hb : b = b'
    · by_cases hc : c = c' <;> rcases hrow : row[c']? with _ | chip <;> simp [hb, hc, hrow]
    · simp [hb]

theorem chip?_clockChips (e : Env) (buses : List SerialBus) (b : Nat) (draw : Word) (b' c' : Nat) :
    (e.clockChips buses b draw).chip? b' c' =
      if b = b' ∧ ((buses.getD b SerialBus.absent).lines.getD c' DelayLine.reset).latch = .H then
        (e.chip? b' c').map (fun k => k.shiftIn (sdataBit (buses.getD b SerialBus.absent).sdata draw))
      else e.chip? b' c' := by
  simp only [Env.clockChips, Env.chip?, List.getElem?_modify]
  generalize buses.getD b SerialBus.absent = bus
  rcases e.chips[b']? with _ | row
  · simp
  · by_cases hb : b = b'
    · rcases hrow : row[c']? with _ | chip <;> simp [hb, hrow]
    · simp [hb]

theorem sdataBit_levelOfBit (v : Bool) (draw : Word) : sdataBit (levelOfBit v) draw = v := by cases v <;> rfl

/-! ### What each event of the write does to the chips -/

theorem envNow_chips (s : State) : s.envNow.chips = s.env.chips := advance_chips _ _ _

theorem hold_chips (s : State) (n : Nat) : (s.hold n).env.chips = s.env.chips := envNow_chips s

theorem drive_sdata_chips (s : State) (b : Nat) (lv : Level) : (s.drive (.sdata b) lv).env.chips = s.env.chips :=
  envNow_chips s

theorem drive_sclk_low_chips (s : State) (b : Nat) : (s.drive (.sclk b) .L).env.chips = s.env.chips := by
  simp only [State.drive_env, Env.onDrive, isRise_low]
  exact envNow_chips s

theorem drive_latch_high_chips (s : State) (b c : Nat) : (s.drive (.latch b c) .H).env.chips = s.env.chips := by
  simp only [State.drive_env, Env.onDrive, isFall_high]
  exact envNow_chips s

/-- The rising SCLK edge shifts SDATA into the chips of the bus whose latch is high. -/
theorem drive_sclk_high_chip? {s : State} {b : Nat} {v : Bool} (hclk : (s.bus b).sclk = .L)
    (hdata : (s.bus b).sdata = levelOfBit v) (hb : b < s.buses.length) (b' c' : Nat) :
    (s.drive (.sclk b) .H).env.chip? b' c' =
      if b = b' ∧ (s.line b c').latch = .H then (s.env.chip? b' c').map (fun k => k.shiftIn v)
      else s.env.chip? b' c' := by
  have hbus : (setBusPin s.buses (.sclk b) .H).getD b SerialBus.absent = { s.bus b with sclk := .H } :=
    getD_modify_self _ _ _ _ hb
  have hrise : isRise (s.level (.sclk b)) .H = true := by rw [State.level, hclk]; rfl
  simp only [State.drive_env, Env.onDrive, hrise, if_true, chip?_clockChips, hbus, hdata, sdataBit_levelOfBit,
    chip?_of_chips (envNow_chips s)]
  rfl

/-- The falling latch edge commits the chip of its own line. -/
theorem drive_latch_low_chip? {s : State} {b c : Nat} (hlatch : (s.line b c).latch = .H) (b' c' : Nat) :
    (s.drive (.latch b c) .L).env.chip? b' c' =
      if b = b' ∧ c = c' then (s.env.chip? b' c').map DelayChip.commit else s.env.chip? b' c' := by
  have hfall : isFall (s.level (.latch b c)) .L = true := by rw [State.level, hlatch]; rfl
  simp only [State.drive_env, Env.onDrive, hfall, if_true, chip?_commitChip, chip?_of_chips (envNow_chips s)]

/-! ### The stream (R200) -/

/-- Bus b exists, its clock rests at L, and of its lines only c listens. -/
structure Listening (s : State) (b c : Nat) : Prop where
  exists_ : b < s.buses.length
  sclk : (s.bus b).sclk = .L
  latch : ∀ c', (s.line b c').latch = .H ↔ c = c'

theorem bus_streamBit {s : State} {b : Nat} (hb : b < s.buses.length) (v : Bool) :
    (s.streamBit b v).bus b = { s.bus b with sclk := .L, sdata := levelOfBit v } := by
  rw [State.bus, streamBit_buses, getD_modify_self _ _ _ _ hb]
  rfl

theorem Listening.streamBit {s : State} {b c : Nat} (hl : Listening s b c) (v : Bool) :
    Listening (s.streamBit b v) b c := by
  have hbus := bus_streamBit hl.exists_ v
  refine ⟨by simpa using hl.exists_, by rw [hbus], fun c' => ?_⟩
  rw [State.line, hbus]
  exact hl.latch c'

/-- One bit cycle shifts its bit into the listening chip. -/
theorem streamBit_chip? {s : State} {b c : Nat} (hl : Listening s b c) (v : Bool) (b' c' : Nat) :
    (s.streamBit b v).env.chip? b' c' =
      if b = b' ∧ c = c' then (s.env.chip? b' c').map (fun k => k.shiftIn v) else s.env.chip? b' c' := by
  obtain ⟨hb, hclk, hlatch⟩ := hl
  have hbus : ((s.drive (.sdata b) (levelOfBit v)).hold s.tSer).bus b = { s.bus b with sdata := levelOfBit v } :=
    getD_modify_self _ _ _ _ hb
  have hline : (((s.drive (.sdata b) (levelOfBit v)).hold s.tSer).line b c').latch = .H ↔ c = c' := by
    rw [State.line, hbus]
    exact hlatch c'
  rw [State.streamBit, chip?_of_chips (hold_chips _ _), chip?_of_chips (drive_sclk_low_chips _ _),
    chip?_of_chips (hold_chips _ _), drive_sclk_high_chip? (v := v) (by rw [hbus, hclk]) (by rw [hbus]) (by simpa),
    chip?_of_chips (hold_chips _ _), chip?_of_chips (drive_sdata_chips _ _ _)]
  simp only [hline]

/-- A run of bit cycles shifts its bits into the listening chip one after the other. -/
theorem streamBits_chip? {b c : Nat} (b' c' : Nat) (bits : List Bool) {s : State} (hl : Listening s b c) :
    (bits.foldl (State.streamBit b) s).env.chip? b' c' =
      if b = b' ∧ c = c' then (s.env.chip? b' c').map (fun k => bits.foldl DelayChip.shiftIn k)
      else s.env.chip? b' c' := by
  induction bits generalizing s with
  | nil => simp
  | cons v bits ih =>
    rw [List.foldl_cons, ih (hl.streamBit v), streamBit_chip? hl v]
    split
    · rw [Option.map_map]
      rfl
    · rfl

theorem stream_line_latch (s : State) (b c : Nat) (v : Byte) :
    ((s.stream b v).line b c).latch = (s.line b c).latch := by
  simp only [State.line, State.bus, stream_buses, getD_modify]
  split <;> rfl

/-! ### DLWR (R201, R208) -/

/-- Raising one latch of a bus that rests makes its line the only one that listens. -/
theorem listening_drive_latch {s : State} {b c : Nat} (hb : b < s.buses.length) (hc : c < (s.bus b).lines.length)
    (hclk : (s.bus b).sclk = .L) (hlow : ∀ c', (s.line b c').latch ≠ .H) :
    Listening (s.drive (.latch b c) .H) b c := by
  have hbus : (s.drive (.latch b c) .H).bus b = (s.bus b).modLine c (fun l => { l with latch := .H }) :=
    getD_modify_self _ _ _ _ hb
  refine ⟨by simpa using hb, by rw [hbus]; exact hclk, fun c' => ?_⟩
  rw [State.line, hbus, SerialBus.modLine]
  by_cases h : c = c'
  · subst h
    simp only [getD_modify_self _ _ _ _ hc]
  · simp only [getD_modify_ne _ _ _ _ _ h, h, iff_false]
    exact hlow c'

/-- A serial write on a bus that rests streams its byte into its own chip and commits it. -/
theorem memWrite_chip? {s : State} {b c : Nat} (hb : b < s.buses.length) (hc : c < (s.bus b).lines.length)
    (hclk : (s.bus b).sclk = .L) (hlow : ∀ c', (s.line b c').latch ≠ .H) (v : Byte) (b' c' : Nat) :
    (s.memWrite b c v).env.chip? b' c' =
      if b = b' ∧ c = c' then (s.env.chip? b' c').map (fun k => (k.shiftByte v).commit)
      else s.env.chip? b' c' := by
  have hl := listening_drive_latch hb hc hclk hlow
  rw [State.memWrite, drive_latch_low_chip? (by rw [stream_line_latch, hl.latch]), State.stream,
    streamBits_chip? b' c' _ hl, chip?_of_chips (drive_latch_high_chips s b c)]
  split
  · rw [Option.map_map]
    rfl
  · rfl

/-- In a settled state after INIT the clock of an existing bus rests at L (R203). -/
theorem settled_sclk {s : State} {b : Nat} (hs : s.Settled) (hi : s.initDone = true) (hb : b < s.buses.length) :
    (s.bus b).sclk = .L := by
  have h := hs.2 _ (getD_mem s.buses b SerialBus.absent hb)
  rw [SerialBus.Settled, if_pos hi] at h
  exact h.1

/-- DelayLine.write from a settled state streams its byte into its own chip and commits it. -/
theorem writeLine_chip? {s : State} {b c : Nat} (hs : s.Settled) (r : s.LineReady b c) (v : Byte) (b' c' : Nat) :
    (s.writeLine b c v).env.chip? b' c' =
      if b = b' ∧ c = c' then (s.env.chip? b' c').map (fun k => (k.shiftByte v).commit)
      else s.env.chip? b' c' := by
  obtain ⟨hi, hb, hc⟩ := r
  have hbus : (s.setCur b c v).bus b = (s.bus b).modLine c (fun l => { l with cur := v }) :=
    getD_modify_self _ _ _ _ hb
  have hlow (i : Nat) : ((s.setCur b c v).line b i).latch ≠ .H := by
    have hkeep : ((s.setCur b c v).line b i).latch = (s.line b i).latch := by
      rw [State.line, hbus, SerialBus.modLine]
      exact getD_modify_field DelayLine.latch (f := fun l => { l with cur := v }) (fun _ => rfl) _ _ _ _
    rw [hkeep]
    exact settled_latch_ne_H hs b i
  have hlen : b < (s.setCur b c v).buses.length := by simpa [State.setCur] using hb
  have hline : c < ((s.setCur b c v).bus b).lines.length := by simpa [hbus, SerialBus.modLine] using hc
  have hclk : ((s.setCur b c v).bus b).sclk = .L := by rw [hbus]; exact settled_sclk hs hi hb
  rw [State.writeLine, State.ret_env, memWrite_chip? hlen hline hclk hlow]
  rfl

/-- Settles O60: DLWR is one write from a bus at rest, so its own chip commits the eight bits it shifted in and no
other chip is clocked. -/
theorem writeReachesOneChip : Obligations.WriteReachesOneChip := by
  intro s b c v chip hs r hchip
  refine ⟨_, (chip.shiftByte v).commit, exec_dlwr r v, ?_, ?_, ?_⟩
  · rw [writeLine_chip? hs r, if_pos ⟨rfl, rfl⟩, hchip, Option.map_some]
  · rw [DelayChip.commit, shiftByte_sr]
  · intro b' c' hne
    rw [writeLine_chip? hs r, if_neg]
    rintro ⟨rfl, rfl⟩
    exact hne rfl

end Sys2Proof.Machine
end

section
/-! The decoder and the encoder undo each other, and the decoder follows the opcode map (spec/30_encoding.md R101 to
R105). -/

namespace Sys2Proof

/-! ### From a selected row to the command, and back -/

/-- A word that selects a row is that row's command: no other row is selected (R104, R105). -/
theorem decode_of_selects {r : OpRow} {w : Word} (hr : r ∈ opcodeTable) (h : w &&& r.mask = r.pattern) :
    decode w = .ok (r.build w) := by
  have hsel : r.selects w = true := beq_iff_eq.mpr h
  unfold decode
  split
  next r' hr' =>
    have hsel' : w &&& r'.mask = r'.pattern := by simpa [OpRow.selects] using List.find?_some hr'
    rw [row_eq_of_selects (List.mem_of_find?_eq_some hr') hr hsel' h]
  next hnone => exact absurd hsel (List.find?_eq_none.mp hnone r hr)

/-- A decoded command comes from a row that selects its word. -/
theorem exists_row_of_decode {w : Word} {i : Instr} (h : decode w = .ok i) :
    ∃ r ∈ opcodeTable, w &&& r.mask = r.pattern ∧ r.build w = i := by
  unfold decode at h
  split at h
  next r hr =>
    exact ⟨r, List.mem_of_find?_eq_some hr, by simpa [OpRow.selects] using List.find?_some hr, Except.ok.inj h⟩
  next => cases h

/-- The row of a command, by its place in the opcode map. -/
def Instr.row : Instr → OpRow
  | .init => opcodeTable[0]
  | .latch _ => opcodeTable[1]
  | .readl _ _ => opcodeTable[2]
  | .readr _ _ => opcodeTable[3]
  | .read32 _ => opcodeTable[4]
  | .read _ _ => opcodeTable[5]
  | .clear _ => opcodeTable[6]
  | .togb _ => opcodeTable[7]
  | .ovf _ => opcodeTable[8]
  | .tick => opcodeTable[9]
  | .dlwr _ _ _ => opcodeTable[10]
  | .dlinc _ _ _ => opcodeTable[11]
  | .dldec _ _ _ => opcodeTable[12]
  | .dlget _ _ => opcodeTable[13]

theorem Instr.row_mem (i : Instr) : i.row ∈ opcodeTable := by cases i <;> exact List.getElem_mem _

theorem Instr.row_mnemonic (i : Instr) : i.row.mnemonic = i.mnemonic := by cases i <;> rfl

theorem mnemonics_nodup : (opcodeTable.map OpRow.mnemonic).Nodup := by decide

/-- The word of a command selects a row with the command's mnemonic. -/
theorem encode_selects (i : Instr) : Laws.EncodeRow.Statement i := by
  cases i with
  | init => exact Laws.EncodeRow.init
  | latch d => exact Laws.EncodeRow.latch d
  | readl d h => exact Laws.EncodeRow.readl d h
  | readr d h => exact Laws.EncodeRow.readr d h
  | read32 d => exact Laws.EncodeRow.read32 d
  | read d h => exact Laws.EncodeRow.read d h
  | clear d => exact Laws.EncodeRow.clear d
  | togb d => exact Laws.EncodeRow.togb d
  | ovf d => exact Laws.EncodeRow.ovf d
  | tick => exact Laws.EncodeRow.tick
  | dlwr b c v => exact Laws.EncodeRow.dlwr b c v
  | dlinc b c delta => exact Laws.EncodeRow.dlinc b c delta
  | dldec b c delta => exact Laws.EncodeRow.dldec b c delta
  | dlget b c => exact Laws.EncodeRow.dlget b c

theorem encode_selects_row (i : Instr) : encode i &&& i.row.mask = i.row.pattern := by
  obtain ⟨r, hr, hm, hsel⟩ := encode_selects i
  obtain rfl : r = i.row := List.inj_on_of_nodup_map mnemonics_nodup hr i.row_mem (hm.trans i.row_mnemonic.symm)
  exact beq_iff_eq.mp hsel

/-! ### Operands survive their fields (R101, R102) -/

/-- An index that fits its field is read back from it. -/
theorem toNat_indexField {n : Nat} (h : FitsField n) : (indexField n).toNat = n := by
  rw [indexField, BitVec.toNat_ofNat, Nat.mod_eq_of_lt h]

theorem indexField_toNat (b : Byte) : indexField b.toNat = b := by
  rw [indexField, BitVec.ofNat_toNat, BitVec.setWidth_eq]

@[simp] theorem operandX_assemble (op x y imm : Byte) : operandX (assemble op x y imm) = x.toNat := by
  rw [operandX, fieldX_assemble]

@[simp] theorem operandY_assemble (op x y imm : Byte) : operandY (assemble op x y imm) = y.toNat := by
  rw [operandY, fieldY_assemble]

@[simp] theorem operandHalf_assemble_halfField (op x imm : Byte) (h : Half) :
    operandHalf (assemble op x (halfField h) imm) = h := by
  rw [operandHalf, fieldY_assemble]
  cases h <;> rfl

/-- With Y[7:1] at 0 the half selector is the whole of Y. -/
theorem halfField_operandHalf {op x y imm : Byte} (h : y &&& 0xFE#8 = 0#8) :
    halfField (operandHalf (assemble op x y imm)) = y := by
  have hy : ∀ y : Byte, y &&& 0xFE#8 = 0#8 → halfField (if y.getLsbD 0 then .B else .A) = y := by decide
  rw [operandHalf, fieldY_assemble]
  exact hy y h

/-- A row builds the command back from the command's word. -/
theorem build_encode {i : Instr} (hi : i.WellFormed) : i.row.build (encode i) = i := by
  cases i
  case init | tick => rfl
  case dlwr | dlinc | dldec | dlget =>
    obtain ⟨hb, hc⟩ := hi
    simp [encode, Instr.row, opcodeTable, toNat_indexField hb, toNat_indexField hc]
  all_goals simp [encode, Instr.row, opcodeTable, toNat_indexField hi]

/-! ### The decoder (R104, R105) -/

/-- Settles O1: the command's word selects the command's own row, and that row reads every field back. -/
theorem decodeOfEncode : Obligations.DecodeOfEncode := by
  intro i hi
  rw [decode_of_selects i.row_mem (encode_selects_row i), build_encode hi]

/-- Settles O2: the selected row fixes OP and every field it does not read, and the fields it reads go back where
they were. -/
theorem encodeOfDecode : Obligations.EncodeOfDecode := by
  intro w i hd
  obtain ⟨r, hr, hsel, rfl⟩ := exists_row_of_decode hd
  obtain ⟨op, x, y, imm, rfl⟩ : ∃ op x y imm, w = assemble op x y imm := ⟨_, _, _, _, (assemble_fields w).symm⟩
  have hx : FitsField x.toNat := x.isLt
  have hy : FitsField y.toNat := y.isLt
  simp only [opcodeTable_fields, List.mem_cons, List.not_mem_nil, or_false] at hr
  obtain rfl | rfl | rfl | rfl | rfl | rfl | rfl | rfl | rfl | rfl | rfl | rfl | rfl | rfl := hr
  all_goals
    simp only [and_assemble, assemble_inj, byte_and_ones, byte_and_zero, true_and] at hsel
    simp [encode, Instr.WellFormed, hsel, hx, hy, indexField_toNat, halfField_operandHalf]

/-- Settles O3: a selected row is the decoder's, and each row builds commands of its own mnemonic. -/
theorem decodeFollowsOpcodeMap : Obligations.DecodeFollowsOpcodeMap := by
  refine ⟨rfl, fun w => ⟨fun r hr h => ⟨_, decode_of_selects hr h, ?_⟩, decode_error_iff.mpr⟩⟩
  simp only [opcodeTable, List.mem_cons, List.not_mem_nil, or_false] at hr
  obtain rfl | rfl | rfl | rfl | rfl | rfl | rfl | rfl | rfl | rfl | rfl | rfl | rfl | rfl := hr <;> rfl

/-- Settles O6: the decoder computes each word. -/
theorem exampleWordsDecode : Obligations.ExampleWordsDecode := by
  unfold Obligations.ExampleWordsDecode
  decide

end Sys2Proof
end

section
/-! What a step does with the host's next action, which parameters it refuses, and the outcome of every command
(spec/00_scope.md R7, R13, spec/10_state.md R33, R48, R52, spec/60_exceptions.md R250 to R254). -/

namespace Sys2Proof

/-! ### Legal parameters (R7, R33) -/

/-- The reserved bits of CTRCFG are bits 15 to 12 (R33). -/
theorem CtrParams.reserved_eq_zero_iff (p : CtrParams) : p.reserved = 0#4 ↔ p.cfg &&& 0xF000#16 = 0#16 := by
  simp only [CtrParams.reserved, BitVec.eq_of_getLsbD_eq_iff, Nat.forall_lt_succ_left]
  simp

theorem CtrParams.legal_iff (n : Nat) (p : CtrParams) :
    p.legal n = true ↔ p.cfg &&& 0xF000#16 = 0#16 ∧ p.dbus < n := by
  simp [CtrParams.legal, CtrParams.reserved_eq_zero_iff]

theorem Params.legal_iff (p : Params) : p.legal = true ↔
    (1 ≤ p.ctrs.length ∧ p.ctrs.length ≤ 256)
      ∧ (∀ c ∈ p.ctrs, c.cfg &&& 0xF000#16 = 0#16 ∧ c.dbus < p.ctrs.length)
      ∧ (1 ≤ p.nch.length ∧ p.nch.length ≤ 256) ∧ ∀ n ∈ p.nch, 1 ≤ n ∧ n ≤ 256 := by
  simp only [Params.legal, Bool.and_eq_true, decide_eq_true_iff, List.all_eq_true, CtrParams.legal_iff, and_assoc]

end Sys2Proof

namespace Sys2Proof.Machine

/-! ### Every command and every word is answered (R13, R105) -/

/-- A command ends in a next state: no command faults or is refused. -/
theorem exec_eq_next (i : Instr) (s : State) : ∃ t, exec i s = .next t := by
  cases h : firstFailed (checksOf s i) with
  | none => exact ⟨_, exec_run h⟩
  | some c => exact ⟨_, exec_raise h⟩

theorem runWord_eq_next (w : Word) (s : State) : ∃ t, runWord w s = .next t := by
  cases h : decode w with
  | ok i =>
    rw [runWord_of_decode h]
    exact exec_eq_next i s
  | error err => exact ⟨_, runWord_of_illegal h s⟩

/-! ### The host's step (R52, R266, R281) -/

theorem step_of_illegal {s : State} (h : s.params.legal = false) : step s = .refused .illegalParameters := by
  simp [step, State.legalStep, h]

/-- A step at a power cycle is that power cycle, if its parameters are legal. -/
theorem step_powerCycle {s : State} {p : Params} (hl : s.params.legal = true)
    (hp : s.program[s.pc]? = some (.powerCycle p)) : step s = s.hostPowerCycle p := by
  unfold step State.legalStep State.hostStep State.nextAction
  rw [if_pos hl, hp]

theorem hostPowerCycle_of_legal {p : Params} (h : p.legal = true) (s : State) :
    s.hostPowerCycle p = .next (s.powerCycle p) := if_pos h

theorem hostPowerCycle_of_illegal {p : Params} (h : p.legal = false) (s : State) :
    s.hostPowerCycle p = .refused .illegalParameters := if_neg (by simp [h])

/-- Settles O9: with no action at pc the step is State.idle. -/
theorem waitsWithoutAction : Obligations.WaitsWithoutAction := by
  intro s hl hn
  unfold step State.legalStep State.hostStep State.nextAction
  rw [if_pos hl, hn]
  rfl

/-- A step has one of two grounds for a refusal, and one name for it. -/
theorem step_refused_iff (s : State) (r : Refusal) : step s = .refused r ↔
    r = .illegalParameters ∧
      (s.params.legal = false ∨ ∃ p, s.program[s.pc]? = some (.powerCycle p) ∧ p.legal = false) := by
  cases hl : s.params.legal with
  | false => simp [step_of_illegal hl, eq_comm (a := r)]
  | true =>
    match ha : s.program[s.pc]? with
    | none => simp [waitsWithoutAction s hl ha]
    | some (.issue w) =>
      obtain ⟨t, ht⟩ := runWord_eq_next w s
      simp [step_issue hl ha, ht]
    | some (.powerCycle p) =>
      cases hp : p.legal with
      | false => simp [step_powerCycle hl ha, hostPowerCycle_of_illegal hp, hp, eq_comm (a := r)]
      | true => simp [step_powerCycle hl ha, hostPowerCycle_of_legal hp, hp]

/-- Settles O10: the bounds are those of Params.legal, and a step whose parameters are legal waits, answers a word or
makes a power cycle. -/
theorem illegalParametersRefused : Obligations.IllegalParametersRefused :=
  ⟨Params.legal_iff, step_refused_iff⟩

/-- Settles O12: the power cycle is State.powerCycle, which takes the block from State.ofParams. -/
theorem powerCycleResets : Obligations.PowerCycleResets := by
  intro s p hl hp hp'
  exact ⟨_, by rw [step_powerCycle hl hp, hostPowerCycle_of_legal hp']; rfl⟩

/-- Settles O52: no pin of a device or bus at reset is driven and no channel runs. -/
theorem settledAtReset : Obligations.SettledAtReset := ofParams_settled

/-! ### Outcomes (R13, R14, R250 to R254) -/

/-- Settles O13: the status is the code's, whatever the info. -/
theorem statusCodeNumbers : Obligations.StatusCodeNumbers :=
  ⟨fun _ => rfl, fun _ => ⟨rfl, rfl, rfl, rfl, rfl, rfl, rfl, rfl, rfl, rfl⟩⟩

/-- Every sequence ends in one outcome, moves the host's pc on and only adds events. -/
theorem bodyOf_answers_once (s : State) (i : Instr) : ∃ r evs, (bodyOf s i).outcomes = s.outcomes ++ [r]
    ∧ (bodyOf s i).pc = s.pc + 1 ∧ (bodyOf s i).program = s.program ∧ (bodyOf s i).hist = s.hist ++ evs := by
  obtain rfl | rfl | ⟨d, hd⟩ | ⟨b, c, hbc⟩ := command_kinds i
  · obtain ⟨e, he⟩ := bodyInit_spec s
    rw [bodyOf, he]
    exact ⟨_, _, rfl, rfl, rfl, rfl⟩
  · obtain ⟨e, he⟩ := bodyTick_spec s
    rw [bodyOf, he]
    exact ⟨_, _, rfl, rfl, rfl, rfl⟩
  · obtain ⟨f, e, evs, r, he, -⟩ := ctr_body (s := s) hd
    rw [he]
    exact ⟨_, _, rfl, rfl, rfl, rfl⟩
  · obtain ⟨v, e, he, -⟩ | ⟨-, he⟩ := line_body (s := s) hbc
    · rw [he]
      exact ⟨_, _, rfl, rfl, rfl, rfl⟩
    · rw [he]
      exact ⟨_, [], rfl, rfl, rfl, (List.append_nil _).symm⟩

/-- Settles O14: a sequence answers once, and a failed check is itself the one outcome. -/
theorem everyCommandAnswersOnce : Obligations.EveryCommandAnswersOnce := by
  intro i s
  obtain ⟨t, ht⟩ := exec_eq_next i s
  obtain ⟨-, rfl⟩ | ⟨c, -, rfl⟩ := exec_cases ht
  · obtain ⟨r, evs, h⟩ := bodyOf_answers_once s i
    exact ⟨_, r, evs, ht, h⟩
  · exact ⟨_, .err c none, [], ht, rfl, rfl, rfl, (List.append_nil _).symm⟩

/-- Only INIT's sequence ends in an error, and that error is E_CONFIG (R236). -/
theorem init_config_of_bodyOf_error {s : State} {i : Instr} {c : ErrCode} {info : Option Nat}
    (h : (bodyOf s i).outcomes = s.outcomes ++ [.err c info]) : i = .init ∧ c = .config := by
  by_cases hi : i = .init
  · subst hi
    obtain ⟨e, he⟩ := bodyInit_spec s
    refine ⟨rfl, ?_⟩
    cases hbad : s.firstBad with
    | none => simp [bodyOf, he, hbad, initReply] at h
    | some d =>
      obtain ⟨hc, -⟩ : .config = c ∧ some d = info := by simpa [bodyOf, he, hbad, initReply] using h
      exact hc.symm
  · obtain ⟨u, v, hu⟩ := bodyOf_eq_ret s hi
    rw [hu, State.ret_outcomes] at h
    obtain ⟨-, hlast⟩ := List.append_inj' h rfl
    simp at hlast

/-- Settles O22: such an error is a failed check's, since a sequence answers no error but INIT's E_CONFIG, which is of
the configuration tier. -/
theorem usageErrorChangesNothing : Obligations.UsageErrorChangesNothing := by
  intro i s t c info h hout htier
  obtain ⟨-, rfl⟩ | ⟨c', -, rfl⟩ := exec_cases h
  · obtain ⟨rfl, rfl⟩ := init_config_of_bodyOf_error hout
    simp [ErrCode.tier] at htier
  · obtain ⟨rfl, -⟩ : c' = c ∧ none = info := by simpa using hout
    rfl

/-! ### Check 5 (R138, R162, R164) -/

/-- Checks 2 to 4 pass and the next check fails. -/
theorem firstFailed_checksCounter_cons {s : State} {d : Nat} (r : s.CounterReady d) (c : ErrCode)
    (later : List (Option ErrCode)) : firstFailed (s.checksCounter d ++ some c :: later) = some c :=
  firstFailed_checksCounter_append r _

/-- Settles O19: after checks 2 to 4 check 5 is the first to fail. -/
theorem modeAndCapabilityRefused : Obligations.ModeAndCapabilityRefused := by
  intro s d r
  refine ⟨fun hm => exec_raise ?_, fun hcben => exec_raise ?_, fun hovf => exec_raise ?_⟩
  · have h5 : s.checkSingle32 d = some .mode := if_pos hm
    change firstFailed (s.checksRead32 d) = _
    rw [State.checksRead32, h5, firstFailed_checksCounter_cons r]
  · have h5 : s.checkCben d = some .noCben := by simp [State.checkCben, hcben]
    rw [checksOf, h5, firstFailed_checksCounter_cons r]
  · have h5 : s.checkOvf d = some .noOvf := by simp [State.checkOvf, hovf]
    rw [checksOf, h5, firstFailed_checksCounter_cons r]

end Sys2Proof.Machine
end

section
/-! What LATCH and the reads do to a settled block, what DLINC, DLDEC and DLGET do, and what no command changes: the
devices a counter command does not address, and the parameters (spec/40_counter_read.md R130 to R140,
spec/43_delay_line.md R205 to R207, spec/10_state.md R32). -/

namespace Sys2Proof.Machine

/-! ### The sequences of the reads on a settled device: no field of the block is written -/

theorem bodyReadr_of_settled {s : State} {d : Nat} (hs : s.Settled) (r : s.CounterReady d) (h : Half) :
    ∃ e u l, s.bodyReadr d h =
      { s with env := e, hist := s.hist ++ regEvents d h s.tHold u l
               outcomes := s.outcomes ++ [.ok (.reg (u ++ l))], pc := s.pc + 1 } := by
  obtain ⟨e, u, l, he⟩ := bodyReadr_spec d h s
  obtain ⟨-, -, hreg, -⟩ := pulses_restore hs r
  exact ⟨e, u, l, by rw [he, hreg, word16_append]⟩

/-- The two READR sequences of READ32 in READ32_ORDER (R138, R139). -/
def read32Events (order : ReadOrder) (d tHold : Nat) (uB lB uA lA : Byte) : List Event :=
  match order with
  | .ba => regEvents d .B tHold uB lB ++ regEvents d .A tHold uA lA
  | .ab => regEvents d .A tHold uA lA ++ regEvents d .B tHold uB lB

theorem bodyRead32_of_settled {s : State} {d : Nat} (hs : s.Settled) (r : s.CounterReady d) :
    ∃ e uB lB uA lA, s.bodyRead32 d =
      { s with env := e
               hist := s.hist ++ read32Events s.readOrder d s.tHold uB lB uA lA
               outcomes := s.outcomes ++ [.ok (.word (uB ++ lB ++ uA ++ lA))], pc := s.pc + 1 } := by
  obtain ⟨e, uB, lB, uA, lA, he⟩ := bodyRead32_spec d s
  obtain ⟨-, -, -, hall, -⟩ := pulses_restore hs r
  exact ⟨e, uB, lB, uA, lA, by rw [he, hall, word32_append4]; rfl⟩

/-! ### LATCH, READL, READR, READ32, READ -/

theorem exec_latch {s : State} {d : Nat} (r : s.CounterReady d) : exec (.latch d) s = .next (s.bodyLatch d) :=
  exec_run (checksCounter_allPass r)

theorem exec_readr {s : State} {d : Nat} {h : Half} (r : s.CounterReady d) (hb : s.HalfEnabled d h)
    (hst : s.SelfTestOk d) : exec (.readr d h) s = .next (s.bodyReadr d h) :=
  exec_run (checksRead16_pass r hb hst)

theorem exec_read32 {s : State} {d : Nat} (r : s.CounterReady d) (hm : (s.ctr d).cfg.dual16 = false)
    (hb : s.HalfEnabled d .B) (hst : s.SelfTestOk d) : exec (.read32 d) s = .next (s.bodyRead32 d) :=
  exec_run (checksRead32_pass r hm hb hst)

/-- READ in Dual16 is READR (R140). -/
theorem exec_read_of_dual16 {s : State} {d : Nat} {h : Half} (r : s.CounterReady d)
    (hm : (s.ctr d).cfg.dual16 = true) (hb : s.HalfEnabled d h) (hst : s.SelfTestOk d) :
    exec (.read d h) s = .next (s.bodyReadr d h) := by
  have hpass : firstFailed (checksOf s (.read d h)) = none := by
    rw [checksOf, checksRead_of_dual16 hm, checksRead16_pass r hb hst]
  rw [exec_run hpass, bodyOf, State.bodyRead, if_pos hm]

/-- READ in Single32 is READ32, whatever the half (R140). -/
theorem exec_read_of_single32 {s : State} {d : Nat} (h : Half) (r : s.CounterReady d)
    (hm : (s.ctr d).cfg.dual16 = false) (hb : s.HalfEnabled d .B) (hst : s.SelfTestOk d) :
    exec (.read d h) s = .next (s.bodyRead32 d) := by
  have hpass : firstFailed (checksOf s (.read d h)) = none := by
    rw [checksOf, checksRead_of_readsB (.inl hm), firstFailed_checksCounter_append r, checkBEnabled_pass hb,
      checkSelfTest_pass hst]
    rfl
  rw [exec_run hpass, bodyOf, State.bodyRead, if_neg (by simp [hm])]

/-- Settles O23: the checks pass, and the pulse brings RCLK back to L. -/
theorem latchCompletes : Obligations.LatchCompletes := by
  intro s d hs r
  obtain ⟨e, he⟩ := bodyLatch_spec d s
  obtain ⟨hlatch, -⟩ := pulses_restore hs r
  exact ⟨e, by rw [exec_latch r, he, hlatch]; rfl⟩

/-- Settles O24: the checks pass, and each byte read releases its gate again. -/
theorem readlCompletes : Obligations.ReadlCompletes := by
  intro s d h hs r hb hst
  obtain ⟨e, u, l, he⟩ := bodyReadl_spec d h s
  obtain ⟨-, hhalf, -⟩ := pulses_restore hs r
  exact ⟨e, u, l, by rw [exec_run (i := .readl d h) (checksRead16_pass r hb hst), bodyOf, he, hhalf, word16_append]⟩

/-- Settles O25: the checks pass, and regEvents is the latch pulse and then the READL sequence. -/
theorem readrCompletes : Obligations.ReadrCompletes := by
  intro s d h hs r hb hst
  obtain ⟨e, u, l, he⟩ := bodyReadr_of_settled hs r h
  exact ⟨e, u, l, by rw [exec_readr r hb hst, he]; rfl⟩

/-- Settles O26: the checks pass, and the value joins the bytes of both halves whichever came first. -/
theorem read32Completes : Obligations.Read32Completes := by
  intro s d hs r hm hb hst
  obtain ⟨e, uB, lB, uA, lA, he⟩ := bodyRead32_of_settled hs r
  exact ⟨e, uB, lB, uA, lA, by rw [exec_read32 r hm hb hst, he]; rfl⟩

/-- Settles O27: READ runs READR's sequence in Dual16 and READ32's in Single32. -/
theorem readCompletes : Obligations.ReadCompletes := by
  intro s d h hs r hst
  constructor
  · intro hm hb
    obtain ⟨e, u, l, he⟩ := bodyReadr_of_settled hs r h
    exact ⟨e, u, l, by rw [exec_read_of_dual16 r hm hb hst, he]⟩
  · intro hm hb
    obtain ⟨e, uB, lB, uA, lA, he⟩ := bodyRead32_of_settled hs r
    exact ⟨e, uB, lB, uA, lA, by rw [exec_read_of_single32 h r hm hb hst, he]; rfl⟩

/-! ### DLINC, DLDEC, DLGET -/

theorem delayPlus_toNat (cur delta : Byte) : (delayPlus cur delta).toNat = (cur.toNat + delta.toNat) % 256 :=
  BitVec.toNat_add cur delta

/-- Settles O39: DLINC is DelayLine.write of the 8-bit sum. -/
theorem dlincCompletes : Obligations.DlincCompletes := by
  intro s b c delta r
  obtain ⟨e, he⟩ := writeLine_spec b c (delayPlus (s.line b c).cur delta) s
  exact ⟨e, _, delayPlus_toNat _ _, by rw [exec_run (firstFailed_of_lineReady rfl r), bodyOf, he]⟩

/-- The 8-bit difference is the non-negative remainder (R206). -/
theorem delayMinus_toNat (cur delta : Byte) :
    ((delayMinus cur delta).toNat : Int) = (cur.toNat - delta.toNat : Int) % 256 := by
  rw [delayMinus, BitVec.toNat_sub]
  have := delta.isLt
  omega

/-- Settles O40: DLDEC is DelayLine.write of the 8-bit difference. -/
theorem dldecCompletes : Obligations.DldecCompletes := by
  intro s b c delta r
  obtain ⟨e, he⟩ := writeLine_spec b c (delayMinus (s.line b c).cur delta) s
  exact ⟨e, _, delayMinus_toNat _ _, by rw [exec_run (firstFailed_of_lineReady rfl r), bodyOf, he]⟩

/-- Settles O41: DLGET's sequence is the answer alone. -/
theorem dlgetCompletes : Obligations.DlgetCompletes := by
  intro s b c r
  exact exec_run (firstFailed_of_lineReady rfl r)

/-! ### Frames (R32, R40, R41, R42) -/

/-- Settles O45: a counter command that runs updates its own device only, and of it only what the statement leaves
open; a refused one only answers. -/
theorem counterCommandFrame : Obligations.CounterCommandFrame := by
  intro i s t d hd h
  obtain ⟨-, rfl⟩ | ⟨c, -, rfl⟩ := exec_cases h
  · obtain ⟨f, e, evs, r, he, hf⟩ := ctr_body (s := s) hd
    have own {α : Type} (field : CounterDev → α) (hfield : ∀ c, field (f c) = field c) :
        field ((bodyOf s i).ctr d) = field (s.ctr d) := by
      rw [he]
      exact getD_modify_field field hfield _ _ _ _
    have others (d' : Nat) (hne : d' ≠ d) : (bodyOf s i).ctr d' = s.ctr d' := by
      rw [he]
      exact getD_modify_ne _ _ _ _ _ hne.symm
    simp only [forall_and, forall_comm (α := CounterDev)] at hf
    obtain ⟨hcfg, hlife, hticked, hA, hB, hben, hcben⟩ := hf
    have hparams : (bodyOf s i).params = s.params := by simp only [he, State.params, modify_cfg _ _ _ hcfg]
    exact ⟨by rw [he], by rw [he], hparams, others, own _ hlife, own _ hticked, own _ hA, own _ hB,
      fun hi => ⟨own _ (hben hi), own _ (hcben hi)⟩⟩
  · exact ⟨rfl, rfl, rfl, fun _ _ => rfl, rfl, rfl, rfl, rfl, fun _ => ⟨rfl, rfl⟩⟩

theorem CounterDev.afterInit_cfg (t : Word) (c : CounterDev) : (c.afterInit t).cfg = c.cfg := by
  unfold CounterDev.afterInit
  split <;> rfl

theorem CounterDev.afterTick_cfg (t : Word) (c : CounterDev) : (c.afterTick t).cfg = c.cfg := by
  unfold CounterDev.afterTick
  split <;> rfl

/-- Settles O47: INIT and TICK update every device and keep its configuration, and the frames of the other commands
hold the parameters. -/
theorem parametersNeverWritten : Obligations.ParametersNeverWritten := by
  intro i s t h
  obtain ⟨-, rfl⟩ | ⟨c, -, rfl⟩ := exec_cases h
  · obtain rfl | rfl | ⟨d, hd⟩ | ⟨b, c, hbc⟩ := command_kinds i
    · obtain ⟨e, he⟩ := bodyInit_spec s
      simp [bodyOf, he, State.params, Function.comp_def, CounterDev.afterInit_cfg, SerialBus.afterInit]
    · obtain ⟨e, he⟩ := bodyTick_spec s
      simp [bodyOf, he, State.params, Function.comp_def, CounterDev.afterTick_cfg]
    · obtain ⟨-, -, hparams, -⟩ := counterCommandFrame i s _ d hd h
      exact hparams
    · obtain ⟨-, -, -, hparams, -⟩ := delayCommandFrame i s _ b c hbc h
      exact hparams
  · rfl

end Sys2Proof.Machine
end

section
/-! How long a completed command takes at least: the sum of its holds (spec/70_reset_and_hazards.md R297, R299). -/

namespace Sys2Proof.Machine

/-! ### Sequences with no hold -/

theorem holdTotal_flatMap_eq_zero {α : Type} {l : List α} {f : α → List Event} (h : ∀ a ∈ l, holdTotal (f a) = 0) :
    holdTotal (l.flatMap f) = 0 := by
  induction l with
  | nil => rfl
  | cons a l ih =>
    obtain ⟨ha, hl⟩ := List.forall_mem_cons.mp h
    rw [List.flatMap_cons, holdTotal_append, ha, ih hl]

theorem holdTotal_optionalDrive (q : Bool) (p : Pin) (lv : Level) :
    holdTotal (if q then [.drive p lv] else []) = 0 := by cases q <;> rfl

theorem holdTotal_initDevice (d : Nat) (p : CtrParams) : holdTotal (initDeviceEvents d p) = 0 := by
  unfold initDeviceEvents
  split
  · simp only [holdTotal_append, holdTotal_optionalDrive, holdTotal]
  · rfl

theorem holdTotal_initBus (b n : Nat) : holdTotal (initBusEvents b n) = 0 := by
  rw [initBusEvents, holdTotal_append, List.map_eq_flatMap, holdTotal_flatMap_eq_zero fun _ _ => rfl]
  rfl

theorem holdTotal_toggle (d : Nat) (x : Half) (ch : Channel) (t : Word) : holdTotal (toggleEvents d x ch t) = 0 :=
  holdTotal_optionalDrive _ _ _

theorem holdTotal_tickDevice (t : Word) (d : Nat) (c : CounterDev) : holdTotal (tickDeviceEvents t d c) = 0 := by
  unfold tickDeviceEvents
  split
  · rw [holdTotal_append, holdTotal_toggle, holdTotal_toggle]
  · rfl

/-! ### The holds of each command -/

/-- The minimum duration of a command in state s (R299). -/
def minDuration (s : State) : Instr → Nat
  | .init => 0
  | .latch _ => s.tHold
  | .readl _ _ => 2 * s.tHold
  | .readr _ _ => 3 * s.tHold
  | .read32 _ => 6 * s.tHold
  | .read d _ => if (s.ctr d).cfg.dual16 then 3 * s.tHold else 6 * s.tHold
  | .clear _ => s.tHold
  | .togb _ => 0
  | .ovf _ => 0
  | .tick => 0
  | .dlwr _ _ _ => 24 * s.tSer
  | .dlinc _ _ _ => 24 * s.tSer
  | .dldec _ _ _ => 24 * s.tSer
  | .dlget _ _ => 0

theorem body_holdTotal (s : State) (i : Instr) :
    ∃ evs, (bodyOf s i).hist = s.hist ++ evs ∧ holdTotal evs = minDuration s i := by
  obtain ⟨evs, hhist, hevs⟩ := body_hist s i
  refine ⟨evs, hhist, ?_⟩
  have reg {d : Nat} {h : Half} (hreg : ∃ u l, evs = regEvents d h s.tHold u l) : holdTotal evs = 3 * s.tHold := by
    obtain ⟨u, l, rfl⟩ := hreg
    exact holdTotal_reg _ _ _ _ _
  have twoReads {d : Nat} (h : ∃ h h' u l u' l', evs = regEvents d h s.tHold u l ++ regEvents d h' s.tHold u' l') :
      holdTotal evs = 6 * s.tHold := by
    obtain ⟨h, h', u, l, u', l', rfl⟩ := h
    rw [holdTotal_append, holdTotal_reg, holdTotal_reg]
    omega
  have write {b c : Nat} (h : ∃ v, evs = writeEvents b c s.tSer v) : holdTotal evs = 24 * s.tSer := by
    obtain ⟨v, rfl⟩ := h
    exact holdTotal_write _ _ _ _
  cases i with
  | init =>
    subst hevs
    rw [holdTotal_append, holdTotal_append, holdTotal_flatMap_eq_zero fun _ _ => holdTotal_initDevice _ _,
      holdTotal_flatMap_eq_zero fun _ _ => holdTotal_initBus _ _]
    rfl
  | tick =>
    subst hevs
    rw [holdTotal_append, holdTotal_flatMap_eq_zero fun _ _ => holdTotal_tickDevice _ _ _]
    rfl
  | latch d => subst hevs; rfl
  | clear d => subst hevs; rfl
  | togb d => subst hevs; rfl
  | ovf d => subst hevs; rfl
  | dlget b c => subst hevs; rfl
  | readl d h =>
    obtain ⟨u, l, rfl⟩ := hevs
    exact holdTotal_half _ _ _ _ _
  | readr d h => exact reg hevs
  | read32 d => exact twoReads hevs
  | read d h =>
    simp only at hevs
    rw [minDuration]
    split at hevs
    next hm => rw [if_pos hm, reg hevs]
    next hm => rw [if_neg hm, twoReads hevs]
  | dlwr b c v => exact write hevs
  | dlinc b c delta => exact write hevs
  | dldec b c delta => exact write hevs

/-- Settles O51: a completed command ran its sequence, whose holds are minDuration. -/
theorem minimumDurations : Obligations.MinimumDurations := by
  intro i s t v h hout
  obtain ⟨-, rfl⟩ | ⟨c, -, rfl⟩ := exec_cases h
  · obtain ⟨evs, hhist, htotal⟩ := body_holdTotal s i
    exact ⟨evs, hhist, by rw [htotal]; cases i <;> rfl⟩
  · simp at hout

end Sys2Proof.Machine
end

section
/-! READ32 with the IC attached and an environment that makes no move during it (spec/40_counter_read.md R138, R139,
spec/60_exceptions.md R270 to R274): both latch pulses copy the same live counts. -/

namespace Sys2Proof.Machine

/-! ### Live counts that stand still -/

/-- The environment makes no move before the next n events, and the live counts of device d are a and b. -/
structure Still (s : State) (d : Nat) (a b : Reg16) (n : Nat) : Prop where
  quiet : s.QuietFor n
  lives : s.env.Lives d a b

theorem Still.envNow {s : State} {d n : Nat} {a b : Reg16} (h : Still s d a b (n + 1)) : s.envNow = s.env :=
  quiet_envNow (h.quiet 0 (Nat.succ_pos n))

theorem Lives_latchBoth {e : Env} {d : Nat} {a b : Reg16} (h : e.Lives d a b) (i : Nat) :
    (e.modIC i CounterIC.latchBoth).Lives d a b := by
  obtain ⟨ic, hic, hA, hB⟩ := h
  by_cases hi : i = d
  · exact ⟨ic.latchBoth, by simp [ic?_modIC, hi, hic], hA, hB⟩
  · exact ⟨ic, by simp [ic?_modIC, hi, hic], hA, hB⟩

theorem Still.hold {s : State} {d n : Nat} {a b : Reg16} (h : Still s d a b (n + 1)) (t : Nat) :
    Still (s.hold t) d a b n where
  quiet := quiet_step h.quiet (by simp) (hold_env_script s t)
  lives := by
    rw [State.hold_env, h.envNow]
    exact h.lives

theorem Still.sampleDB {s : State} {d n : Nat} {a b : Reg16} (h : Still s d a b (n + 1)) (i : Nat) :
    Still (s.sampleDB i) d a b n where
  quiet := quiet_step h.quiet (by simp) (sampleDB_env_script s i)
  lives := by
    rw [State.sampleDB_env, h.envNow]
    exact h.lives

/-- A gate counts nothing. -/
theorem Still.drive_gate {s : State} {d n : Nat} {a b : Reg16} (h : Still s d a b (n + 1)) (i : Nat) (x : Half)
    (k : BytePart) (lv : Level) : Still (s.drive (.gate i x k) lv) d a b n where
  quiet := quiet_step h.quiet (by simp) (drive_env_script s _ lv)
  lives := by
    rw [State.drive_env, h.envNow]
    exact h.lives

/-- The register clock copies the live counts and leaves them. -/
theorem Still.drive_rclk {s : State} {d n : Nat} {a b : Reg16} (h : Still s d a b (n + 1)) (i : Nat) (lv : Level) :
    Still (s.drive (.rclk i) lv) d a b n where
  quiet := quiet_step h.quiet (by simp) (drive_env_script s _ lv)
  lives := by
    rw [State.drive_env, h.envNow, Env.onDrive]
    split
    · exact Lives_latchBoth h.lives i
    · exact h.lives

theorem Still.pulseLatch {s : State} {d n : Nat} {a b : Reg16} (h : Still s d a b (n + 3)) :
    Still (s.pulseLatch d) d a b n := ((h.drive_rclk d .H).hold _).drive_rclk d .L

theorem Still.memRead {s : State} {d n : Nat} {a b : Reg16} (h : Still s d a b (n + 4)) (x : Half) (k : BytePart) :
    Still (s.memRead d x k) d a b n := (((h.drive_gate d x k .L).hold _).sampleDB d).drive_gate d x k .H

/-- The eleven events of one READR sequence leave the live counts as they were. -/
theorem Still.readReg {s : State} {d n : Nat} {a b : Reg16} (h : Still s d a b (n + 11)) (x : Half) :
    Still (s.readReg d x) d a b n := ((Still.pulseLatch (n := n + 8) h).memRead (n := n + 4) x .upper).memRead x .lower

/-! ### Two reads of a still counter -/

/-- Device d can be read: its pins are at rest, no other device drives its bus, and for n events its live counts
stand at a and b. -/
structure StillView (s : State) (d : Nat) (a b : Reg16) (n : Nat) : Prop where
  exists_ : d < s.ctrs.length
  rclk : (s.ctr d).rclk = .L
  gates : (s.ctr d).gates = Gates.idle
  bus : busQuiet s.ctrs d = true
  still : Still s d a b n

theorem readReg_rclk {s : State} {d : Nat} (hd : d < s.ctrs.length) (x : Half) :
    ((s.readReg d x).ctr d).rclk = .L := by
  rw [State.ctr, readReg_ctrs, getD_modify_self _ _ _ _ hd]

/-- One READR sequence answers the live count and leaves the device to be read again. -/
theorem StillView.readReg {s : State} {d n : Nat} {a b : Reg16} (v : StillView s d a b (n + 11)) (x : Half) :
    s.regValue d x = pickHalf a b x ∧ StillView (s.readReg d x) d a b n := by
  obtain ⟨hd, hr, hg, hq, hstill⟩ := v
  have hlive : s.envNow.Lives d a b := by
    rw [hstill.envNow]
    exact hstill.lives
  obtain ⟨hv, hd', -, hg', hq'⟩ := readReg_view hd hlive hr hg hq x
  exact ⟨hv, hd', readReg_rclk hd x, hg', hq', hstill.readReg x⟩

/-- READ32 of a still counter joins its two live counts, whichever half is read first. -/
theorem bodyRead32_outcomes_of_still {s : State} {d : Nat} {a b : Reg16} (v : StillView s d a b 22) :
    (s.bodyRead32 d).outcomes = s.outcomes ++ [.ok (.word (b ++ a))] := by
  have two (x y : Half) : s.regValue d x = pickHalf a b x ∧ (s.readReg d x).regValue d y = pickHalf a b y
      ∧ ((s.readReg d x).readReg d y).outcomes = s.outcomes := by
    obtain ⟨hx, v'⟩ := v.readReg (n := 11) x
    obtain ⟨hy, -⟩ := v'.readReg (n := 0) y
    exact ⟨hx, hy, ((keeps_readReg s d x).trans (keeps_readReg _ d y)).outcomes⟩
  unfold State.bodyRead32
  cases s.readOrder with
  | ba =>
    obtain ⟨hB, hA, hout⟩ := two .B .A
    rw [State.ret_outcomes, hout, hB, hA, word32_append]
    rfl
  | ab =>
    obtain ⟨hA, hB, hout⟩ := two .A .B
    rw [State.ret_outcomes, hout, hA, hB, word32_append]
    rfl

/-- Settles O58: a settled device is at rest, so both READR sequences answer the live counts. -/
theorem read32OfStillCounter : Obligations.Read32OfStillCounter := by
  intro s d ic hs r hm hb hst hq hic hquiet
  obtain ⟨-, hg, hr, -⟩ := settled_ready hs r
  have ⟨_, hd, _⟩ := r
  exact ⟨_, exec_read32 r hm hb hst, bodyRead32_outcomes_of_still ⟨hd, hr, hg, hq, hquiet, ic, hic, rfl, rfl⟩⟩

end Sys2Proof.Machine
end
